-- ==== Sys2Proof/Word.lean ====
section
/-! DEFINITION. The word types of the engine and of its packets (spec/00_scope.md R7, R12; spec/30_encoding.md R80). -/

namespace Sys2Proof

/-- A `u8`: one sensor register, one storage byte, one bus byte (R7, R60). -/
abbrev Byte := BitVec 8

/-- A 32-bit word: `CMD`, `ARG`, `RES`, `ZOFF` (an `s32`), a stored scalar (R7, R80). -/
abbrev Word := BitVec 32

/-- The 32-bit pattern of an `f32` (R12): binary32, sign bit 31, exponent bits 30:23, fraction bits 22:0. -/
abbrev F32 := BitVec 32

/-- `zext_32` of a byte (R7). -/
abbrev zext32 (b : Byte) : Word := b.setWidth 32

/-- `zext_32` of a `bool` (R7). -/
abbrev boolWord (b : Bool) : Word := if b then 1 else 0

end Sys2Proof
end

