-- ==== Sys2Proof/Machine/Float.lean ====
section
/-! DEFINITION. The binary32 operations of spec/00_scope.md R12, exactly rounded to nearest, ties to even. PRESUMED (log
17): the format and the arithmetic are the IEEE 754 ones, as R12 and spec/93 G1 read the document's "32-bit float". A
finite magnitude is an integer count of units of 2^-149, the smallest subnormal. `none` stands for a NaN result, whose
sign and payload are free (93 U10). -/

namespace Sys2Proof.F32

/-- The sign bit. -/
def sign (w : F32) : Bool := w.getLsbD 31

/-- The exponent field, bits 30:23. -/
def expField (w : F32) : Nat := (w.extractLsb' 23 8).toNat

/-- The fraction field, bits 22:0. -/
def fracField (w : F32) : Nat := (w.extractLsb' 0 23).toNat

/-- The pattern without its sign. -/
def absPattern (w : F32) : Nat := (w.extractLsb' 0 31).toNat

/-- The pattern of infinity without sign. -/
def infPattern : Nat := 0x7F800000

/-- `f32_is_nan` (R12): exponent all ones and a fraction that is not zero (93 G1). -/
def isNan (w : F32) : Bool := infPattern < absPattern w

/-- An infinity of either sign. -/
def isInf (w : F32) : Bool := absPattern w == infPattern

/-- `+0.0` or `-0.0`. -/
def isZero (w : F32) : Bool := absPattern w == 0

/-- The magnitude of a finite value in units of 2^-149. -/
def magnitude (w : F32) : Nat :=
  if expField w = 0 then fracField w else (2 ^ 23 + fracField w) * 2 ^ (expField w - 1)

/-- The integer nearest `n / d`, ties to even. -/
def divNearestEven (n d : Nat) : Nat :=
  let q := n / d
  let r := n % d
  if 2 * r < d then q else if d < 2 * r then q + 1 else q + q % 2

/-- The pattern, without sign, of the binary32 value nearest `n / d` units of 2^-149, ties to even; infinity when the
rounded value does not fit. -/
def roundPattern (n d : Nat) : Nat :=
  let shift := Nat.log2 (n / d) - 23
  min (shift * 2 ^ 23 + divNearestEven n (d * 2 ^ shift)) infPattern

/-- The value with sign `s` and pattern `p`. -/
def withSign (s : Bool) (p : Nat) : F32 := BitVec.ofNat 32 (if s then 2 ^ 31 + p else p)

/-- `f32_of_int(n)` (R12, R170): the binary32 value nearest `n`, ties to even. -/
def ofInt (n : Int) : F32 := withSign (n < 0) (roundPattern (n.natAbs * 2 ^ 149) 1)

/-- The binary32 value nearest the non-negative fraction `n / d` (for the literal 0.001 of R179, D38). -/
def ofFraction (n d : Nat) : F32 := withSign false (roundPattern (n * 2 ^ 149) d)

/-- `f32_div(a, b)` (R12, 93 G1). -/
def div (a b : F32) : Option F32 :=
  let s := sign a != sign b
  if isNan a || isNan b then none
  else if isInf a then (if isInf b then none else some (withSign s infPattern))
  else if isInf b then some (withSign s 0)
  else if isZero b then (if isZero a then none else some (withSign s infPattern))
  else some (withSign s (roundPattern (magnitude a * 2 ^ 149) (magnitude b)))

/-- The exact value of a finite pattern, in units of 2^-149. -/
def exact (w : F32) : Int := if sign w then -(magnitude w : Int) else magnitude w

/-- `f32_sub(a, b)` (R12, 93 G1). -/
def sub (a b : F32) : Option F32 :=
  if isNan a || isNan b then none
  else if isInf a then (if isInf b && sign a == sign b then none else some a)
  else if isInf b then some (withSign (!sign b) infPattern)
  else
    let d := exact a - exact b
    if d = 0 then some (withSign (sign a && !sign b) 0)
    else some (withSign (d < 0) (roundPattern d.natAbs 1))

/-- An integer in the order of the values that are not NaNs; the two zeros share one. -/
def orderKey (w : F32) : Int := if sign w then -(absPattern w : Int) else absPattern w

/-- `f32_lt(a, b)` (R12): false when either side is a NaN. -/
def lt (a b : F32) : Bool := !isNan a && !isNan b && decide (orderKey a < orderKey b)

/-- `f32_lt` with a left side that may be a NaN result. -/
def optLt (a : Option F32) (b : F32) : Bool :=
  match a with
  | some w => lt w b
  | none => false

/-- A NaN of the given sign and payload; a payload of zero would be an infinity and is replaced by the least one. -/
def nanOf (s : Bool) (payload : BitVec 23) : F32 :=
  withSign s (infPattern + (if payload = 0 then 1 else payload.toNat))

end Sys2Proof.F32
end

