-- ==== Sys2Proof/Config.lean ====
section
/-! DEFINITION. The configuration of one engine instance (spec/00_scope.md R6; spec/10_state.md R24, R28 to R30), the
constants of the document, and the free values. -/

namespace Sys2Proof

/-- The outcome of one `BusWrite` (spec/20_memory.md R51). -/
inductive BusStatus where
  | success
  | tooLarge
  | addrNack
  | dataNack
  | other
deriving DecidableEq, Repr, Inhabited

/-- A `DevMap` bit: a register address and a bit position 0 to 7 (R28). -/
structure BitRef where
  reg : Byte
  bit : BitVec 3
deriving DecidableEq, Repr

/-- A `DevMap` field: register, low bit, width, with `w >= 1` and `lsb + w <= 8` (R28). -/
structure Field where
  reg : Byte
  lsb : Nat
  w : Nat
  w_pos : 1 ≤ w := by decide
  fits : lsb + w ≤ 8 := by decide
deriving DecidableEq, Repr

/-- The record `DevMap` (R28): where the sensor keeps the bits, fields and registers the engine names. -/
structure DevMap where
  ready : BitRef
  sample : Byte
  rst : BitRef
  puSet : List BitRef
  puReady : BitRef
  ldo : Field
  gain : Field
  rate : Field
  chan : Field
  intpol : Field
  chop : Byte
  capEn : BitRef
  calStart : BitRef
  calActive : BitRef
  calError : BitRef
deriving DecidableEq, Repr

/-- The byte order of a stored scalar (spec/20_memory.md R58, parameter `NVM_ORDER`). -/
inductive ByteOrder where
  | littleEndian
  | bigEndian
deriving DecidableEq, Repr

/-- The open parameters of one instance (R6, R24, R28, R30), with the bounds the rules put on them. -/
structure Config where
  devAddr : BitVec 7
  slotOff : Nat
  slotFac : Nat
  dev : DevMap
  initLdo : Byte
  initRate : Byte
  chopVal : Byte
  ticksPerSecond : Nat
  tIdle : Nat
  puMaxPolls : Nat
  nvmErased : Word
  nvmOrder : ByteOrder
  slots_apart : slotOff + 4 ≤ slotFac ∨ slotFac + 4 ≤ slotOff := by decide
  ticksPerSecond_pos : 1 ≤ ticksPerSecond := by decide
  tIdle_pos : 1 ≤ tIdle := by decide
  puMaxPolls_pos : 1 ≤ puMaxPolls := by decide
deriving DecidableEq, Repr

/-- `WR_ATTEMPTS` (R6). -/
def Config.wrAttempts : Nat := 3

/-- `AVG_TICKS` (R6). -/
def Config.avgTicks : Nat := 13

/-- `DEF_ZOFF` (R6). -/
def Config.defZoff : Word := 0

/-- `DEF_SFAC` (R6): 1.0, pattern `0x3F800000` (R31). -/
def Config.defSfac : F32 := 0x3F800000

/-- PRESUMED (log 2, unsafe where a claim uses a value of it): the candidate `DevMap` of spec/93 G2, marked there as
general knowledge. -/
def DevMap.candidate : DevMap where
  ready := ⟨0x00, 5⟩
  sample := 0x12
  rst := ⟨0x00, 0⟩
  puSet := [⟨0x00, 1⟩, ⟨0x00, 2⟩]
  puReady := ⟨0x00, 3⟩
  ldo := { reg := 0x01, lsb := 3, w := 3 }
  gain := { reg := 0x01, lsb := 0, w := 3 }
  rate := { reg := 0x02, lsb := 4, w := 3 }
  chan := { reg := 0x02, lsb := 7, w := 1 }
  intpol := { reg := 0x01, lsb := 7, w := 1 }
  chop := 0x15
  capEn := ⟨0x1C, 7⟩
  calStart := ⟨0x02, 2⟩
  calActive := ⟨0x02, 2⟩
  calError := ⟨0x02, 3⟩

/-- PRESUMED (log 2, unsafe where a claim uses a value of it): the parameter values of spec/93 G2, G4 and spec/95 part
2.2; `State.reset` is built with them, every claim over all states holds for every other `Config` too. -/
def Config.candidate : Config where
  devAddr := 0x2A
  slotOff := 0x10
  slotFac := 0x14
  dev := DevMap.candidate
  initLdo := 4
  initRate := 3
  chopVal := 0x30
  ticksPerSecond := 1000
  tIdle := 1
  puMaxPolls := 200
  nvmErased := 0xFFFFFFFF
  nvmOrder := .littleEndian

/-- The working registers (spec/10_state.md R26): they exist only inside one command. The type stands here because a free
value below has it. -/
structure Work where
  acc : BitVec 64
  ns : BitVec 16
  t0 : Nat
  att : BitVec 2
  pk : Nat
  tb : Byte
deriving DecidableEq, Repr, Inhabited

/-- DESIGN CHOICE (log 8, unsafe): the working registers at reset, which the spec leaves unspecified (R31). -/
def Work.atReset : Work := ⟨0, 0, 0, 0, 0, 0⟩

/-- Free value (log 8, safe): the working registers between commands, "unspecified" (R26, 93 U11). -/
opaque Config.freeWork : Nat → Work

/-- Free value (log 3, safe): the answer of a `BusWrite` the script does not give (R10 E4). -/
opaque Config.freeStatus : Nat → BusStatus

/-- Free value (log 3, safe): the bytes answering a `BusRead` the script does not give (R10 E4). -/
opaque Config.freeBytes : Nat → List Byte

/-- Free value (log 4, safe): the ticks that pass before a `Now` the script does not give (R10 E1). -/
opaque Config.freeDelay : Nat → Nat

/-- Free value (log 6, safe): `RES` after a command that ended with `STATUS` not 0 (R25, 93 U8). -/
opaque Config.freeRes : Nat → Word

/-- Free value (log 7, safe): the sign of a NaN result (93 U10). -/
opaque Config.freeNanSign : Nat → Bool

/-- Free value (log 7, safe): the payload of a NaN result (93 U10). -/
opaque Config.freeNanPayload : Nat → BitVec 23

end Sys2Proof
end

