-- ==== Sys2Proof/Syntax.lean ====
section
/-! DEFINITION. The command set as an inductive type: one constructor per row of spec/opcode_table.json
(spec/30_encoding.md R82, R83). -/

namespace Sys2Proof

/-- A command with its operands (R82). Register addresses and values are bytes, `bit` is a bit position 0 to 7,
`count` is the 16-bit sample count, `timeout`, `value` and `ref` are the whole of `ARG`. -/
inductive Instr where
  /-- GETREG ra (R100) -/
  | getreg (ra : Byte)
  /-- SETREG ra, val (R101) -/
  | setreg (ra val : Byte)
  /-- SETBIT ra, bit (R102) -/
  | setbit (ra : Byte) (bit : BitVec 3)
  /-- CLRBIT ra, bit (R103) -/
  | clrbit (ra : Byte) (bit : BitVec 3)
  /-- GETBIT ra, bit (R104) -/
  | getbit (ra : Byte) (bit : BitVec 3)
  /-- AVAIL (R121) -/
  | avail
  /-- READ (R122) -/
  | read
  /-- GETAVG count (R123) -/
  | getavg (count : BitVec 16)
  /-- BEGIN init (R152) -/
  | begin (init : Bool)
  /-- POWERUP (R147) -/
  | powerup
  /-- SETGAIN val (R141) -/
  | setgain (val : Byte)
  /-- SETLDO val (R142) -/
  | setldo (val : Byte)
  /-- SETRATE val (R143) -/
  | setrate (val : Byte)
  /-- SETCHAN val (R144) -/
  | setchan (val : Byte)
  /-- SETINTPOL val (R145) -/
  | setintpol (val : Byte)
  /-- CALBEGIN (R148) -/
  | calbegin
  /-- CALSTAT (R149) -/
  | calstat
  /-- CALWAIT timeout (R150) -/
  | calwait (timeout : Word)
  /-- CALSYNC (R151) -/
  | calsync
  /-- TARE count, persist (R171) -/
  | tare (count : BitVec 16) (persist : Bool)
  /-- CALF count, ref, persist (R172) -/
  | calf (count : BitVec 16) (ref : F32) (persist : Bool)
  /-- GETW count, neg (R173) -/
  | getw (count : BitVec 16) (neg : Bool)
  /-- SETZOFF value (R175) -/
  | setzoff (value : Word)
  /-- SETSFAC value (R176) -/
  | setsfac (value : F32)
  /-- STORECAL (R177) -/
  | storecal
  /-- READCAL (R178) -/
  | readcal
deriving DecidableEq, Repr

end Sys2Proof
end

