-- ==== Sys2Proof/WellFormed.lean ====
section
/-! DEFINITION. Which commands have an encoding (spec/30_encoding.md R84): a sample count of zero has none. Every other
operand range is that of its type. -/

namespace Sys2Proof

/-- "count ... 1 to 65535; 0 is reserved" (R82, R84), for the four commands that take a count. -/
def Instr.wellFormed : Instr → Bool
  | .getavg count | .tare count _ | .calf count _ _ | .getw count _ => count != 0
  | .getreg _ | .setreg _ _ | .setbit _ _ | .clrbit _ _ | .getbit _ _ | .avail | .read
  | .begin _ | .powerup | .setgain _ | .setldo _ | .setrate _ | .setchan _ | .setintpol _
  | .calbegin | .calstat | .calwait _ | .calsync
  | .setzoff _ | .setsfac _ | .storecal | .readcal => true

end Sys2Proof
end

