-- ==== Sys2Proof/Decode.lean ====
section
/-! DEFINITION. The packet decoder, total on every packet, and the encoder beside it (spec/30_encoding.md R80 to R84). -/

namespace Sys2Proof

/-- A command packet: the two words the host presents together (R80). -/
structure Packet where
  cmd : Word
  arg : Word
deriving DecidableEq, Repr

/-- Why a packet is reserved (R84). -/
inductive Reserved where
  /-- the `op` byte is not in the table -/
  | unassignedOpcode
  /-- a field the format requires zero has a bit set -/
  | fieldNotZero
  /-- GETAVG, TARE, CALF or GETW with `count = 0` -/
  | zeroCount
deriving DecidableEq, Repr

/-- What the decoder answers: the row, or `invalid` with the reason (R84). -/
inductive Decoded where
  | instr (i : Instr)
  | invalid (why : Reserved)
deriving DecidableEq, Repr

/-- The instruction, where there is one. -/
def Decoded.toOption : Decoded → Option Instr
  | .instr i => some i
  | .invalid _ => none

/-- `op`, `CMD[31:24]` (R80). -/
def Packet.op (p : Packet) : Byte := p.cmd.extractLsb' 24 8

/-- `a`, `CMD[23:16]`: `ra`, or a flag in its bit 0 (R80). -/
def Packet.a (p : Packet) : Byte := p.cmd.extractLsb' 16 8

/-- `h`, `CMD[15:8]` (R80). -/
def Packet.h (p : Packet) : Byte := p.cmd.extractLsb' 8 8

/-- `l`, `CMD[7:0]` (R80). -/
def Packet.l (p : Packet) : Byte := p.cmd.extractLsb' 0 8

/-- `count`, `CMD[15:0]` (R82). -/
def Packet.count (p : Packet) : BitVec 16 := p.h ++ p.l

/-- `f`, `CMD[16]` (R82). -/
def Packet.flag (p : Packet) : Bool := p.a.getLsbD 0

/-- `bit`, `CMD[2:0]` (R82). -/
def Packet.bit (p : Packet) : BitVec 3 := p.l.extractLsb' 0 3

/-- Formats N and V: `CMD[23:0]` is zero (R81). -/
def Packet.formatN (p : Packet) : Bool := p.a == 0 && p.h == 0 && p.l == 0

/-- Format A: `CMD[15:0]` is zero (R81). -/
def Packet.formatA (p : Packet) : Bool := p.h == 0 && p.l == 0

/-- Format R: `CMD[15:8]` is zero (R81). -/
def Packet.formatR (p : Packet) : Bool := p.h == 0

/-- Format B: `CMD[15:3]` is zero (R81). -/
def Packet.formatB (p : Packet) : Bool := p.h == 0 && p.l.extractLsb' 3 5 == 0

/-- Format I: `CMD[23:8]` is zero (R81). -/
def Packet.formatI (p : Packet) : Bool := p.a == 0 && p.h == 0

/-- Format F: `CMD[23:17]` and `CMD[15:0]` are zero (R81). -/
def Packet.formatF (p : Packet) : Bool := p.a.extractLsb' 1 7 == 0 && p.h == 0 && p.l == 0

/-- Format C with a flag: `CMD[23:17]` is zero (R81). -/
def Packet.formatC (p : Packet) : Bool := p.a.extractLsb' 1 7 == 0

/-- Format C of GETAVG: `f` must be 0 as well (R81). -/
def Packet.formatC0 (p : Packet) : Bool := p.a == 0

/-- The row's command when the packet has its format. -/
def formatted (ok : Bool) (i : Instr) : Decoded :=
  if ok then .instr i else .invalid .fieldNotZero

/-- The row's command when the packet has its format and the row's extra condition `count != 0` holds (R83). -/
def counted (ok : Bool) (count : BitVec 16) (i : Instr) : Decoded :=
  if ok then (if count = 0 then .invalid .zeroCount else .instr i) else .invalid .fieldNotZero

/-- The decoder (R81 to R84): it returns the row or `invalid`. -/
def decode (p : Packet) : Decoded :=
  match p.op.toNat with
  | 0x01 => formatted p.formatA (.getreg p.a)
  | 0x02 => formatted p.formatR (.setreg p.a p.l)
  | 0x03 => formatted p.formatB (.setbit p.a p.bit)
  | 0x04 => formatted p.formatB (.clrbit p.a p.bit)
  | 0x05 => formatted p.formatB (.getbit p.a p.bit)
  | 0x10 => formatted p.formatN .avail
  | 0x11 => formatted p.formatN .read
  | 0x12 => counted p.formatC0 p.count (.getavg p.count)
  | 0x20 => formatted p.formatF (.begin p.flag)
  | 0x21 => formatted p.formatN .powerup
  | 0x22 => formatted p.formatI (.setgain p.l)
  | 0x23 => formatted p.formatI (.setldo p.l)
  | 0x24 => formatted p.formatI (.setrate p.l)
  | 0x25 => formatted p.formatI (.setchan p.l)
  | 0x26 => formatted p.formatI (.setintpol p.l)
  | 0x27 => formatted p.formatN .calbegin
  | 0x28 => formatted p.formatN .calstat
  | 0x29 => formatted p.formatN (.calwait p.arg)
  | 0x2A => formatted p.formatN .calsync
  | 0x30 => counted p.formatC p.count (.tare p.count p.flag)
  | 0x31 => counted p.formatC p.count (.calf p.count p.arg p.flag)
  | 0x32 => counted p.formatC p.count (.getw p.count p.flag)
  | 0x33 => formatted p.formatN (.setzoff p.arg)
  | 0x34 => formatted p.formatN (.setsfac p.arg)
  | 0x35 => formatted p.formatN .storecal
  | 0x36 => formatted p.formatN .readcal
  | _ => .invalid .unassignedOpcode

/-- The bits above `nbits` are zero in the host's numbering: an operand word the table gives no bits is a word of
zeros. -/
def tableBits (nbits w : Nat) : Nat := w % 2 ^ nbits

/-- The packet whose bits are `w`: bit 0 is bit 0 of `CMD`, the first word, and bit 32 is bit 0 of `ARG` (log 16). -/
def packetOfBits (w : Nat) : Packet :=
  ⟨BitVec.ofNat 32 w, BitVec.ofNat 32 (w / 2 ^ 32)⟩

/-- The instruction the decoder reads from the bits `w` of an opcode-table row of `nbits` bits. -/
def decodeTableWord (nbits w : Nat) : Option Instr :=
  (decode (packetOfBits (tableBits nbits w))).toOption

/-- The packet with the four byte fields of R80 and the word `arg`. -/
def packetOf (op a h l : Byte) (arg : Word) : Packet := ⟨op ++ a ++ h ++ l, arg⟩

/-- The high byte of a count (R81). -/
def countHigh (c : BitVec 16) : Byte := c.extractLsb' 8 8

/-- The low byte of a count (R81). -/
def countLow (c : BitVec 16) : Byte := c.extractLsb' 0 8

/-- `0000000 ++ f` (R81). -/
def flagByte (f : Bool) : Byte := if f then 1 else 0

/-- `00000 ++ bit` (R81). -/
def bitByte (b : BitVec 3) : Byte := b.setWidth 8

/-- The encoder (R81, R83, R86): where `ARG` is not named it is written as 0. -/
def encode : Instr → Packet
  | .getreg ra => packetOf 0x01 ra 0 0 0
  | .setreg ra val => packetOf 0x02 ra 0 val 0
  | .setbit ra bit => packetOf 0x03 ra 0 (bitByte bit) 0
  | .clrbit ra bit => packetOf 0x04 ra 0 (bitByte bit) 0
  | .getbit ra bit => packetOf 0x05 ra 0 (bitByte bit) 0
  | .avail => packetOf 0x10 0 0 0 0
  | .read => packetOf 0x11 0 0 0 0
  | .getavg count => packetOf 0x12 0 (countHigh count) (countLow count) 0
  | .begin init => packetOf 0x20 (flagByte init) 0 0 0
  | .powerup => packetOf 0x21 0 0 0 0
  | .setgain val => packetOf 0x22 0 0 val 0
  | .setldo val => packetOf 0x23 0 0 val 0
  | .setrate val => packetOf 0x24 0 0 val 0
  | .setchan val => packetOf 0x25 0 0 val 0
  | .setintpol val => packetOf 0x26 0 0 val 0
  | .calbegin => packetOf 0x27 0 0 0 0
  | .calstat => packetOf 0x28 0 0 0 0
  | .calwait timeout => packetOf 0x29 0 0 0 timeout
  | .calsync => packetOf 0x2A 0 0 0 0
  | .tare count persist => packetOf 0x30 (flagByte persist) (countHigh count) (countLow count) 0
  | .calf count ref persist => packetOf 0x31 (flagByte persist) (countHigh count) (countLow count) ref
  | .getw count neg => packetOf 0x32 (flagByte neg) (countHigh count) (countLow count) 0
  | .setzoff value => packetOf 0x33 0 0 0 value
  | .setsfac value => packetOf 0x34 0 0 0 value
  | .storecal => packetOf 0x35 0 0 0 0
  | .readcal => packetOf 0x36 0 0 0 0

/-- The pseudo-command `PROBE`: `BEGIN 0` (R87). -/
def pseudoProbe : Packet := encode (.begin false)

/-- The pseudo-command `INIT`: `BEGIN 1` (R87). -/
def pseudoInit : Packet := encode (.begin true)

/-- One row of the opcode map of R83: a packet selects it when `CMD & mask = match` and the extra condition holds. -/
structure OpcodeRow where
  mnemonic : String
  mask : Word
  pattern : Word
  countNotZero : Bool
deriving DecidableEq, Repr

/-- "a packet selects the row when `CMD & mask = match` and the row's extra condition holds" (R83). -/
def OpcodeRow.selectedBy (r : OpcodeRow) (p : Packet) : Bool :=
  (p.cmd &&& r.mask == r.pattern) && (!r.countNotZero || p.cmd.extractLsb' 0 16 != 0#16)

/-- The opcode map of R83, row by row. The decoder does not use it; the two are compared by a statement. -/
def opcodeMap : List OpcodeRow :=
  [ ⟨"GETREG", 0xFF00FFFF, 0x01000000, false⟩,
    ⟨"SETREG", 0xFF00FF00, 0x02000000, false⟩,
    ⟨"SETBIT", 0xFF00FFF8, 0x03000000, false⟩,
    ⟨"CLRBIT", 0xFF00FFF8, 0x04000000, false⟩,
    ⟨"GETBIT", 0xFF00FFF8, 0x05000000, false⟩,
    ⟨"AVAIL", 0xFFFFFFFF, 0x10000000, false⟩,
    ⟨"READ", 0xFFFFFFFF, 0x11000000, false⟩,
    ⟨"GETAVG", 0xFFFF0000, 0x12000000, true⟩,
    ⟨"BEGIN", 0xFFFEFFFF, 0x20000000, false⟩,
    ⟨"POWERUP", 0xFFFFFFFF, 0x21000000, false⟩,
    ⟨"SETGAIN", 0xFFFFFF00, 0x22000000, false⟩,
    ⟨"SETLDO", 0xFFFFFF00, 0x23000000, false⟩,
    ⟨"SETRATE", 0xFFFFFF00, 0x24000000, false⟩ ] ++
  [ ⟨"SETCHAN", 0xFFFFFF00, 0x25000000, false⟩,
    ⟨"SETINTPOL", 0xFFFFFF00, 0x26000000, false⟩,
    ⟨"CALBEGIN", 0xFFFFFFFF, 0x27000000, false⟩,
    ⟨"CALSTAT", 0xFFFFFFFF, 0x28000000, false⟩,
    ⟨"CALWAIT", 0xFFFFFFFF, 0x29000000, false⟩,
    ⟨"CALSYNC", 0xFFFFFFFF, 0x2A000000, false⟩,
    ⟨"TARE", 0xFFFE0000, 0x30000000, true⟩,
    ⟨"CALF", 0xFFFE0000, 0x31000000, true⟩,
    ⟨"GETW", 0xFFFE0000, 0x32000000, true⟩,
    ⟨"SETZOFF", 0xFFFFFFFF, 0x33000000, false⟩,
    ⟨"SETSFAC", 0xFFFFFFFF, 0x34000000, false⟩,
    ⟨"STORECAL", 0xFFFFFFFF, 0x35000000, false⟩,
    ⟨"READCAL", 0xFFFFFFFF, 0x36000000, false⟩ ]

/-- The mnemonic of a command (R83, R86). -/
def Instr.mnemonic : Instr → String
  | .getreg _ => "GETREG"
  | .setreg _ _ => "SETREG"
  | .setbit _ _ => "SETBIT"
  | .clrbit _ _ => "CLRBIT"
  | .getbit _ _ => "GETBIT"
  | .avail => "AVAIL"
  | .read => "READ"
  | .getavg _ => "GETAVG"
  | .begin _ => "BEGIN"
  | .powerup => "POWERUP"
  | .setgain _ => "SETGAIN"
  | .setldo _ => "SETLDO"
  | .setrate _ => "SETRATE"
  | .setchan _ => "SETCHAN"
  | .setintpol _ => "SETINTPOL"
  | .calbegin => "CALBEGIN"
  | .calstat => "CALSTAT"
  | .calwait _ => "CALWAIT"
  | .calsync => "CALSYNC"
  | .tare _ _ => "TARE"
  | .calf _ _ _ => "CALF"
  | .getw _ _ => "GETW"
  | .setzoff _ => "SETZOFF"
  | .setsfac _ => "SETSFAC"
  | .storecal => "STORECAL"
  | .readcal => "READCAL"

end Sys2Proof
end

