-- ==== Sys2Proof/Machine/State.lean ====
section
/-! DEFINITION. The state of the engine and of the environment its commands act on, as plain data (spec/10_state.md). -/

namespace Sys2Proof.Machine

/-- The error codes of spec/60_exceptions.md R201, by name; `Err.code` gives the numbers. -/
inductive Err where
  | dataTooLarge
  | addrNack
  | dataNack
  | io
  | noData
  | timeout
  | powerup
  | calFail
  | calTimeout
  | readFactor
  | readOffset
  | notCalibrated
deriving DecidableEq, Repr

/-- The sequencing state `SEQ` (R27). -/
inductive Seq where
  | idle
  | busy
deriving DecidableEq, Repr

/-- One external event with its answer (spec/00_scope.md R8). -/
inductive Event where
  | busWrite (addr : BitVec 7) (bytes : List Byte) (ans : BusStatus)
  | busRead (addr : BitVec 7) (n : Nat) (ans : List Byte)
  | now (ans : Nat)
  | idle (d : Nat)
  | nvmGet (a : Nat) (ans : List Byte)
  | nvmPut (a : Nat) (bytes : List Byte)
deriving DecidableEq, Repr

/-- A response delivered to the host (spec/30_encoding.md R84, R85); the values of `Done` stand in the response
registers. -/
inductive Response where
  | reject
  | done
deriving DecidableEq, Repr

/-- A move of the host still to come: it presents a packet (R80), or it asserts reset (spec/70 R230). The reset comes
right after `after` more external events, before whatever the engine does next, be it an event, a response or a fault;
or when the engine is IDLE, whichever is first (log 13). -/
inductive HostMove where
  | packet (p : Packet)
  | reset (after : Nat)
deriving DecidableEq, Repr

/-- The storage: addressed bytes in canonical form (`Memory.wf` of Ops), addresses rising. -/
abbrev Memory := List Host.Cell

/-- The state. The first block is the engine's architectural state, the second the storage and the clock, the third
the model's own fields: the environment's answers to come, the count of free values taken, and what has been observed. -/
structure State where
  /-- the configuration of the instance (R24): constant, carried here because `step` takes the state alone (log 2) -/
  cfg : Config
  /-- `ZOFF`, an `s32` (R20) -/
  zoff : Word
  /-- `SFAC`, an `f32` pattern (R20) -/
  sfac : F32
  /-- `CALOK` (R21) -/
  calok : Bool
  /-- `CALDET` (R21) -/
  caldet : Bool
  /-- `STATUS`, an `s16` (R25) -/
  status : BitVec 16
  /-- `RES` (R25) -/
  res : Word
  /-- `AUX` (R25) -/
  aux : BitVec 4
  /-- `SEQ` (R27) -/
  seq : Seq
  /-- the working registers (R26) -/
  work : Work
  /-- the non-volatile storage (R50, R57; R10 E3) -/
  nvm : Memory
  /-- the monotonic clock, in ticks (R210; R10 E1, E2) -/
  clock : Nat
  /-- the answers of the `BusWrite` events to come, next first (log 3) -/
  writeAns : List BusStatus
  /-- the answers of the `BusRead` events to come, next first (log 3) -/
  readAns : List (List Byte)
  /-- the ticks that pass before each `Now` to come, next first (log 4) -/
  delays : List Nat
  /-- how many free values have been taken (log 5) -/
  draws : Nat
  /-- the external events performed, oldest first (R5, R8; log 18) -/
  trace : List Event
  /-- the latest response delivered (R84, R85; log 18) -/
  response : Option Response
  /-- the host's moves to come, next first (R5, R80, R230; log 13, log 15) -/
  host : List HostMove
deriving DecidableEq, Repr

/-- The two places where a rule gives a command no result and "the model faults" (spec/60_exceptions.md R214; log 14).
Both are safe: the machine stops, and nothing can be proved of what would follow. Each carries the state at the fault,
the events of `Average` performed (93 U3). -/
inductive Fault where
  /-- Raised by GETW: `SFAC` is exactly `+0.0` or `-0.0` at the division (R173, 93 U3). Safe. -/
  | zeroScaleFactor (s : State)
  /-- Raised by CALF and GETW: `a - ZOFF` lies outside the `s32` range (R180, 93 U5). Safe. -/
  | differenceOutsideS32 (s : State)
deriving DecidableEq, Repr

/-- The reasons for which the model gives no meaning. -/
inductive Refusal where
  /-- Raised by an arm of `exec` that has no meaning yet; no arm is left. Safe. -/
  | notModelled (mnemonic : String)
deriving DecidableEq, Repr

/-- The machine right after reset (spec/10_state.md R31, spec/70 R230): the Scale registers at their defaults, IDLE,
the response registers 0. The configuration is the candidate of spec/93 (log 2), the working registers are zero (log 8),
the storage lists nothing (log 9), the clock stands at 0 (log 4), and the environment's scripts are empty, so that every
answer is free (log 3). -/
def State.reset : State where
  cfg := Config.candidate
  zoff := Config.defZoff
  sfac := Config.defSfac
  calok := false
  caldet := false
  status := 0
  res := 0
  aux := 0
  seq := .idle
  work := Work.atReset
  nvm := []
  clock := 0
  writeAns := []
  readAns := []
  delays := []
  draws := 0
  trace := []
  response := none
  host := []

end Sys2Proof.Machine
end

