-- ==== Sys2Proof/Machine/Flags.lean ====
section
/-! DEFINITION. The two flags (spec/10_state.md R21) and the consistency check that decides `CALOK` after READCAL
(spec/43 R179). The engine has no condition codes. -/

namespace Sys2Proof.Machine

/-- `CALOK <- v`. -/
def State.setCalok (s : State) (v : Bool) : State := { s with calok := v }

/-- `CALDET <- v`. -/
def State.setCaldet (s : State) (v : Bool) : State := { s with caldet := v }

/-- "marks calibration invalid and not-detected": `CALOK <- 0;  CALDET <- 0` (R178). -/
def State.forgetCalibration (s : State) : State := (s.setCalok false).setCaldet false

/-- The literal 0.001 rounded to binary32 (R6 `EPS_NUM`, R179, D38). -/
def epsilon : F32 := F32.ofFraction 1 1000

/-- `Consistent(z, f)` (R179), literally: `f - 1.0 < 0.001` fails, with no absolute value. -/
def consistent (z : Word) (f : F32) : Bool :=
  if z = 0 then false
  else if F32.optLt (F32.sub f Config.defSfac) epsilon then false
  else true

/-- The flags after a READCAL whose two values are clean (R178). -/
def State.judgeCalibration (s : State) : State :=
  (s.setCaldet true).setCalok (consistent s.zoff s.sfac)

end Sys2Proof.Machine
end

