-- ==== Sys2Proof/Machine/Operands.lean ====
section
/-! DEFINITION. Bit and field operands, the sample unpacker, the averages and the byte order of stored scalars: the pure
computations of the command rules. -/

namespace Sys2Proof.Machine

/-- `1 << b` on 8 bits (spec/40 R105). -/
def bitMask (b : BitVec 3) : Byte := 1#8 <<< b.toNat

/-- `(TB >> b) & 1` (R105). -/
def testBit (tb : Byte) (b : BitVec 3) : Bool := (tb >>> b.toNat) &&& 1#8 == 1#8

/-- `TB | (1 << b)` (R105). -/
def withBit (tb : Byte) (b : BitVec 3) : Byte := tb ||| bitMask b

/-- `TB & ~(1 << b)` (R105). -/
def withoutBit (tb : Byte) (b : BitVec 3) : Byte := tb &&& ~~~ (bitMask b)

/-- `FMAX(F) = (1 << w) - 1` (spec/10 R29). -/
def fmax (f : Field) : Byte := BitVec.ofNat 8 (2 ^ f.w - 1)

/-- `FMASK(F) = ((1 << w) - 1) << lsb` (R29). -/
def fmask (f : Field) : Byte := fmax f <<< f.lsb

/-- `min(v, FMAX(F))`: the setters saturate (spec/42 R140). -/
def clampField (f : Field) (v : Byte) : Byte := if v ≤ fmax f then v else fmax f

/-- `(TB & ~FMASK(F)) | (c << F.lsb)` (R140). -/
def mergeField (f : Field) (tb c : Byte) : Byte := (tb &&& ~~~ (fmask f)) ||| (c <<< f.lsb)

/-- `Unpack24(bs)` (spec/41 R120): the 24-bit payload in the top of a 32-bit container, shifted back arithmetically. -/
def unpack24 (bs : List Byte) : Word :=
  let u : BitVec 24 := bs.getD 0 0 ++ bs.getD 1 0 ++ bs.getD 2 0
  (u.setWidth 32 <<< 8).sshiftRight 8

/-- `trunc_div(ACC, count)` as an `s32` (R124, R125). -/
def truncAverage (acc : BitVec 64) (count : BitVec 16) : Word :=
  BitVec.ofInt 32 (acc.toInt.tdiv count.toNat)

/-- The averaging deadline `count * AVG_TICKS`, computed exactly (R126). -/
def deadline (count : BitVec 16) : Nat := count.toNat * Config.avgTicks

/-- `bytes_of(w)` in the order of the storage (spec/20 R58). -/
def bytesOf (o : ByteOrder) (w : Word) : List Byte :=
  let le := [w.extractLsb' 0 8, w.extractLsb' 8 8, w.extractLsb' 16 8, w.extractLsb' 24 8]
  match o with
  | .littleEndian => le
  | .bigEndian => le.reverse

/-- `word_of(bs)` in the order of the storage (R58). -/
def wordOf (o : ByteOrder) (bs : List Byte) : Word :=
  let le := match o with
    | .littleEndian => bs
    | .bigEndian => bs.reverse
  le.getD 3 0 ++ le.getD 2 0 ++ le.getD 1 0 ++ le.getD 0 0

/-- `a - z` over the mathematical integers (spec/43 R170, R180). -/
def difference (a z : Word) : Int := a.toInt - z.toInt

/-- The `s32` range (R180). -/
def insideS32 (d : Int) : Bool := -2147483648 ≤ d && d ≤ 2147483647

/-- The floor clamp (R173, R174): with negatives disallowed an average below the offset becomes the offset. -/
def clampFloor (neg : Bool) (a z : Word) : Word := if !neg && a.slt z then z else a

end Sys2Proof.Machine
end

