-- ==== Sys2Proof/Machine/Ops.lean ====
section
/-! DEFINITION. The shared operations: the storage, the six external events with the environment's answers, commands as
functions that end or stop, the register and storage primitives (spec/20_memory.md R53 to R57), the delivery of a
response or an error, and reset. -/

namespace Sys2Proof.Machine

/-! ### The storage -/

/-- DESIGN CHOICE (log 9, unsafe): what a storage byte that nothing has written reads as. -/
def Memory.unlisted : Byte := 0xFF

/-- The byte at address `a`. -/
def Memory.read : Memory → Nat → Byte
  | [], _ => Memory.unlisted
  | (b, v) :: m, a => if b = a then v else Memory.read m a

/-- Write one byte, keeping the canonical form: an entry equal to what an unlisted address reads as is not kept. -/
def Memory.write : Memory → Nat → Byte → Memory
  | [], a, v => if v = Memory.unlisted then [] else [(a, v)]
  | (b, w) :: m, a, v =>
    if a < b then (if v = Memory.unlisted then (b, w) :: m else (a, v) :: (b, w) :: m)
    else if a = b then (if v = Memory.unlisted then m else (a, v) :: m)
    else (b, w) :: Memory.write m a v

/-- The canonical form: addresses strictly rising, no entry equal to what an unlisted address reads as. -/
def Memory.wf : Memory → Bool
  | [] => true
  | (a, v) :: m => (v != Memory.unlisted) && m.all (fun c => decide (a < c.1)) && Memory.wf m

/-- Consecutive bytes from address `a` on. -/
def Memory.writeBytes (m : Memory) (a : Nat) : List Byte → Memory
  | [] => m
  | v :: vs => Memory.writeBytes (m.write a v) (a + 1) vs

/-- `n` consecutive bytes from address `a` on, lowest address first. -/
def Memory.readBytes (m : Memory) (a n : Nat) : List Byte := (List.range n).map fun k => m.read (a + k)

/-! ### Commands as functions -/

/-- Why a command stops before its last line: an error was raised (spec/00_scope.md R9), the host asserted reset
(spec/70 R230), or a wait without a timeout goes on and this step ends at its polling loop (log 11). -/
inductive Stop where
  | raised (e : Err)
  | resetCut
  | suspended
deriving DecidableEq, Repr

/-- How a piece of a command ends. Every write made before stays made: "nothing is rolled back" (R9). -/
inductive Progress (α : Type) where
  | done (a : α) (s : State)
  | stop (why : Stop) (s : State)
deriving DecidableEq, Repr

/-- The state in which a piece of a command ends, done or stopped. -/
def Progress.state {α : Type} : Progress α → State
  | .done _ s => s
  | .stop _ s => s

/-- A piece of a command's pseudocode. -/
abbrev Cmd (α : Type) := State → Progress α

/-- No effect, the value `a`. -/
def Cmd.pure {α : Type} (a : α) : Cmd α := fun s => .done a s

/-- First `c`, then `k` of its value; a stop of `c` is passed on unchanged (spec/60 R200). -/
def Cmd.bind {α β : Type} (c : Cmd α) (k : α → Cmd β) : Cmd β := fun s =>
  match c s with
  | .done a s' => k a s'
  | .stop why s' => .stop why s'

/-- First `c`, then `d`. -/
def Cmd.next {α β : Type} (c : Cmd α) (d : Cmd β) : Cmd β := c.bind fun _ => d

/-- `raise E` (R9). -/
def Cmd.raise {α : Type} (e : Err) : Cmd α := fun s => .stop (.raised e) s

/-- The step ends at the head of a polling loop; SEQ stays BUSY (log 11). -/
def Cmd.suspend {α : Type} : Cmd α := fun s => .stop .suspended s

/-- Read a register of the engine, or the configuration. -/
def Cmd.get {α : Type} (f : State → α) : Cmd α := fun s => .done (f s) s

/-- Write registers of the engine. -/
def Cmd.set (f : State → State) : Cmd Unit := fun s => .done () (f s)

/-- `try c on error e: f; raise e` (R9, R171, R172). -/
def Cmd.onError {α : Type} (c : Cmd α) (f : State → State) : Cmd α := fun s =>
  match c s with
  | .done a s' => .done a s'
  | .stop (.raised e) s' => .stop (.raised e) (f s')
  | .stop .resetCut s' => .stop .resetCut s'
  | .stop .suspended s' => .stop .suspended s'

/-! ### The environment's answers and the external events (spec/00_scope.md R8, R10) -/

/-- The host asserts reset now. -/
def State.resetDue (s : State) : Bool :=
  match s.host with
  | .reset 0 :: _ => true
  | _ => false

/-- One more external event happens before the host's next reset. -/
def countMove : List HostMove → List HostMove
  | .reset (n + 1) :: rest => .reset n :: rest
  | moves => moves

/-- One more external event happens. -/
def State.countEvent (s : State) : State := { s with host := countMove s.host }

/-- The host's next move is not a reset: nothing cuts the command that runs now short. -/
def State.quiet (s : State) : Bool :=
  match s.host with
  | .reset _ :: _ => false
  | _ => true

/-- An external event: "no event is performed after reset is asserted" (R230). -/
def perform {α : Type} (answer : State → α) (effect : State → State) : Cmd α := fun s =>
  if s.resetDue then .stop .resetCut s
  else .done (answer s.countEvent) (effect s.countEvent)

/-- The event is added to what has been observed. -/
def State.record (s : State) (e : Event) : State := { s with trace := s.trace ++ [e] }

/-- The outcome of the next `BusWrite`: the script's, else a free value (log 3). -/
def State.nextStatus (s : State) : BusStatus := s.writeAns.headD (Config.freeStatus s.draws)

/-- That answer is used up. -/
def State.dropStatus (s : State) : State :=
  { s with writeAns := s.writeAns.tail, draws := s.draws + (if s.writeAns.isEmpty then 1 else 0) }

/-- The bytes the next `BusRead` of length `n` answers, at most `n` of them (spec/20 R51; log 3). -/
def State.nextBytes (s : State) (n : Nat) : List Byte := (s.readAns.headD (Config.freeBytes s.draws)).take n

/-- That answer is used up. -/
def State.dropBytes (s : State) : State :=
  { s with readAns := s.readAns.tail, draws := s.draws + (if s.readAns.isEmpty then 1 else 0) }

/-- The clock value the next `Now` answers: never before the last one (R10 E1; log 4). -/
def State.nextTime (s : State) : Nat := s.clock + s.delays.headD (Config.freeDelay s.draws)

/-- That delay is used up. -/
def State.dropDelay (s : State) : State :=
  { s with delays := s.delays.tail, draws := s.draws + (if s.delays.isEmpty then 1 else 0) }

/-- `BusWrite(DEVADDR, bytes)` (R8, spec/20 R51). -/
def busWrite (bytes : List Byte) : Cmd BusStatus :=
  perform State.nextStatus fun s => s.dropStatus.record (.busWrite s.cfg.devAddr bytes s.nextStatus)

/-- `BusRead(DEVADDR, n)` (R8, spec/20 R51). -/
def busRead (n : Nat) : Cmd (List Byte) :=
  perform (fun s => s.nextBytes n) fun s => s.dropBytes.record (.busRead s.cfg.devAddr n (s.nextBytes n))

/-- `Now()` (R8, spec/60 R210). -/
def now : Cmd Nat :=
  perform State.nextTime fun s => { s.dropDelay with clock := s.nextTime }.record (.now s.nextTime)

/-- `Idle(d)` (R8): at least `d` ticks pass (R10 E2); what passes beyond is part of the next `Now`'s delay. -/
def idle (d : Nat) : Cmd Unit :=
  perform (fun _ => ()) fun s => { s with clock := s.clock + d }.record (.idle d)

/-- `NvmGet(a, 4)` (R8): the bytes of the latest writes (R10 E3). -/
def nvmGet (a : Nat) : Cmd (List Byte) :=
  perform (fun s => s.nvm.readBytes a 4) fun s => s.record (.nvmGet a (s.nvm.readBytes a 4))

/-- `NvmPut(a, bytes)` (R8). -/
def nvmPut (a : Nat) (bytes : List Byte) : Cmd Unit :=
  perform (fun _ => ()) fun s => { s with nvm := s.nvm.writeBytes a bytes }.record (.nvmPut a bytes)

/-! ### Working registers -/

/-- `TB <- b`. -/
def setTb (b : Byte) : Cmd Unit := .set fun s => { s with work := { s.work with tb := b } }

/-- `ATT <- ATT + 1`. -/
def countAttempt : Cmd Unit := .set fun s => { s with work := { s.work with att := s.work.att + 1 } }

/-- `ATT <- 0`. -/
def clearAttempts : Cmd Unit := .set fun s => { s with work := { s.work with att := 0 } }

/-- `T0 <- Now()`. -/
def startClock : Cmd Unit := now.bind fun t => .set fun s => { s with work := { s.work with t0 := t } }

/-! ### Register and storage primitives (spec/20_memory.md) -/

/-- `Comm(st)` (R52). -/
def comm : BusStatus → Option Err
  | .success => none
  | .tooLarge => some .dataTooLarge
  | .addrNack => some .addrNack
  | .dataNack => some .dataNack
  | .other => some .io

/-- An address or data NACK: the outcomes a register write is repeated after (R54). -/
def isNack : BusStatus → Bool
  | .addrNack | .dataNack => true
  | .success | .tooLarge | .other => false

/-- `if st != SUCCESS: raise Comm(st)`. -/
def checkStatus (st : BusStatus) : Cmd Unit :=
  match comm st with
  | none => .pure ()
  | some e => .raise e

/-- `MemRead(DEV, a, n)` (R53). -/
def memReadDev (a : Byte) (n : Nat) : Cmd (List Byte) :=
  (busWrite [a]).bind fun st =>
  (checkStatus st).next <|
  (busRead n).bind fun bs =>
  if bs.length < n then .raise .noData else .pure bs

/-- One byte of a register. -/
def readReg (a : Byte) : Cmd Byte := (memReadDev a 1).bind fun bs => .pure (bs.getD 0 0)

/-- One attempt: `st <- BusWrite(DEVADDR, bytes);  ATT <- ATT + 1` (R54). -/
def attempt (bytes : List Byte) : Cmd BusStatus :=
  (busWrite bytes).bind fun st => countAttempt.next (.pure st)

/-- One attempt of a register write (R54). -/
def writeAttempt (a v : Byte) : Cmd BusStatus := attempt [a, v]

/-- The attempts of a register write when `more` further ones are allowed (R54). -/
def writeAttempts (a v : Byte) : Nat → Cmd Unit
  | 0 => (writeAttempt a v).bind checkStatus
  | more + 1 => (writeAttempt a v).bind fun st =>
    if isNack st then writeAttempts a v more else checkStatus st

/-- `MemWrite(DEV, a, 1, v)` (R54): 3 attempts in all. -/
def memWriteDev (a v : Byte) : Cmd Unit :=
  clearAttempts.next (writeAttempts a v (Config.wrAttempts - 1))

/-- `Probe()` (R55): a zero-length transaction, repeated exactly once on any failure. `ATT` counts the attempts (spec/10
R26); DEDUCED (log 26): from 0, as in a register write. -/
def probe : Cmd Unit :=
  clearAttempts.next <| (attempt []).bind fun st =>
  if st = .success then .pure () else (attempt []).bind checkStatus

/-- `MemRead(NVM, a, 4)` (R57). -/
def memReadNvm (a : Nat) : Cmd Word :=
  (nvmGet a).bind fun bs => .get fun s => wordOf s.cfg.nvmOrder bs

/-- `MemWrite(NVM, a, 4, w)` (R57). -/
def memWriteNvm (a : Nat) (w : Word) : Cmd Unit := fun s => nvmPut a (bytesOf s.cfg.nvmOrder w) s

/-! ### Responses, errors and reset -/

/-- The number of an error code (spec/60_exceptions.md R201). -/
def Err.number : Err → Int
  | .dataTooLarge => -1
  | .addrNack => -2
  | .dataNack => -3
  | .io => -4
  | .noData => -5
  | .timeout => -6
  | .powerup => -7
  | .calFail => -8
  | .calTimeout => -9
  | .readFactor => -101
  | .readOffset => -102
  | .notCalibrated => -103

/-- The error code as `STATUS` holds it, an `s16` (R25, R201). -/
def Err.code (e : Err) : BitVec 16 := BitVec.ofInt 16 e.number

/-- A packet is taken: IDLE to BUSY (R27). -/
def State.accept (s : State) : State := { s with seq := .busy }

/-- The response registers are written, the response is delivered, BUSY to IDLE (R27, R85). The working registers end
with the command (R26). -/
def State.respond (s : State) (status : BitVec 16) (res : Word) : State :=
  { s with
    status := status, res := res, seq := .idle, response := some .done,
    work := Config.freeWork s.draws, draws := s.draws + 1 }

/-- The end of a command by an error that nothing caught: `STATUS <- E`, `RES` unspecified (R9, R25, R207). This is the
engine's whole exception entry: nothing is saved, no mode changes, control goes nowhere (R207), and there is no return
(R208). -/
def State.takeError (s : State) (e : Err) : State := s.respond e.code (Config.freeRes s.draws)

/-- The host's reset has happened. -/
def dropReset : List HostMove → List HostMove
  | .reset _ :: rest => rest
  | moves => moves

/-- The reset input is asserted (spec/70 R230, spec/10 R31). The sensor, the storage and the clock are not touched, and
no response is delivered for a command cut short. -/
def State.assertReset (s : State) : State :=
  { s with
    zoff := Config.defZoff, sfac := Config.defSfac, calok := false, caldet := false,
    status := 0, res := 0, aux := 0, seq := .idle, work := Work.atReset, response := none,
    host := dropReset s.host }

/-- `AUX <- 0`: "0 after every other command" than BEGIN (R25). -/
def State.clearAux (s : State) : State := { s with aux := 0 }

/-- The end of a command when no reset is due; `aux` says what becomes of AUX when a response is delivered. -/
def deliver (aux : State → State) : Progress Word → State
  | .done w s => (aux s).respond 0 w
  | .stop (.raised e) s => (aux s).takeError e
  | .stop .resetCut s => s.assertReset
  | .stop .suspended s => s

/-- The end of a command. A reset asserted after its last event, or within a command without events, comes before the
response (R230; log 13). -/
def concludeWith (aux : State → State) (r : Progress Word) : State :=
  if r.state.resetDue then r.state.assertReset else deliver aux r

/-- The end of a command other than BEGIN: AUX is 0 (R25). -/
def conclude (r : Progress Word) : State := concludeWith State.clearAux r

/-- The end of BEGIN: AUX keeps the stage number BEGIN wrote (R25, R152). -/
def concludeStage (r : Progress Word) : State := concludeWith id r

/-- Run a command other than BEGIN to its end: take the packet, follow its pseudocode, deliver the response (R5, R27). -/
def runCommand (c : Cmd Word) (s : State) : Host.Outcome State Fault Refusal := .next (conclude (c s.accept))

/-- Run a command that has a place with no result: first `c`, then the check, which may fault, then `k` (R214). A reset
asserted after the events of `c` comes before the fault (R230; log 13). -/
def runOrFault {α : Type} (c : Cmd α) (check : α → State → Option Fault) (k : α → Cmd Word) (s : State) :
    Host.Outcome State Fault Refusal :=
  match c s.accept with
  | .stop why s' => .next (conclude (.stop why s'))
  | .done a s' =>
    if s'.resetDue then .next s'.assertReset
    else
      match check a s' with
      | some f => .fault f
      | none => .next (conclude (k a s'))

/-- The response `Reject` to a reserved packet: the engine stays IDLE, performs no event, writes no register (spec/30
R84; log 10). -/
def State.reject (s : State) : State := { s with response := some .reject }

/-- What the host can read while the engine is IDLE (spec/10 R32). -/
inductive PortItem where
  | zoff
  | sfac
  | calok
  | caldet
  | status
  | res
  | aux
deriving DecidableEq, Repr

/-- The host read port (R32): no command, no event. DESIGN CHOICE (log 25): no answer while BUSY, and an item narrower
than 32 bits is zero-extended, so that a negative `STATUS` shows its 16-bit pattern. -/
def State.readPort (s : State) (item : PortItem) : Option Word :=
  match s.seq with
  | .busy => none
  | .idle => some <|
    match item with
    | .zoff => s.zoff
    | .sfac => s.sfac
    | .calok => boolWord s.calok
    | .caldet => boolWord s.caldet
    | .status => s.status.setWidth 32
    | .res => s.res
    | .aux => s.aux.setWidth 32

end Sys2Proof.Machine
end

