-- ==== Sys2Proof/Machine/RegisterAccess.lean ====
section
/-! DEFINITION. The register access commands (spec/40_register_access.md R100 to R105). -/

namespace Sys2Proof.Machine

/-- `GetBit(a, b)` (R105). -/
def getBit (r : BitRef) : Cmd Bool :=
  (readReg r.reg).bind fun b =>
  (setTb b).next <|
  .get fun s => testBit s.work.tb r.bit

/-- `SetBit(a, b)` (R105): the write is made also when the bit is set already. -/
def setBit (r : BitRef) : Cmd Unit :=
  (readReg r.reg).bind fun b =>
  (setTb b).next fun s => memWriteDev r.reg (withBit s.work.tb r.bit) s

/-- `ClearBit(a, b)` (R105). -/
def clearBit (r : BitRef) : Cmd Unit :=
  (readReg r.reg).bind fun b =>
  (setTb b).next fun s => memWriteDev r.reg (withoutBit s.work.tb r.bit) s

/-- GETREG (R100). -/
def execGetreg (ra : Byte) (s : State) : Host.Outcome State Fault Refusal :=
  runCommand ((readReg ra).bind fun b => .pure (zext32 b)) s

/-- SETREG (R101). -/
def execSetreg (ra val : Byte) (s : State) : Host.Outcome State Fault Refusal :=
  runCommand ((memWriteDev ra val).next (.pure 0)) s

/-- SETBIT (R102). -/
def execSetbit (ra : Byte) (bit : BitVec 3) (s : State) : Host.Outcome State Fault Refusal :=
  runCommand ((setBit ⟨ra, bit⟩).next (.pure 0)) s

/-- CLRBIT (R103). -/
def execClrbit (ra : Byte) (bit : BitVec 3) (s : State) : Host.Outcome State Fault Refusal :=
  runCommand ((clearBit ⟨ra, bit⟩).next (.pure 0)) s

/-- GETBIT (R104). -/
def execGetbit (ra : Byte) (bit : BitVec 3) (s : State) : Host.Outcome State Fault Refusal :=
  runCommand ((getBit ⟨ra, bit⟩).bind fun r => .pure (boolWord r)) s

end Sys2Proof.Machine
end

