-- ==== Sys2Proof/Machine/SampleAcquisition.lean ====
section
/-! DEFINITION. The sample acquisition and averaging commands (spec/41_sample_acquisition.md R120 to R127). -/

namespace Sys2Proof.Machine

/-- `Available()` (R121). -/
def available : Cmd Bool := fun s => getBit s.cfg.dev.ready s

/-- `Reading()` (R122). -/
def reading : Cmd Word := fun s =>
  ((memReadDev s.cfg.dev.sample 3).bind fun bs => .pure (unpack24 bs)) s

/-- `Idle(T_IDLE)`, the delay between two polls (R124, R147, R150). -/
def idleTick : Cmd Unit := fun s => idle s.cfg.tIdle s

/-- `t <- Now();  if t - T0 > limit: raise e` (R124, R150): the comparison is strict. -/
def checkDeadline (limit : Nat) (e : Err) : Cmd Unit :=
  now.bind fun t s => if s.work.t0 + limit < t then .stop (.raised e) s else .done () s

/-- `ACC <- 0;  NS <- 0` (R124). -/
def clearSum : Cmd Unit := .set fun s => { s with work := { s.work with acc := 0, ns := 0 } }

/-- `ACC <- ACC + sext_64(v);  NS <- NS + 1` (R124). -/
def addSample (v : Word) : Cmd Unit :=
  .set fun s => { s with work := { s.work with acc := s.work.acc + v.signExtend 64, ns := s.work.ns + 1 } }

/-- Read the ready sample and add it; whether it was the last one wanted, `NS = count` (R124). -/
def takeSample (count : BitVec 16) : Cmd Bool :=
  reading.bind fun v => (addSample v).next (.get fun s => s.work.ns == count)

/-- One pass of the loop of `Average` (R124): the average if this pass completed it, else the pass ended with its idle
wait. -/
def averagePass (count : BitVec 16) : Cmd (Option Word) :=
  available.bind fun r =>
  (if r then takeSample count else .pure false).bind fun last =>
  if last then .get fun s => some (truncAverage s.work.acc count)
  else (checkDeadline (deadline count) .timeout).next <| idleTick.next <| .pure none

/-- At most `n` passes. The end at no pass left is not reached with `averagePasses` of them (R126; log 12). -/
def averageLoop (count : BitVec 16) : Nat → Cmd Word
  | 0 => .raise .timeout
  | n + 1 => (averagePass count).bind fun
    | some a => .pure a
    | none => averageLoop count n

/-- The passes after which the deadline has passed: the clock read of pass `k` is at least `T0 + k * T_IDLE` (R126;
log 12). -/
def averagePasses (cfg : Config) (count : BitVec 16) : Nat := deadline count / cfg.tIdle + 2

/-- `Average(count)` (R124). -/
def average (count : BitVec 16) : Cmd Word :=
  startClock.next <| clearSum.next fun s => averageLoop count (averagePasses s.cfg count) s

/-- AVAIL (R121). -/
def execAvail (s : State) : Host.Outcome State Fault Refusal :=
  runCommand (available.bind fun r => .pure (boolWord r)) s

/-- READ (R122). -/
def execRead (s : State) : Host.Outcome State Fault Refusal := runCommand reading s

/-- GETAVG (R123). -/
def execGetavg (count : BitVec 16) (s : State) : Host.Outcome State Fault Refusal := runCommand (average count) s

end Sys2Proof.Machine
end

