-- ==== Sys2Proof/Machine/DeviceControl.lean ====
section
/-! DEFINITION. The device control commands (spec/42_device_control.md R140 to R153). -/

namespace Sys2Proof.Machine

/-- `SetField(F, v)` (R140): clamp, then one read-modify-write. -/
def setField (f : Field) (v : Byte) : Cmd Unit :=
  (readReg f.reg).bind fun b =>
  (setTb b).next fun s => memWriteDev f.reg (mergeField f s.work.tb (clampField f v)) s

/-- `SoftReset()` (R146). -/
def softReset : Cmd Unit := fun s =>
  ((setBit s.cfg.dev.rst).next <| idleTick.next <| clearBit s.cfg.dev.rst) s

/-- `for X in PU_SET, in list order: SetBit(X)` (R147). -/
def setBits : List BitRef → Cmd Unit
  | [] => .pure ()
  | x :: xs => (setBit x).next (setBits xs)

/-- `PK <- 0`. -/
def clearPolls : Cmd Unit := .set fun s => { s with work := { s.work with pk := 0 } }

/-- `PK <- PK + 1`. -/
def countPoll : Cmd Unit := .set fun s => { s with work := { s.work with pk := s.work.pk + 1 } }

/-- The polls of `PU_READY` when `more` further ones are allowed (R147). -/
def powerPolls (ready : BitRef) : Nat → Cmd Unit
  | 0 => (getBit ready).bind fun r => if r then .pure () else countPoll.next (.raise .powerup)
  | more + 1 => (getBit ready).bind fun r =>
    if r then .pure () else countPoll.next <| idleTick.next <| powerPolls ready more

/-- `PowerUp()` (R147): at most `PU_MAX_POLLS` polls, no clock read. -/
def powerUp : Cmd Unit := fun s =>
  ((setBits s.cfg.dev.puSet).next <| clearPolls.next <|
    powerPolls s.cfg.dev.puReady (s.cfg.puMaxPolls - 1)) s

/-- `CalBegin()` (R148). -/
def calBegin : Cmd Unit := fun s => setBit s.cfg.dev.calStart s

/-- The three answers of the AFE calibration status (R149). -/
inductive CalStatus where
  | success
  | inProgress
  | failure
deriving DecidableEq, Repr

/-- "`CAL_SUCCESS = 0`, `CAL_IN_PROGRESS = 1`, `CAL_FAILURE = 2`" (R149). -/
def calCode : CalStatus → Word
  | .success => 0
  | .inProgress => 1
  | .failure => 2

/-- `CalStatus()` (R149): in-progress takes priority, and the error bit is then not read. -/
def calStatus : Cmd CalStatus := fun s =>
  ((getBit s.cfg.dev.calActive).bind fun active =>
    if active then .pure .inProgress
    else (getBit s.cfg.dev.calError).bind fun err => .pure (if err then .failure else .success)) s

/-- One pass of the loop of `CalWait` (R150): the status that left in-progress, else the pass ended with its idle wait. -/
def calWaitPass (timeout : Nat) : Cmd (Option CalStatus) :=
  calStatus.bind fun st =>
  if st = .inProgress then
    (if timeout = 0 then Cmd.pure () else checkDeadline timeout .calTimeout).next <| idleTick.next <| .pure none
  else .pure (some st)

/-- At most `n` passes. With a timeout the end at no pass left is not reached with `calWaitPasses` of them (log 12);
without one the wait goes on in the next step (R150, R240; log 11). -/
def calWaitLoop (timeout : Nat) : Nat → Cmd CalStatus
  | 0 => if timeout = 0 then .suspend else .raise .calTimeout
  | n + 1 => (calWaitPass timeout).bind fun
    | some st => .pure st
    | none => calWaitLoop timeout n

/-- The passes one step makes: with a timeout those after which it has passed (log 12), without one as many as the
environment's list has write outcomes, and at least one (log 11): each pass begins with a pointer write. -/
def calWaitPasses (s : State) (timeout : Nat) : Nat :=
  if timeout = 0 then max 1 s.writeAns.length else timeout / s.cfg.tIdle + 2

/-- `done: if s = CAL_FAILURE: raise E_CAL_FAIL` (R150). -/
def calWaitEnd (st : CalStatus) : Cmd Unit := if st = .failure then .raise .calFail else .pure ()

/-- `CalWait(timeout)` from the head of its loop on (R150). -/
def calWaitRest (timeout : Nat) : Cmd Unit := fun s =>
  ((calWaitLoop timeout (calWaitPasses s timeout)).bind calWaitEnd) s

/-- `CalWait(timeout)` (R150); 0 means wait indefinitely. -/
def calWait (timeout : Nat) : Cmd Unit := startClock.next (calWaitRest timeout)

/-- `CalSync()` (R151). -/
def calSync : Cmd Unit := fun s => (calBegin.next (calWait s.cfg.ticksPerSecond)) s

/-- `AUX <- n` (R152). -/
def setStage (n : BitVec 4) : Cmd Unit := .set fun s => { s with aux := n }

/-- Stages 1 to 8 of BEGIN (R152). -/
def initSequence : Cmd Unit := fun s =>
  ((setStage 1).next <| softReset.next <|
   (setStage 2).next <| powerUp.next <|
   (setStage 3).next <| (setField s.cfg.dev.ldo s.cfg.initLdo).next <|
   (setStage 4).next <| (setField s.cfg.dev.gain (fmax s.cfg.dev.gain)).next <|
   (setStage 5).next <| (setField s.cfg.dev.rate s.cfg.initRate).next <|
   (setStage 6).next <| (memWriteDev s.cfg.dev.chop s.cfg.chopVal).next <|
   (setStage 7).next <| (setBit s.cfg.dev.capEn).next <|
   (setStage 8).next calSync) s

/-- `BEGIN init` up to its return (R152). -/
def beginSequence (init : Bool) : Cmd Word :=
  (setStage 0).next <| probe.next <|
  (if init then initSequence else .pure ()).next (.pure 0)

/-- SETGAIN (R141). -/
def execSetgain (val : Byte) (s : State) : Host.Outcome State Fault Refusal :=
  runCommand ((setField s.cfg.dev.gain val).next (.pure 0)) s

/-- SETLDO (R142). -/
def execSetldo (val : Byte) (s : State) : Host.Outcome State Fault Refusal :=
  runCommand ((setField s.cfg.dev.ldo val).next (.pure 0)) s

/-- SETRATE (R143). -/
def execSetrate (val : Byte) (s : State) : Host.Outcome State Fault Refusal :=
  runCommand ((setField s.cfg.dev.rate val).next (.pure 0)) s

/-- SETCHAN (R144). -/
def execSetchan (val : Byte) (s : State) : Host.Outcome State Fault Refusal :=
  runCommand ((setField s.cfg.dev.chan val).next (.pure 0)) s

/-- SETINTPOL (R145). -/
def execSetintpol (val : Byte) (s : State) : Host.Outcome State Fault Refusal :=
  runCommand ((setField s.cfg.dev.intpol val).next (.pure 0)) s

/-- POWERUP (R147). -/
def execPowerup (s : State) : Host.Outcome State Fault Refusal := runCommand (powerUp.next (.pure 0)) s

/-- CALBEGIN (R148). -/
def execCalbegin (s : State) : Host.Outcome State Fault Refusal := runCommand (calBegin.next (.pure 0)) s

/-- CALSTAT (R149). -/
def execCalstat (s : State) : Host.Outcome State Fault Refusal :=
  runCommand (calStatus.bind fun st => .pure (calCode st)) s

/-- CALWAIT (R150). -/
def execCalwait (timeout : Word) (s : State) : Host.Outcome State Fault Refusal :=
  runCommand ((calWait timeout.toNat).next (.pure 0)) s

/-- A step of the machine while BUSY: the wait without a timeout goes on from the head of its loop (R150, R240; log
11). It is the only command a step can leave BUSY. -/
def resumeWait (s : State) : Host.Outcome State Fault Refusal :=
  runCommand ((calWaitRest 0).next (.pure 0)) s

/-- CALSYNC (R151). -/
def execCalsync (s : State) : Host.Outcome State Fault Refusal := runCommand (calSync.next (.pure 0)) s

/-- BEGIN (R152). -/
def execBegin (init : Bool) (s : State) : Host.Outcome State Fault Refusal :=
  .next (concludeStage (beginSequence init s.accept))

end Sys2Proof.Machine
end

