-- ==== Sys2Proof/Machine/CalibrationScaler.lean ====
section
/-! DEFINITION. The calibration and weight commands (spec/43_calibration_scaler.md R170 to R181). -/

namespace Sys2Proof.Machine

/-- A quotient, or a NaN of free sign and payload (log 7). -/
def quotientOrNan (q : Option F32) : Cmd F32 := fun s =>
  match q with
  | some w => .done w s
  | none =>
    .done (F32.nanOf (Config.freeNanSign s.draws) (Config.freeNanPayload s.draws)) { s with draws := s.draws + 1 }

/-- `Scale(a, z, q)` (R170): the exact difference, one conversion, one division. -/
def scale (a z : Word) (q : F32) : Cmd F32 := quotientOrNan (F32.div (F32.ofInt (difference a z)) q)

/-- No result where `a - ZOFF` lies outside `s32` (R180, 93 U5). -/
def differenceFault (a : Word) (s : State) : Option Fault :=
  if insideS32 (difference a s.zoff) then none else some (.differenceOutsideS32 s)

/-- No result where GETW would divide by an `SFAC` of exactly zero (R173, 93 U3). -/
def weightFault (a : Word) (s : State) : Option Fault :=
  match differenceFault a s with
  | some f => some f
  | none => if F32.isZero s.sfac then some (.zeroScaleFactor s) else none

/-- `try a <- Average(count) on error e: CALOK <- 0; raise e` (R171, R172). -/
def averageOrInvalidate (count : BitVec 16) : Cmd Word :=
  (average count).onError fun s => s.setCalok false

/-- `ZOFF <- z`. -/
def setZoff (z : Word) : Cmd Unit := .set fun s => { s with zoff := z }

/-- `SFAC <- f`. -/
def setSfac (f : F32) : Cmd Unit := .set fun s => { s with sfac := f }

/-- `if persist = 1: MemWrite(NVM, SLOT_OFF, 4, ZOFF)` (R171). -/
def persistZoff (persist : Bool) : Cmd Unit := fun s =>
  if persist then memWriteNvm s.cfg.slotOff s.zoff s else .done () s

/-- `if persist = 1: MemWrite(NVM, SLOT_FAC, 4, f32_bits(SFAC))` (R172). -/
def persistSfac (persist : Bool) : Cmd Unit := fun s =>
  if persist then memWriteNvm s.cfg.slotFac s.sfac s else .done () s

/-- TARE (R171). -/
def execTare (count : BitVec 16) (persist : Bool) (s : State) : Host.Outcome State Fault Refusal :=
  runCommand
    ((averageOrInvalidate count).bind fun a =>
      (setZoff a).next <| (persistZoff persist).next (.pure a)) s

/-- CALF after its average (R172). -/
def calfRest (ref : F32) (persist : Bool) (a : Word) : Cmd Word :=
  Cmd.bind (fun s => scale a s.zoff ref s) fun q =>
    (setSfac q).next <| (Cmd.set fun s => s.setCalok true).next <| (persistSfac persist).next (.pure q)

/-- CALF (R172). -/
def execCalf (count : BitVec 16) (ref : F32) (persist : Bool) (s : State) : Host.Outcome State Fault Refusal :=
  runOrFault (averageOrInvalidate count) differenceFault (calfRest ref persist) s

/-- `if CALOK = 0: raise E_NOT_CALIBRATED` (R173). -/
def requireCalibrated : Cmd Unit := fun s =>
  if s.calok then .done () s else .stop (.raised .notCalibrated) s

/-- The average GETW converts, after the floor clamp (R173, R174). -/
def weightCount (count : BitVec 16) (neg : Bool) : Cmd Word :=
  requireCalibrated.next <| (average count).bind fun a => .get fun s => clampFloor neg a s.zoff

/-- GETW (R173). -/
def execGetw (count : BitVec 16) (neg : Bool) (s : State) : Host.Outcome State Fault Refusal :=
  runOrFault (weightCount count neg) weightFault (fun a s => scale a s.zoff s.sfac s) s

/-- SETZOFF (R175). -/
def execSetzoff (value : Word) (s : State) : Host.Outcome State Fault Refusal :=
  runCommand ((setZoff value).next (.pure 0)) s

/-- SETSFAC (R176). -/
def execSetsfac (value : F32) (s : State) : Host.Outcome State Fault Refusal :=
  runCommand ((setSfac value).next (.pure 0)) s

/-- STORECAL (R177): factor first, both unconditionally. -/
def storeCalibration : Cmd Unit := fun s =>
  ((memWriteNvm s.cfg.slotFac s.sfac).next (memWriteNvm s.cfg.slotOff s.zoff)) s

/-- STORECAL (R177). -/
def execStorecal (s : State) : Host.Outcome State Fault Refusal := runCommand (storeCalibration.next (.pure 0)) s

/-- `wf = NVM_ERASED or f32_is_nan(wf)` (R178). -/
def corruptFactor (cfg : Config) (wf : Word) : Bool := wf == cfg.nvmErased || F32.isNan wf

/-- `wo = NVM_ERASED`: an integer has no NaN (R178). -/
def corruptOffset (cfg : Config) (wo : Word) : Bool := wo == cfg.nvmErased

/-- A corrupt factor: its default, written back; flags cleared; `E_READ_FACTOR` (R178). -/
def healFactor : Cmd Word := fun s =>
  ((setSfac Config.defSfac).next <| (memWriteNvm s.cfg.slotFac Config.defSfac).next <|
    (Cmd.set State.forgetCalibration).next (.raise .readFactor)) s

/-- A corrupt offset: its default, written back; flags cleared; `E_READ_OFFSET` (R178). -/
def healOffset : Cmd Word := fun s =>
  ((setZoff Config.defZoff).next <| (memWriteNvm s.cfg.slotOff Config.defZoff).next <|
    (Cmd.set State.forgetCalibration).next (.raise .readOffset)) s

/-- READCAL after the two reads: the factor is checked first (R178, 90 C3). -/
def judgeStored (wf wo : Word) : Cmd Word := fun s =>
  if corruptFactor s.cfg wf then healFactor s
  else if corruptOffset s.cfg wo then healOffset s
  else ((Cmd.set State.judgeCalibration).next (.pure 0)) s

/-- `READCAL` up to its return (R178). -/
def readCalibration : Cmd Word := fun s =>
  ((memReadNvm s.cfg.slotFac).bind fun wf =>
   (memReadNvm s.cfg.slotOff).bind fun wo =>
   (setSfac wf).next <| (setZoff wo).next <| judgeStored wf wo) s

/-- READCAL (R178). -/
def execReadcal (s : State) : Host.Outcome State Fault Refusal := runCommand readCalibration s

end Sys2Proof.Machine
end

