-- ==== Sys2Proof/Machine/Dispatch.lean ====
section
/-! DEFINITION. The dispatch: one arm per command. -/

namespace Sys2Proof.Machine

def exec (i : Instr) (s : State) : Host.Outcome State Fault Refusal :=
  match i with
  -- register access (spec/40)
  | .getreg ra => Sys2Proof.Machine.execGetreg ra s
  | .setreg ra val => Sys2Proof.Machine.execSetreg ra val s
  | .setbit ra bit => Sys2Proof.Machine.execSetbit ra bit s
  | .clrbit ra bit => Sys2Proof.Machine.execClrbit ra bit s
  | .getbit ra bit => Sys2Proof.Machine.execGetbit ra bit s
  -- sample acquisition (spec/41)
  | .avail => Sys2Proof.Machine.execAvail s
  | .read => Sys2Proof.Machine.execRead s
  | .getavg count => Sys2Proof.Machine.execGetavg count s
  -- device control (spec/42)
  | .begin init => Sys2Proof.Machine.execBegin init s
  | .powerup => Sys2Proof.Machine.execPowerup s
  | .setgain val => Sys2Proof.Machine.execSetgain val s
  | .setldo val => Sys2Proof.Machine.execSetldo val s
  | .setrate val => Sys2Proof.Machine.execSetrate val s
  | .setchan val => Sys2Proof.Machine.execSetchan val s
  | .setintpol val => Sys2Proof.Machine.execSetintpol val s
  | .calbegin => Sys2Proof.Machine.execCalbegin s
  | .calstat => Sys2Proof.Machine.execCalstat s
  | .calwait timeout => Sys2Proof.Machine.execCalwait timeout s
  | .calsync => Sys2Proof.Machine.execCalsync s
  -- calibration and weight (spec/43)
  | .tare count persist => Sys2Proof.Machine.execTare count persist s
  | .calf count ref persist => Sys2Proof.Machine.execCalf count ref persist s
  | .getw count neg => Sys2Proof.Machine.execGetw count neg s
  | .setzoff value => Sys2Proof.Machine.execSetzoff value s
  | .setsfac value => Sys2Proof.Machine.execSetsfac value s
  | .storecal => Sys2Proof.Machine.execStorecal s
  | .readcal => Sys2Proof.Machine.execReadcal s

end Sys2Proof.Machine
end

