-- ==== Sys2Proof/Machine/Step.lean ====
section
/-! DEFINITION. One step of the machine: one command, one reset, one stretch of a wait without a timeout, or nothing
while the host presents nothing (spec/00_scope.md R5; spec/10_state.md R27). -/

namespace Sys2Proof.Machine

/-- A packet presented while IDLE: it is decoded and its command executed, or it is reserved and gets `Reject` (spec/30
R80, R84). -/
def takePacket (p : Packet) (s : State) : Host.Outcome State Fault Refusal :=
  match decode p with
  | .instr i => exec i s
  | .invalid _ => .next s.reject

/-- The step. While BUSY no packet is taken (R88): the wait goes on, and a reset that is due cuts it at its next event.
While IDLE the host's next move is taken; with no move the engine stays as it is. -/
def step (s : State) : Host.Outcome State Fault Refusal :=
  match s.seq with
  | .busy => resumeWait s
  | .idle =>
    match s.host with
    | [] => .next s
    | .reset _ :: _ => .next s.assertReset
    | .packet p :: rest => takePacket p { s with host := rest }

/-- `s` with the packet of the opcode-table bits `w` presented next, to an engine that is IDLE (log 15). -/
def State.withFetchWord (s : State) (nbits w : Nat) : State :=
  { s with seq := .idle, host := .packet (packetOfBits (tableBits nbits w)) :: s.host }

end Sys2Proof.Machine
end

