-- ==== Sys2Proof/Safety.lean ====
section
/-! DEFINITION. The terms claims are stated in: what a response says, what a command leaves alone, what the environment
will answer, and the invariant of the machine. -/

namespace Sys2Proof.Machine

/-! ### Responses and frames -/

/-- The command ended with `Done(0, res, aux)` (spec/30 R85). -/
def Succeeded (t : State) (res : Word) (aux : BitVec 4) : Prop :=
  t.status = 0 ∧ t.res = res ∧ t.aux = aux ∧ t.seq = .idle ∧ t.response = some .done

/-- The command ended with `Done(e, unspecified, aux)` (R85, R9). -/
def Failed (t : State) (e : Err) (aux : BitVec 4) : Prop :=
  t.status = e.code ∧ t.aux = aux ∧ t.seq = .idle ∧ t.response = some .done

/-- The events `t` observed after `s`, in order. -/
def Observed (s t : State) (events : List Event) : Prop := t.trace = s.trace ++ events

/-- The four Scale items are unchanged (spec/10 R33). -/
def SameScale (s t : State) : Prop :=
  t.zoff = s.zoff ∧ t.sfac = s.sfac ∧ t.calok = s.calok ∧ t.caldet = s.caldet

/-- Every storage byte reads as before. -/
def SameStorage (s t : State) : Prop := ∀ a, t.nvm.read a = s.nvm.read a

/-- Every storage byte outside the four at `slot` reads as before, and those four hold `bytes`. -/
def StoredAt (s t : State) (slot : Nat) (bytes : List Byte) : Prop :=
  t.nvm.readBytes slot 4 = bytes ∧ ∀ a, a < slot ∨ slot + 4 ≤ a → t.nvm.read a = s.nvm.read a

/-- The configuration is unchanged and the host's moves are still to come. -/
def SameSurround (s t : State) : Prop := t.cfg = s.cfg ∧ t.host = s.host

/-- The frame of a command that only works on the sensor: the Scale items, the storage, the configuration. -/
def OnlySensor (s t : State) : Prop := SameScale s t ∧ SameStorage s t ∧ SameSurround s t

/-- The values the spec gives the engine's registers at reset (spec/10 R31). -/
def AtReset (t : State) : Prop :=
  t.zoff = 0 ∧ t.sfac = 0x3F800000 ∧ t.calok = false ∧ t.caldet = false ∧ t.seq = .idle ∧ t.status = 0 ∧ t.res = 0 ∧
  t.aux = 0

/-- The packets the host still holds (spec/30 R88). -/
def waitingPackets (s : State) : List Packet :=
  s.host.filterMap fun
    | .packet p => some p
    | .reset _ => none

/-- The environment will answer the next events with these outcomes, bytes and delays, in this order. -/
def Feeds (s : State) (statuses : List BusStatus) (reads : List (List Byte)) (delays : List Nat) : Prop :=
  statuses <+: s.writeAns ∧ reads <+: s.readAns ∧ delays <+: s.delays

/-- How a stretch of the engine's work ends that the host's reset comes into once `k` more events have been performed
(spec/70 R230; log 13): after fewer events, with the reset still to come, or cut after exactly `k`, in the reset state
and with no response. -/
def CutAfter (k : Nat) (rest : List HostMove) (s t : State) : Prop :=
  ∃ es, Observed s t es ∧
    (es.length < k ∧ t.host = .reset (k - es.length) :: rest ∨
      es.length = k ∧ t.host = rest ∧ AtReset t ∧ t.response = none)

/-! ### Events of the primitives -/

/-- A read transaction. -/
def Event.isBusRead : Event → Bool
  | .busRead _ _ _ => true
  | .busWrite _ _ _ | .now _ | .idle _ | .nvmGet _ _ | .nvmPut _ _ => false

/-- A register write transaction. -/
def wroteReg (c : Config) (a v : Byte) (st : BusStatus) : Event := .busWrite c.devAddr [a, v] st

/-- A register read that worked: the pointer write and the bytes (spec/20 R53). -/
def readRegEvents (c : Config) (a : Byte) (bytes : List Byte) : List Event :=
  [.busWrite c.devAddr [a] .success, .busRead c.devAddr bytes.length bytes]

/-- How a register read fails (spec/20 R53): the pointer write ends with `st`, or is acknowledged and too few bytes come
back. -/
inductive ReadFailure where
  | pointer (st : BusStatus)
  | short (bytes : List Byte)
deriving DecidableEq, Repr

/-- The outcome of its pointer write. -/
def ReadFailure.statuses : ReadFailure → List BusStatus
  | .pointer st => [st]
  | .short _ => [.success]

/-- The bytes its read answers, if there is one. -/
def ReadFailure.reads : ReadFailure → List (List Byte)
  | .pointer _ => []
  | .short bytes => [bytes]

/-- The events of the failed read of `n` bytes at `a`: nothing is retried (R53). -/
def ReadFailure.events (f : ReadFailure) (c : Config) (a : Byte) (n : Nat) : List Event :=
  match f with
  | .pointer st => [.busWrite c.devAddr [a] st]
  | .short bytes => [.busWrite c.devAddr [a] .success, .busRead c.devAddr n bytes]

/-- A read of `n` bytes that fails so raises `e` (R52, R53). -/
def ReadFailure.Raises (f : ReadFailure) (n : Nat) (e : Err) : Prop :=
  match f with
  | .pointer st => comm st = some e
  | .short bytes => bytes.length < n ∧ e = .noData

/-- A read-modify-write that worked at the first attempt. -/
def rmwEvents (c : Config) (a old new : Byte) : List Event :=
  readRegEvents c a [old] ++ [wroteReg c a new .success]

/-- The outcomes a register write uses of the three it could get: it goes on only after a NACK (spec/20 R54). -/
def attemptsUsed (x y z : BusStatus) : List BusStatus :=
  if isNack x then (if isNack y then [x, y, z] else [x, y]) else [x]

/-- The outcome a register write ends with. -/
def lastAttempt (x y z : BusStatus) : BusStatus :=
  if isNack x then (if isNack y then z else y) else x

/-- A command without a result ends as the outcome `st` says (spec/20 R52, R54). -/
def EndsAs (t : State) (st : BusStatus) : Prop :=
  match comm st with
  | none => Succeeded t 0 0
  | some e => Failed t e 0

/-- The register a command reads before anything else, and how many bytes, for the commands that begin with a register
read. -/
def firstRead (c : Config) : Instr → Option (Byte × Nat)
  | .getreg ra => some (ra, 1)
  | .setbit ra _ => some (ra, 1)
  | .clrbit ra _ => some (ra, 1)
  | .getbit ra _ => some (ra, 1)
  | .avail => some (c.dev.ready.reg, 1)
  | .read => some (c.dev.sample, 3)
  | .setgain _ => some (c.dev.gain.reg, 1)
  | .setldo _ => some (c.dev.ldo.reg, 1)
  | .setrate _ => some (c.dev.rate.reg, 1)
  | .setchan _ => some (c.dev.chan.reg, 1)
  | .setintpol _ => some (c.dev.intpol.reg, 1)
  | .calbegin => some (c.dev.calStart.reg, 1)
  | .calstat => some (c.dev.calActive.reg, 1)
  | .calsync => some (c.dev.calStart.reg, 1)
  | .powerup => some ((c.dev.puSet.headD c.dev.puReady).reg, 1)
  | .setreg _ _ | .getavg _ | .begin _ | .calwait _ | .tare _ _ | .calf _ _ _ | .getw _ _
  | .setzoff _ | .setsfac _ | .storecal | .readcal => none

/-- A command that is one read-modify-write: its register and the byte it writes for the byte read. -/
def oneRmw (c : Config) : Instr → Option (Byte × (Byte → Byte))
  | .setbit ra bit => some (ra, fun b => withBit b bit)
  | .clrbit ra bit => some (ra, fun b => withoutBit b bit)
  | .setgain v => some (c.dev.gain.reg, fun b => mergeField c.dev.gain b (clampField c.dev.gain v))
  | .setldo v => some (c.dev.ldo.reg, fun b => mergeField c.dev.ldo b (clampField c.dev.ldo v))
  | .setrate v => some (c.dev.rate.reg, fun b => mergeField c.dev.rate b (clampField c.dev.rate v))
  | .setchan v => some (c.dev.chan.reg, fun b => mergeField c.dev.chan b (clampField c.dev.chan v))
  | .setintpol v => some (c.dev.intpol.reg, fun b => mergeField c.dev.intpol b (clampField c.dev.intpol v))
  | .calbegin => some (c.dev.calStart.reg, fun b => withBit b c.dev.calStart.bit)
  | .getreg _ | .setreg _ _ | .getbit _ _ | .avail | .read | .getavg _ | .begin _ | .powerup | .calstat
  | .calwait _ | .calsync | .tare _ _ | .calf _ _ _ | .getw _ _ | .setzoff _ | .setsfac _ | .storecal | .readcal =>
    none

/-! ### Scripts of the polling loops -/

/-- One unfinished pass of the averaging loop as the environment answers it (spec/41 R124): the byte polled, the three
bytes read when its ready bit is set, the delay of the pass's clock read. -/
structure AvgPass where
  poll : Byte
  sample : Option (Byte × Byte × Byte)
  delay : Nat
deriving DecidableEq, Repr

/-- The poll says ready exactly where the pass has a sample. -/
def AvgPass.fits (c : Config) (p : AvgPass) : Prop := testBit p.poll c.dev.ready.bit = p.sample.isSome

/-- The bytes of the pass's reads. -/
def AvgPass.reads (p : AvgPass) : List (List Byte) :=
  match p.sample with
  | none => [[p.poll]]
  | some (x, y, z) => [[p.poll], [x, y, z]]

/-- The pass's sample as a list of at most one count. -/
def AvgPass.counts (p : AvgPass) : List Int :=
  match p.sample with
  | none => []
  | some (x, y, z) => [(unpack24 [x, y, z]).toInt]

/-- The bus events of the pass. -/
def AvgPass.busEvents (c : Config) (p : AvgPass) : List Event :=
  readRegEvents c c.dev.ready.reg [p.poll] ++
  match p.sample with
  | none => []
  | some (x, y, z) => readRegEvents c c.dev.sample [x, y, z]

/-- The samples of all passes, in order. -/
def passCounts (ps : List AvgPass) : List Int := ps.flatMap AvgPass.counts

/-- The reads of all passes, in order. -/
def passReads (ps : List AvgPass) : List (List Byte) := ps.flatMap AvgPass.reads

/-- The events of unfinished passes from clock value `clk` on: the bus, the clock read, the idle wait (R124). -/
def passEvents (c : Config) : Nat → List AvgPass → List Event
  | _, [] => []
  | clk, p :: ps =>
    p.busEvents c ++ [.now (clk + p.delay), .idle c.tIdle] ++ passEvents c (clk + p.delay + c.tIdle) ps

/-- The clock after unfinished passes from clock value `clk` on. -/
def passClock (c : Config) : Nat → List AvgPass → Nat
  | clk, [] => clk
  | clk, p :: ps => passClock c (clk + p.delay + c.tIdle) ps

/-- Every clock read of the passes is within `limit` ticks of `t0` (R124: the comparison is strict). -/
def passesInTime (c : Config) (t0 limit : Nat) : Nat → List AvgPass → Prop
  | _, [] => True
  | clk, p :: ps => clk + p.delay ≤ t0 + limit ∧ passesInTime c t0 limit (clk + p.delay + c.tIdle) ps

/-- The environment's answers to an averaging that completes (R124): the first clock read's delay, the unfinished
passes, and the poll and the three bytes of the pass that completes it. -/
structure AvgRun where
  start : Nat
  passes : List AvgPass
  poll : Byte
  last : Byte × Byte × Byte
deriving DecidableEq, Repr

/-- The three bytes of the last sample. -/
def AvgRun.lastBytes (r : AvgRun) : List Byte := [r.last.1, r.last.2.1, r.last.2.2]

/-- The bytes the reads of the averaging answer. -/
def AvgRun.reads (r : AvgRun) : List (List Byte) := passReads r.passes ++ [[r.poll], r.lastBytes]

/-- The clock delays of the averaging. -/
def AvgRun.delays (r : AvgRun) : List Nat := r.start :: r.passes.map AvgPass.delay

/-- The samples, in order. -/
def AvgRun.samples (r : AvgRun) : List Int := passCounts r.passes ++ [(unpack24 r.lastBytes).toInt]

/-- The exact sum of the samples, divided by the count and truncated toward zero (R124, R125). -/
def AvgRun.mean (r : AvgRun) (count : BitVec 16) : Word := BitVec.ofInt 32 (r.samples.sum.tdiv count.toNat)

/-- The events of the averaging when it begins at clock value `clk`. -/
def AvgRun.events (r : AvgRun) (c : Config) (clk : Nat) : List Event :=
  [.now (clk + r.start)] ++ passEvents c (clk + r.start) r.passes ++ readRegEvents c c.dev.ready.reg [r.poll] ++
  readRegEvents c c.dev.sample r.lastBytes

/-- The environment answers the averaging of `count` samples that begins in `s` as `r` says: every pointer write is
acknowledged, a pass has a sample exactly where its poll shows the ready bit, the last sample is the `count`-th, and no
pass before it reads the clock past the deadline. -/
def AvgRun.Answers (r : AvgRun) (count : BitVec 16) (s : State) : Prop :=
  Feeds s (List.replicate r.reads.length .success) r.reads r.delays ∧
  (∀ p ∈ r.passes, p.fits s.cfg) ∧ testBit r.poll s.cfg.dev.ready.bit = true ∧
  r.samples.length = count.toNat ∧
  passesInTime s.cfg (s.clock + r.start) (deadline count) (s.clock + r.start) r.passes

/-- The environment's answers to an averaging that runs out of time: unfinished passes, and one more, `late`, whose
clock read is past the deadline (R124). -/
structure AvgTimeout where
  start : Nat
  passes : List AvgPass
  late : AvgPass
deriving DecidableEq, Repr

/-- The bytes the reads answer. -/
def AvgTimeout.reads (r : AvgTimeout) : List (List Byte) := passReads r.passes ++ r.late.reads

/-- The clock delays. -/
def AvgTimeout.delays (r : AvgTimeout) : List Nat := r.start :: r.passes.map AvgPass.delay ++ [r.late.delay]

/-- The clock value the late pass reads when the averaging begins at clock value `clk`. -/
def AvgTimeout.lateTime (r : AvgTimeout) (c : Config) (clk : Nat) : Nat :=
  passClock c (clk + r.start) r.passes + r.late.delay

/-- The events of the averaging when it begins at clock value `clk`: no idle wait follows the late clock read. -/
def AvgTimeout.events (r : AvgTimeout) (c : Config) (clk : Nat) : List Event :=
  [.now (clk + r.start)] ++ passEvents c (clk + r.start) r.passes ++ r.late.busEvents c ++ [.now (r.lateTime c clk)]

/-- The environment answers the averaging of `count` samples that begins in `s` as `r` says: fewer than `count` samples,
and the late pass reads the clock more than `count * AVG_TICKS` ticks after the first clock read. -/
def AvgTimeout.Answers (r : AvgTimeout) (count : BitVec 16) (s : State) : Prop :=
  Feeds s (List.replicate r.reads.length .success) r.reads r.delays ∧
  (∀ p ∈ r.passes, p.fits s.cfg) ∧ r.late.fits s.cfg ∧
  (passCounts r.passes).length + r.late.counts.length < count.toNat ∧
  passesInTime s.cfg (s.clock + r.start) (deadline count) (s.clock + r.start) r.passes ∧
  s.clock + r.start + deadline count < r.lateTime s.cfg s.clock

/-- The environment's answers to an averaging that a register read ends (R124, exit 1): unfinished passes, then a poll
that fails, or, where `poll` holds the byte of a poll that says ready, the read of its sample that fails. -/
structure AvgFailure where
  start : Nat
  passes : List AvgPass
  poll : Option Byte
  failure : ReadFailure
deriving DecidableEq, Repr

/-- The bytes of the reads that work. -/
def AvgFailure.worked (r : AvgFailure) : List (List Byte) := passReads r.passes ++ r.poll.toList.map fun b => [b]

/-- The outcomes of its pointer writes. -/
def AvgFailure.statuses (r : AvgFailure) : List BusStatus :=
  List.replicate r.worked.length .success ++ r.failure.statuses

/-- The bytes its reads answer. -/
def AvgFailure.reads (r : AvgFailure) : List (List Byte) := r.worked ++ r.failure.reads

/-- The clock delays: the failing pass reads no clock. -/
def AvgFailure.delays (r : AvgFailure) : List Nat := r.start :: r.passes.map AvgPass.delay

/-- The events of the failing pass. -/
def AvgFailure.lastEvents (r : AvgFailure) (c : Config) : List Event :=
  match r.poll with
  | none => r.failure.events c c.dev.ready.reg 1
  | some b => readRegEvents c c.dev.ready.reg [b] ++ r.failure.events c c.dev.sample 3

/-- The events of the averaging when it begins at clock value `clk`: none follows the failed read. -/
def AvgFailure.events (r : AvgFailure) (c : Config) (clk : Nat) : List Event :=
  [.now (clk + r.start)] ++ passEvents c (clk + r.start) r.passes ++ r.lastEvents c

/-- The environment answers the averaging of `count` samples that begins in `s` as `r` says: fewer than `count` samples,
no clock read past the deadline, and a read that fails with `e`. -/
def AvgFailure.Answers (r : AvgFailure) (count : BitVec 16) (e : Err) (s : State) : Prop :=
  Feeds s r.statuses r.reads r.delays ∧ (∀ p ∈ r.passes, p.fits s.cfg) ∧
  (∀ b ∈ r.poll, testBit b s.cfg.dev.ready.bit = true) ∧ (passCounts r.passes).length < count.toNat ∧
  passesInTime s.cfg (s.clock + r.start) (deadline count) (s.clock + r.start) r.passes ∧
  r.failure.Raises (if r.poll.isSome then 3 else 1) e

/-- One in-progress pass of the AFE wait (spec/42 R150): the byte polled and the delay of the pass's clock read. -/
structure CalPass where
  poll : Byte
  delay : Nat
deriving DecidableEq, Repr

/-- The events of in-progress passes from clock value `clk` on; the clock is read only with a timeout (R150). -/
def calEvents (c : Config) (timed : Bool) : Nat → List CalPass → List Event
  | _, [] => []
  | clk, p :: ps =>
    readRegEvents c c.dev.calActive.reg [p.poll] ++
    (if timed then [.now (clk + p.delay), .idle c.tIdle] ++ calEvents c timed (clk + p.delay + c.tIdle) ps
     else [.idle c.tIdle] ++ calEvents c timed (clk + c.tIdle) ps)

/-- The clock after in-progress passes of a wait with a timeout. -/
def calClock (c : Config) : Nat → List CalPass → Nat
  | clk, [] => clk
  | clk, p :: ps => calClock c (clk + p.delay + c.tIdle) ps

/-- Every clock read of the passes is within `timeout` ticks of `t0` (R150: the comparison is strict). -/
def calInTime (c : Config) (t0 timeout : Nat) : Nat → List CalPass → Prop
  | _, [] => True
  | clk, p :: ps => clk + p.delay ≤ t0 + timeout ∧ calInTime c t0 timeout (clk + p.delay + c.tIdle) ps

/-- The environment's answers to an AFE wait that ends (R150): the first clock read's delay, the in-progress passes, and
the two bytes of the status read that left in-progress. -/
structure CalRun where
  start : Nat
  passes : List CalPass
  active : Byte
  error : Byte
deriving DecidableEq, Repr

/-- The outcomes of the wait's pointer writes. -/
def CalRun.statuses (r : CalRun) : List BusStatus := List.replicate (r.passes.length + 2) .success

/-- The bytes the reads of the wait answer. -/
def CalRun.reads (r : CalRun) : List (List Byte) := r.passes.map (fun p => [p.poll]) ++ [[r.active], [r.error]]

/-- The clock delays of the wait: with no timeout the clock is read once (R150). -/
def CalRun.delays (r : CalRun) (timed : Bool) : List Nat :=
  r.start :: if timed then r.passes.map CalPass.delay else []

/-- The events of the wait when it begins at clock value `clk`. -/
def CalRun.events (r : CalRun) (c : Config) (timed : Bool) (clk : Nat) : List Event :=
  [.now (clk + r.start)] ++ calEvents c timed (clk + r.start) r.passes ++
  readRegEvents c c.dev.calActive.reg [r.active] ++ readRegEvents c c.dev.calError.reg [r.error]

/-- Every pass shows the active bit, the last status does not, and with a timeout no pass reads the clock past it. -/
def CalRun.Lawful (r : CalRun) (c : Config) (timeout clk : Nat) : Prop :=
  (∀ p ∈ r.passes, testBit p.poll c.dev.calActive.bit = true) ∧ testBit r.active c.dev.calActive.bit = false ∧
  (timeout ≠ 0 → calInTime c (clk + r.start) timeout (clk + r.start) r.passes)

/-- The last status is failure: the error bit reads 1 (R149). -/
def CalRun.failed (r : CalRun) (c : Config) : Bool := testBit r.error c.dev.calError.bit

/-- The environment's answers to an AFE wait that runs out of time: in-progress passes, and one more whose clock read is
past the timeout (R150). -/
structure CalTimeout where
  start : Nat
  passes : List CalPass
  late : CalPass
deriving DecidableEq, Repr

/-- The clock value the late pass reads when the wait begins at clock value `clk`. -/
def CalTimeout.lateTime (r : CalTimeout) (c : Config) (clk : Nat) : Nat :=
  calClock c (clk + r.start) r.passes + r.late.delay

/-- The events of the wait when it begins at clock value `clk`. -/
def CalTimeout.events (r : CalTimeout) (c : Config) (clk : Nat) : List Event :=
  [.now (clk + r.start)] ++ calEvents c true (clk + r.start) r.passes ++
  readRegEvents c c.dev.calActive.reg [r.late.poll] ++ [.now (r.lateTime c clk)]

/-- The outcomes of the wait's pointer writes. -/
def CalTimeout.statuses (r : CalTimeout) : List BusStatus := List.replicate (r.passes.length + 1) .success

/-- The bytes the reads of the wait answer. -/
def CalTimeout.reads (r : CalTimeout) : List (List Byte) := r.passes.map (fun p => [p.poll]) ++ [[r.late.poll]]

/-- The clock delays of the wait. -/
def CalTimeout.delays (r : CalTimeout) : List Nat := r.start :: (r.passes.map CalPass.delay ++ [r.late.delay])

/-- Every pass shows the active bit, and the late one is the first that reads the clock past the timeout. -/
def CalTimeout.Lawful (r : CalTimeout) (c : Config) (timeout clk : Nat) : Prop :=
  (∀ p ∈ r.passes, testBit p.poll c.dev.calActive.bit = true) ∧ testBit r.late.poll c.dev.calActive.bit = true ∧
  calInTime c (clk + r.start) timeout (clk + r.start) r.passes ∧ clk + r.start + timeout < r.lateTime c clk

/-- The environment's answers to an AFE wait that a status read ends (R149, R150): in-progress passes, then a read of
the active bit that fails, or, where `active` holds the byte of one that shows it clear, a read of the error bit that
fails. -/
structure CalFailure where
  start : Nat
  passes : List CalPass
  active : Option Byte
  failure : ReadFailure
deriving DecidableEq, Repr

/-- The bytes of the reads that work. -/
def CalFailure.worked (r : CalFailure) : List (List Byte) :=
  r.passes.map (fun p => [p.poll]) ++ r.active.toList.map fun b => [b]

/-- The outcomes of the wait's pointer writes. -/
def CalFailure.statuses (r : CalFailure) : List BusStatus :=
  List.replicate r.worked.length .success ++ r.failure.statuses

/-- The bytes the reads of the wait answer. -/
def CalFailure.reads (r : CalFailure) : List (List Byte) := r.worked ++ r.failure.reads

/-- The clock delays of the wait: with no timeout the clock is read once, and the failing pass reads none. -/
def CalFailure.delays (r : CalFailure) (timed : Bool) : List Nat :=
  r.start :: if timed then r.passes.map CalPass.delay else []

/-- The events of the failing status read. -/
def CalFailure.lastEvents (r : CalFailure) (c : Config) : List Event :=
  match r.active with
  | none => r.failure.events c c.dev.calActive.reg 1
  | some b => readRegEvents c c.dev.calActive.reg [b] ++ r.failure.events c c.dev.calError.reg 1

/-- The events of the wait when it begins at clock value `clk`: none follows the failed read. -/
def CalFailure.events (r : CalFailure) (c : Config) (timed : Bool) (clk : Nat) : List Event :=
  [.now (clk + r.start)] ++ calEvents c timed (clk + r.start) r.passes ++ r.lastEvents c

/-- Every pass shows the active bit, with a timeout none reads the clock past it, and the read that fails raises `e`. -/
def CalFailure.Lawful (r : CalFailure) (c : Config) (timeout clk : Nat) (e : Err) : Prop :=
  (∀ p ∈ r.passes, testBit p.poll c.dev.calActive.bit = true) ∧
  (∀ b ∈ r.active, testBit b c.dev.calActive.bit = false) ∧
  (timeout ≠ 0 → calInTime c (clk + r.start) timeout (clk + r.start) r.passes) ∧ r.failure.Raises 1 e

/-- The events of `for X in PU_SET: SetBit(X)` when the registers read as `olds` (spec/42 R147). -/
def setBitsEvents (c : Config) : List BitRef → List Byte → List Event
  | x :: xs, b :: bs => rmwEvents c x.reg b (withBit b x.bit) ++ setBitsEvents c xs bs
  | _, _ => []

/-- The events of polls of `PU_READY` that read 0, each followed by an idle wait (R147). -/
def unreadyPolls (c : Config) (polls : List Byte) : List Event :=
  polls.flatMap fun b => readRegEvents c c.dev.puReady.reg [b] ++ [.idle c.tIdle]

/-- The environment's answers to the power-up sequence that confirms (R147): the bytes of the `PU_SET` registers, the
polls that read 0, and the poll that reads 1. -/
structure PowerRun where
  olds : List Byte
  unready : List Byte
  ready : Byte
deriving DecidableEq, Repr

/-- The outcomes of its writes: per `SetBit` a pointer write and the write, per poll a pointer write. -/
def PowerRun.statuses (r : PowerRun) : List BusStatus :=
  List.replicate (2 * r.olds.length + r.unready.length + 1) .success

/-- The bytes its reads answer. -/
def PowerRun.reads (r : PowerRun) : List (List Byte) :=
  r.olds.map (fun b => [b]) ++ r.unready.map (fun b => [b]) ++ [[r.ready]]

/-- Its events. -/
def PowerRun.events (r : PowerRun) (c : Config) : List Event :=
  setBitsEvents c c.dev.puSet r.olds ++ unreadyPolls c r.unready ++ readRegEvents c c.dev.puReady.reg [r.ready]

/-- One byte for each bit of `PU_SET`, and the bit `PU_READY` read 1 after fewer than `PU_MAX_POLLS` polls read 0. -/
def PowerRun.Lawful (r : PowerRun) (c : Config) : Prop :=
  r.olds.length = c.dev.puSet.length ∧ r.unready.length < c.puMaxPolls ∧
  (∀ b ∈ r.unready, testBit b c.dev.puReady.bit = false) ∧ testBit r.ready c.dev.puReady.bit = true

/-- The environment's answers to a BEGIN with initialisation that succeeds (spec/42 R152): the bytes of the registers
its read-modify-writes read, in order, and the answers of its two loops. -/
structure InitRun where
  rst : Byte × Byte
  power : PowerRun
  ldo : Byte
  gain : Byte
  rate : Byte
  cap : Byte
  calStart : Byte
  cal : CalRun
deriving DecidableEq, Repr

/-- The outcomes of its writes: the probe, 4 of the soft reset, the power-up, 2 for each field, the chopper register,
2 for the capacitor bit, 2 for the calibration start, the wait. -/
def InitRun.statuses (r : InitRun) : List BusStatus :=
  List.replicate 5 .success ++ r.power.statuses ++ List.replicate 11 .success ++ r.cal.statuses

/-- The bytes its reads answer. -/
def InitRun.reads (r : InitRun) : List (List Byte) :=
  [[r.rst.1], [r.rst.2]] ++ r.power.reads ++ [[r.ldo], [r.gain], [r.rate], [r.cap], [r.calStart]] ++ r.cal.reads

/-- The clock value at which its AFE wait begins: one idle wait of the soft reset, one after each unready poll. -/
def InitRun.waitClock (r : InitRun) (c : Config) (clk : Nat) : Nat := clk + c.tIdle + r.power.unready.length * c.tIdle

/-- Its events, stage by stage (R152, R146). -/
def InitRun.events (r : InitRun) (c : Config) (clk : Nat) : List Event :=
  [.busWrite c.devAddr [] .success] ++
  rmwEvents c c.dev.rst.reg r.rst.1 (withBit r.rst.1 c.dev.rst.bit) ++ [.idle c.tIdle] ++
  rmwEvents c c.dev.rst.reg r.rst.2 (withoutBit r.rst.2 c.dev.rst.bit) ++
  r.power.events c ++
  rmwEvents c c.dev.ldo.reg r.ldo (mergeField c.dev.ldo r.ldo (clampField c.dev.ldo c.initLdo)) ++
  rmwEvents c c.dev.gain.reg r.gain (mergeField c.dev.gain r.gain (fmax c.dev.gain)) ++
  rmwEvents c c.dev.rate.reg r.rate (mergeField c.dev.rate r.rate (clampField c.dev.rate c.initRate)) ++
  [wroteReg c c.dev.chop c.chopVal .success] ++
  rmwEvents c c.dev.capEn.reg r.cap (withBit r.cap c.dev.capEn.bit) ++
  rmwEvents c c.dev.calStart.reg r.calStart (withBit r.calStart c.dev.calStart.bit) ++
  r.cal.events c true (r.waitClock c clk)

/-- The stages of BEGIN after the presence probe, in order (R152). -/
def beginStages (c : Config) : List (Cmd Unit) :=
  [softReset, powerUp, setField c.dev.ldo c.initLdo, setField c.dev.gain (fmax c.dev.gain),
    setField c.dev.rate c.initRate, memWriteDev c.dev.chop c.chopVal, setBit c.dev.capEn, calSync]

/-- The stages of the list one after the other, `AUX` counting them from `n` on (R152). -/
def runStages : Nat → List (Cmd Unit) → Cmd Unit
  | _, [] => .pure ()
  | n, c :: cs => (setStage (BitVec.ofNat 4 n)).next <| c.next (runStages (n + 1) cs)

/-! ### Rules over all commands -/

/-- Which errors a command can raise (spec/60 R203). -/
def errorsOf : Instr → List Err
  | .getreg _ | .getbit _ _ | .avail | .read | .setbit _ _ | .clrbit _ _ | .setgain _ | .setldo _ | .setrate _
  | .setchan _ | .setintpol _ | .calbegin | .calstat => [.dataTooLarge, .addrNack, .dataNack, .io, .noData]
  | .setreg _ _ | .begin false => [.dataTooLarge, .addrNack, .dataNack, .io]
  | .getavg _ | .tare _ _ | .calf _ _ _ => [.dataTooLarge, .addrNack, .dataNack, .io, .noData, .timeout]
  | .powerup => [.dataTooLarge, .addrNack, .dataNack, .io, .noData, .powerup]
  | .calwait _ | .calsync => [.dataTooLarge, .addrNack, .dataNack, .io, .noData, .calFail, .calTimeout]
  | .begin true => [.dataTooLarge, .addrNack, .dataNack, .io, .noData, .powerup, .calFail, .calTimeout]
  | .getw _ _ => [.dataTooLarge, .addrNack, .dataNack, .io, .noData, .timeout, .notCalibrated]
  | .readcal => [.readFactor, .readOffset]
  | .setzoff _ | .setsfac _ | .storecal => []

/-- Whether a command may write `ZOFF`, `SFAC`, `CALOK`, `CALDET`, in this order (spec/10 R33). -/
def writesScale : Instr → Bool × Bool × Bool × Bool
  | .tare _ _ => (true, false, true, false)
  | .calf _ _ _ => (false, true, true, false)
  | .setzoff _ => (true, false, false, false)
  | .setsfac _ => (false, true, false, false)
  | .readcal => (true, true, true, true)
  | .getreg _ | .setreg _ _ | .setbit _ _ | .clrbit _ _ | .getbit _ _ | .avail | .read | .getavg _ | .begin _
  | .powerup | .setgain _ | .setldo _ | .setrate _ | .setchan _ | .setintpol _ | .calbegin | .calstat | .calwait _
  | .calsync | .getw _ _ | .storecal => (false, false, false, false)

/-- Whether a command may write the storage: TARE and CALF with `persist`, STORECAL, READCAL (spec/20 R50). -/
def writesStorage : Instr → Bool
  | .tare _ persist | .calf _ _ persist => persist
  | .storecal | .readcal => true
  | .getreg _ | .setreg _ _ | .setbit _ _ | .clrbit _ _ | .getbit _ _ | .avail | .read | .getavg _ | .begin _
  | .powerup | .setgain _ | .setldo _ | .setrate _ | .setchan _ | .setintpol _ | .calbegin | .calstat | .calwait _
  | .calsync | .getw _ _ | .setzoff _ | .setsfac _ => false

/-- The shapes of external events the engine uses: `BusWrite` of 0, 1 or 2 bytes, `BusRead` of 1 or 3, both at
`DEVADDR` (spec/20 R51, spec/10 R24), storage accesses of 4 bytes at the two slots (R57). -/
def eventShape (c : Config) : Event → Bool
  | .busWrite addr bytes _ => addr == c.devAddr && decide (bytes.length ≤ 2)
  | .busRead addr n ans => addr == c.devAddr && (n == 1 || n == 3) && decide (ans.length ≤ n)
  | .now _ => true
  | .idle d => d == c.tIdle
  | .nvmGet a ans => (a == c.slotOff || a == c.slotFac) && ans.length == 4
  | .nvmPut a bytes => (a == c.slotOff || a == c.slotFac) && bytes.length == 4

/-- The least clock value after the events, from `c` on; `none` if a `Now` answered less than the laws of spec/00 R10
E1 and E2 allow. -/
def clockAfter : Nat → List Event → Option Nat
  | c, [] => some c
  | c, .now t :: es => if c ≤ t then clockAfter t es else none
  | c, .idle d :: es => clockAfter (c + d) es
  | c, .busWrite _ _ _ :: es => clockAfter c es
  | c, .busRead _ _ _ :: es => clockAfter c es
  | c, .nvmGet _ _ :: es => clockAfter c es
  | c, .nvmPut _ _ :: es => clockAfter c es

/-- The storage after the events, from `m` on; `none` if a `NvmGet` answered other bytes than the latest put there
(spec/00 R10 E3). -/
def storageAfter : Memory → List Event → Option Memory
  | m, [] => some m
  | m, .nvmPut a bytes :: es => storageAfter (m.writeBytes a bytes) es
  | m, .nvmGet a ans :: es => if ans = m.readBytes a 4 then storageAfter m es else none
  | m, .busWrite _ _ _ :: es => storageAfter m es
  | m, .busRead _ _ _ :: es => storageAfter m es
  | m, .now _ :: es => storageAfter m es
  | m, .idle _ :: es => storageAfter m es

/-! ### Rounding -/

/-- `w` is a finite binary32 value whose magnitude is nearest `num / den` units of 2^-149 among the finite ones, and the
even one of two at the same distance (spec/00 R12, spec/43 R170). -/
def RoundsTo (num den : Nat) (w : F32) : Prop :=
  F32.absPattern w < F32.infPattern ∧
  ∀ v : F32, F32.absPattern v < F32.infPattern →
    ((F32.magnitude w * den : Int) - num).natAbs ≤ ((F32.magnitude v * den : Int) - num).natAbs ∧
    (((F32.magnitude w * den : Int) - num).natAbs = ((F32.magnitude v * den : Int) - num).natAbs →
      F32.magnitude v ≠ F32.magnitude w → w.getLsbD 0 = false)

/-! ### The invariant -/

/-- `STATUS` is 0 or one error code (spec/60 R200, R201). -/
def StatusLegal (s : State) : Prop := s.status = 0 ∨ ∃ e : Err, s.status = e.code

/-- The clock has not gone back over what has been observed (spec/00 R10 E1, E2). -/
def ClockLawful (s : State) : Prop := ∃ c, clockAfter 0 s.trace = some c ∧ c ≤ s.clock

/-- What every step keeps: the storage's canonical form, a legal `STATUS`, a stage number in `AUX` (spec/42 R152), the
laws of the clock. -/
def Inv (s : State) : Prop := s.nvm.wf = true ∧ StatusLegal s ∧ s.aux ≤ 8 ∧ ClockLawful s

end Sys2Proof.Machine
end

