-- ==== Sys2Proof/Certificates/Slice0/Obligations.lean ====
section
/-! DEFINITION. The statements for the provers. Each docstring names the rules of spec/ it comes from; the terms are
those of Sys2Proof/Safety.lean. "The model's choice" marks a clause that rests on a log entry and not on a rule. -/

section

open Sys2Proof Sys2Proof.Machine

/-! ### Reset and sequencing -/

/-- R31, R230: what reset leaves, from every state; `State.reset` has the same values. The working registers are
unspecified and not named. The model's choices: that reset leaves the clock (log 4), and that an IDLE engine takes the
host's reset in one step, whatever its count of events (log 13). -/
def Obligations.ResetGivesTheResetState : Prop :=
  AtReset State.reset ∧
  (∀ s : State, AtReset s.assertReset ∧ s.assertReset.cfg = s.cfg ∧ s.assertReset.nvm = s.nvm ∧
    s.assertReset.clock = s.clock ∧ s.assertReset.trace = s.trace) ∧
  ∀ (s : State) (n : Nat) (rest : List HostMove), s.seq = .idle → s.host = .reset n :: rest →
    step s = .next s.assertReset

/-- R230: a reset that the host asserts once `k` more events have been performed cuts a command that has not ended after
fewer, also after its last event and before its response or its fault, and within a command without events. The same of a
wait that goes on in a BUSY engine. That the host's reset is counted in events is the model's choice (log 13). -/
def Obligations.ResetCutsACommand : Prop :=
  ∀ (s : State) (k : Nat) (rest : List HostMove), s.host = .reset k :: rest →
    (∀ (i : Instr) (t : State), exec i s = .next t → CutAfter k rest s t) ∧
    (∀ (i : Instr) (u : State), exec i s = .fault (.zeroScaleFactor u) ∨ exec i s = .fault (.differenceOutsideS32 u) →
      ∃ es, Observed s u es ∧ es.length < k) ∧
    ∀ t : State, s.seq = .busy → step s = .next t → CutAfter k rest s t

/-- R27, R80, R84: a packet presented while IDLE that decodes to a command runs that command, with the packet taken; a
packet that does not decode gets `Reject`; with nothing presented the engine stays as it is (the model's choice, log 20). -/
def Obligations.StepRunsTheDecodedCommand : Prop :=
  (∀ (s : State) (p : Packet) (rest : List HostMove) (i : Instr), s.seq = .idle → s.host = .packet p :: rest →
    decode p = .instr i → step s = exec i { s with host := rest }) ∧
  (∀ (s : State) (p : Packet) (rest : List HostMove) (why : Reserved), s.seq = .idle → s.host = .packet p :: rest →
    decode p = .invalid why → step s = .next { s with host := rest, response := some .reject }) ∧
  ∀ s : State, s.seq = .idle → s.host = [] → step s = .next s

/-- R84: a packet that selects no row of the opcode map is answered `Reject`: the engine stays IDLE, performs no event
and writes no register. -/
def Obligations.ReservedPacketIsRejected : Prop :=
  ∀ (s : State) (p : Packet) (rest : List HostMove), s.seq = .idle → s.host = .packet p :: rest →
    (∀ r ∈ opcodeMap, r.selectedBy p = false) →
    step s = .next { s with host := rest, response := some .reject }

/-- R88: while BUSY no packet is taken: those the host holds are the same after the step. -/
def Obligations.PacketIsHeldWhileBusy : Prop :=
  ∀ s t : State, s.seq = .busy → step s = .next t → waitingPackets t = waitingPackets s

/-- R32: while IDLE the host reads the seven items, with no command and no event. That a narrower item is zero-extended
to 32 bits is the model's choice (log 25). -/
def Obligations.ReadPortShowsTheRegisters : Prop :=
  ∀ s : State, s.seq = .idle →
    s.readPort .zoff = some s.zoff ∧ s.readPort .sfac = some s.sfac ∧ s.readPort .calok = some (boolWord s.calok) ∧
    s.readPort .caldet = some (boolWord s.caldet) ∧ s.readPort .status = some (s.status.setWidth 32) ∧
    s.readPort .res = some s.res ∧ s.readPort .aux = some (s.aux.setWidth 32)

/-! ### Encoding -/

/-- R81 to R84, R86: decoding the packet of a well-formed command gives it back, every operand at every value. -/
def Obligations.DecodeOfEncode : Prop :=
  ∀ i : Instr, i.wellFormed = true → decode (encode i) = .instr i

/-- R80, R81: a packet that decodes to a command has that command's `CMD` word and a well-formed command, and its `ARG`
too when its opcode is one of the four that use it; else any other `ARG` decodes the same. -/
def Obligations.EncodeOfDecode : Prop :=
  (∀ (p : Packet) (i : Instr), decode p = .instr i →
    i.wellFormed = true ∧ (encode i).cmd = p.cmd ∧
    (p.op ∈ [0x29#8, 0x31#8, 0x33#8, 0x34#8] → (encode i).arg = p.arg)) ∧
  ∀ p q : Packet, p.cmd = q.cmd → p.op ∉ [0x29#8, 0x31#8, 0x33#8, 0x34#8] → decode p = decode q

/-- R83: a packet decodes to a command with the mnemonic of the row it selects, a packet that decodes selects a row, and
no two rows match one packet. -/
def Obligations.OpcodeMapIsTheDecoder : Prop :=
  (∀ (p : Packet) (r : OpcodeRow), r ∈ opcodeMap → r.selectedBy p = true →
    ∃ i, decode p = .instr i ∧ i.mnemonic = r.mnemonic) ∧
  (∀ (p : Packet) (i : Instr), decode p = .instr i →
    ∃ r ∈ opcodeMap, r.selectedBy p = true ∧ r.mnemonic = i.mnemonic) ∧
  ∀ (p : Packet) (r r' : OpcodeRow), r ∈ opcodeMap → r' ∈ opcodeMap → r.selectedBy p = true →
    r'.selectedBy p = true → r = r'

/-- R83, R86: words written out from the opcode map decode to their commands, one or more per family. -/
def Obligations.SampleWordsDecode : Prop :=
  decode ⟨0x02A50030, 0⟩ = .instr (.setreg 0xA5 0x30) ∧
  decode ⟨0x03020002, 0⟩ = .instr (.setbit 0x02 2) ∧
  decode ⟨0x12000002, 0⟩ = .instr (.getavg 2) ∧
  decode ⟨0x20010000, 0⟩ = .instr (.begin true) ∧
  decode ⟨0x220000C8, 0⟩ = .instr (.setgain 200) ∧
  decode ⟨0x29000000, 1000⟩ = .instr (.calwait 1000) ∧
  decode ⟨0x31010002, 0x42C80000⟩ = .instr (.calf 2 0x42C80000 true) ∧
  decode ⟨0x33000000, 0xFFFFFFFB⟩ = .instr (.setzoff 0xFFFFFFFB) ∧
  decode ⟨0x12010002, 0⟩ = .invalid .fieldNotZero ∧
  decode ⟨0x32000000, 0⟩ = .invalid .zeroCount ∧
  decode ⟨0x37000000, 0⟩ = .invalid .unassignedOpcode

/-! ### Register access -/

/-- R100, R104, R121, R53: GETREG, GETBIT and AVAIL complete with the byte, or the bit, that the register reads as, after
one pointer write and one read of one byte. -/
def Obligations.RegisterReadsComplete : Prop :=
  ∀ (s : State) (b : Byte), s.quiet = true → Feeds s [.success] [[b]] [] →
    (∀ ra : Byte, ∃ t, exec (.getreg ra) s = .next t ∧ Succeeded t (b.setWidth 32) 0 ∧
      Observed s t (readRegEvents s.cfg ra [b]) ∧ OnlySensor s t) ∧
    (∀ (ra : Byte) (bit : BitVec 3), ∃ t, exec (.getbit ra bit) s = .next t ∧
      Succeeded t (if b.getLsbD bit.toNat then 1 else 0) 0 ∧
      Observed s t (readRegEvents s.cfg ra [b]) ∧ OnlySensor s t) ∧
    ∃ t, exec .avail s = .next t ∧ Succeeded t (if b.getLsbD s.cfg.dev.ready.bit.toNat then 1 else 0) 0 ∧
      Observed s t (readRegEvents s.cfg s.cfg.dev.ready.reg [b]) ∧ OnlySensor s t

/-- R53, R206 (4): a command that begins with a register read ends at once with the pointer write's error, or with
`E_NO_DATA` when too few bytes come back; nothing is retried and nothing is written. -/
def Obligations.FailedReadEndsTheCommand : Prop :=
  ∀ (i : Instr) (s : State) (a : Byte) (n : Nat), firstRead s.cfg i = some (a, n) → s.quiet = true →
    (∀ (st : BusStatus) (e : Err), comm st = some e → Feeds s [st] [] [] →
      ∃ t, exec i s = .next t ∧ Failed t e 0 ∧ Observed s t [.busWrite s.cfg.devAddr [a] st] ∧ OnlySensor s t) ∧
    ∀ bs : List Byte, bs.length < n → Feeds s [.success] [bs] [] →
      ∃ t, exec i s = .next t ∧ Failed t .noData 0 ∧
        Observed s t [.busWrite s.cfg.devAddr [a] .success, .busRead s.cfg.devAddr n bs] ∧ OnlySensor s t

/-- R101, R54: SETREG writes the byte, up to three times while a NACK answers, and completes when the last attempt is
acknowledged. -/
def Obligations.SetregCompletes : Prop :=
  ∀ (s : State) (ra val : Byte) (x y z : BusStatus), s.quiet = true → lastAttempt x y z = .success →
    Feeds s (attemptsUsed x y z) [] [] →
    ∃ t, exec (.setreg ra val) s = .next t ∧ Succeeded t 0 0 ∧
      Observed s t ((attemptsUsed x y z).map (wroteReg s.cfg ra val)) ∧ OnlySensor s t

/-- R102, R103, R140 to R145, R148, R54: SETBIT, CLRBIT, SETGAIN, SETLDO, SETRATE, SETCHAN, SETINTPOL and CALBEGIN read
the register once, write it with the changed byte, up to three times while a NACK answers, and complete when the last
attempt is acknowledged. `oneRmw` gives the register and the byte. -/
def Obligations.ReadModifyWritesComplete : Prop :=
  ∀ (i : Instr) (s : State) (a : Byte) (f : Byte → Byte) (b : Byte) (x y z : BusStatus),
    oneRmw s.cfg i = some (a, f) → s.quiet = true → lastAttempt x y z = .success →
    Feeds s (.success :: attemptsUsed x y z) [[b]] [] →
    ∃ t, exec i s = .next t ∧ Succeeded t 0 0 ∧
      Observed s t (readRegEvents s.cfg a [b] ++ (attemptsUsed x y z).map (wroteReg s.cfg a (f b))) ∧ OnlySensor s t

/-- R54, R101, R151, R206 (8): SETREG, the same commands, and CALSYNC in its calibration start, end with the error of the
last attempt, the third after three NACKs and the first outcome that is no NACK. -/
def Obligations.FailedWriteEndsTheCommand : Prop :=
  (∀ (s : State) (ra val : Byte) (x y z : BusStatus) (e : Err), s.quiet = true → comm (lastAttempt x y z) = some e →
    Feeds s (attemptsUsed x y z) [] [] →
    ∃ t, exec (.setreg ra val) s = .next t ∧ Failed t e 0 ∧
      Observed s t ((attemptsUsed x y z).map (wroteReg s.cfg ra val)) ∧ OnlySensor s t) ∧
  (∀ (i : Instr) (s : State) (a : Byte) (f : Byte → Byte) (b : Byte) (x y z : BusStatus) (e : Err),
    oneRmw s.cfg i = some (a, f) → s.quiet = true → comm (lastAttempt x y z) = some e →
    Feeds s (.success :: attemptsUsed x y z) [[b]] [] →
    ∃ t, exec i s = .next t ∧ Failed t e 0 ∧
      Observed s t (readRegEvents s.cfg a [b] ++ (attemptsUsed x y z).map (wroteReg s.cfg a (f b))) ∧
      OnlySensor s t) ∧
  ∀ (s : State) (b : Byte) (x y z : BusStatus) (e : Err), s.quiet = true → comm (lastAttempt x y z) = some e →
    Feeds s (.success :: attemptsUsed x y z) [[b]] [] →
    ∃ t, exec .calsync s = .next t ∧ Failed t e 0 ∧
      Observed s t (readRegEvents s.cfg s.cfg.dev.calStart.reg [b] ++
        (attemptsUsed x y z).map (wroteReg s.cfg s.cfg.dev.calStart.reg (withBit b s.cfg.dev.calStart.bit))) ∧
      OnlySensor s t

/-- R105: the masks of the bit procedures set, clear and test exactly the named bit. -/
def Obligations.BitMasksTouchOneBit : Prop :=
  ∀ (tb : Byte) (b : BitVec 3),
    testBit tb b = tb.getLsbD b.toNat ∧
    ∀ k < 8, (withBit tb b).getLsbD k = (tb.getLsbD k || k == b.toNat) ∧
      (withoutBit tb b).getLsbD k = (tb.getLsbD k && k != b.toNat)

/-- R29, R140: the byte a setter writes holds the saturated value in the field and the byte read elsewhere, for every
field of the configuration. -/
def Obligations.SetterSaturatesAndKeepsOtherBits : Prop :=
  ∀ (f : Field) (tb v : Byte) (k : Nat), k < 8 →
    (mergeField f tb (clampField f v)).getLsbD k =
      if f.lsb ≤ k ∧ k < f.lsb + f.w then (min v.toNat (2 ^ f.w - 1)).testBit (k - f.lsb) else tb.getLsbD k

/-- R87: AVAIL behaves as GETBIT of `READY`, CALBEGIN as SETBIT of `CAL_START`; `PROBE` and `INIT` are BEGIN 0 and 1. -/
def Obligations.EquivalentCommands : Prop :=
  (∀ s : State, exec .avail s = exec (.getbit s.cfg.dev.ready.reg s.cfg.dev.ready.bit) s) ∧
  (∀ s : State, exec .calbegin s = exec (.setbit s.cfg.dev.calStart.reg s.cfg.dev.calStart.bit) s) ∧
  decode pseudoProbe = .instr (.begin false) ∧ decode pseudoInit = .instr (.begin true)

/-- R52, R58, R201: the error of each transaction outcome, the number of each error, and the byte list of a stored
word. -/
def Obligations.CodesAndByteLists : Prop :=
  comm .success = none ∧ comm .tooLarge = some .dataTooLarge ∧ comm .addrNack = some .addrNack ∧
  comm .dataNack = some .dataNack ∧ comm .other = some .io ∧
  [Err.dataTooLarge, .addrNack, .dataNack, .io, .noData, .timeout, .powerup, .calFail, .calTimeout, .readFactor,
    .readOffset, .notCalibrated].map (fun e => e.code.toInt) = [-1, -2, -3, -4, -5, -6, -7, -8, -9, -101, -102, -103] ∧
  ∀ w : Word,
    bytesOf .littleEndian w =
      [w.extractLsb' 0 8, w.extractLsb' 8 8, w.extractLsb' 16 8, w.extractLsb' 24 8] ∧
    bytesOf .bigEndian w = (bytesOf .littleEndian w).reverse ∧
    wordOf .littleEndian (bytesOf .littleEndian w) = w ∧ wordOf .bigEndian (bytesOf .bigEndian w) = w

/-! ### Samples and averages -/

/-- R120, R56: the unpacker is the sign extension of the big-endian 24-bit payload, always in the 24-bit range, and
recovers every number of that range from its three bytes. -/
def Obligations.UnpackerSignExtends : Prop :=
  (∀ x y z : Byte, unpack24 [x, y, z] = (x ++ y ++ z : BitVec 24).signExtend 32 ∧
    -8388608 ≤ (unpack24 [x, y, z]).toInt ∧ (unpack24 [x, y, z]).toInt ≤ 8388607) ∧
  ∀ v : Int, -8388608 ≤ v → v ≤ 8388607 →
    (unpack24 [(BitVec.ofInt 24 v).extractLsb' 16 8, (BitVec.ofInt 24 v).extractLsb' 8 8,
      (BitVec.ofInt 24 v).extractLsb' 0 8]).toInt = v

/-- R122: READ completes with the sign extension of the three bytes the sensor gives, whatever they are. -/
def Obligations.ReadCompletes : Prop :=
  ∀ (s : State) (x y z : Byte), s.quiet = true → Feeds s [.success] [[x, y, z]] [] →
    ∃ t, exec .read s = .next t ∧ Succeeded t ((x ++ y ++ z : BitVec 24).signExtend 32) 0 ∧
      Observed s t (readRegEvents s.cfg s.cfg.dev.sample [x, y, z]) ∧ OnlySensor s t

/-- R123, R124, R125: GETAVG completes with the exact sum of the samples divided by their number, truncated toward zero,
after any number of unfinished passes, ready or not, each followed by one clock read within the deadline and one idle
wait. -/
def Obligations.GetavgCompletesWithTheTruncatedMean : Prop :=
  ∀ (s : State) (count : BitVec 16) (r : AvgRun), s.quiet = true → r.Answers count s →
    ∃ t, exec (.getavg count) s = .next t ∧ Succeeded t (r.mean count) 0 ∧ Observed s t (r.events s.cfg s.clock) ∧
      OnlySensor s t

/-- R124, R206 (5): GETAVG ends with `E_TIMEOUT` in the first unfinished pass whose clock read is more than `count * 13`
ticks after the first, whatever has been collected. -/
def Obligations.GetavgTimesOut : Prop :=
  ∀ (s : State) (count : BitVec 16) (r : AvgTimeout), s.quiet = true → r.Answers count s →
    ∃ t, exec (.getavg count) s = .next t ∧ Failed t .timeout 0 ∧ Observed s t (r.events s.cfg s.clock) ∧
      OnlySensor s t

/-- R126: a sensor that never sets its ready flag makes GETAVG return `E_TIMEOUT`, whatever the clock does, in at most
`floor(count * 13 / T_IDLE) + 2` passes, each of which reads one register. -/
def Obligations.NeverReadySensorTimesOut : Prop :=
  ∀ (s : State) (count : BitVec 16) (polls : List Byte), s.quiet = true → count ≠ 0 →
    (∀ b ∈ polls, testBit b s.cfg.dev.ready.bit = false) → deadline count / s.cfg.tIdle + 2 ≤ polls.length →
    Feeds s (List.replicate polls.length .success) (polls.map fun b => [b]) [] →
    ∃ t, exec (.getavg count) s = .next t ∧ Failed t .timeout 0 ∧ OnlySensor s t ∧
      ∃ es, Observed s t es ∧ (es.filter Event.isBusRead).length ≤ deadline count / s.cfg.tIdle + 2

/-- R124, R126, R150: in every environment, `Average` raises `E_TIMEOUT` and `CalWait` raises `E_CAL_TIMEOUT` only after a
clock read more than the limit past the first one, and `CalWait` only with a timeout. -/
def Obligations.TimeoutsOnlyAfterTheDeadline : Prop :=
  (∀ (s t : State) (count : BitVec 16), average count s = .stop (.raised .timeout) t →
    ∃ (t0 t1 : Nat) (es : List Event), Observed s t (.now t0 :: es ++ [.now t1]) ∧ t0 + deadline count < t1) ∧
  ∀ (s t : State) (timeout : Nat), calWait timeout s = .stop (.raised .calTimeout) t →
    timeout ≠ 0 ∧
    ∃ (t0 t1 : Nat) (es : List Event), Observed s t (.now t0 :: es ++ [.now t1]) ∧ t0 + timeout < t1

/-- R125: in every environment the average lies in the range of a sample. -/
def Obligations.AverageStaysInSampleRange : Prop :=
  ∀ (s t : State) (count : BitVec 16) (a : Word), count ≠ 0 → average count s = .done a t →
    -8388608 ≤ a.toInt ∧ a.toInt ≤ 8388607

/-! ### Device control -/

/-- R147: POWERUP sets each bit of `PU_SET` in order, then polls `PU_READY` with an idle wait between polls, and completes
at the first poll that reads 1. -/
def Obligations.PowerupCompletes : Prop :=
  ∀ (s : State) (r : PowerRun), s.quiet = true → r.Lawful s.cfg → Feeds s r.statuses r.reads [] →
    ∃ t, exec .powerup s = .next t ∧ Succeeded t 0 0 ∧ Observed s t (r.events s.cfg) ∧ OnlySensor s t

/-- R147: POWERUP ends with `E_POWERUP` after exactly `PU_MAX_POLLS` polls that read 0; no idle wait follows the last. -/
def Obligations.PowerupGivesUp : Prop :=
  ∀ (s : State) (olds polls : List Byte) (last : Byte), s.quiet = true → olds.length = s.cfg.dev.puSet.length →
    polls.length + 1 = s.cfg.puMaxPolls → (∀ b ∈ polls, testBit b s.cfg.dev.puReady.bit = false) →
    testBit last s.cfg.dev.puReady.bit = false →
    Feeds s (List.replicate (2 * olds.length + polls.length + 1) .success)
      (olds.map (fun b => [b]) ++ polls.map (fun b => [b]) ++ [[last]]) [] →
    ∃ t, exec .powerup s = .next t ∧ Failed t .powerup 0 ∧
      Observed s t (setBitsEvents s.cfg s.cfg.dev.puSet olds ++ unreadyPolls s.cfg polls ++
        readRegEvents s.cfg s.cfg.dev.puReady.reg [last]) ∧ OnlySensor s t

/-- R53, R54, R147: POWERUP ends at once with the error of the register access that fails: the pointer write, the short
read or the last attempt of the write for a bit of `PU_SET`, those before it set; the pointer write or the short read of
a poll. -/
def Obligations.PowerupCommunicationErrors : Prop :=
  ∀ (s : State) (olds : List Byte), s.quiet = true →
    (∀ (before rest : List BitRef) (r : BitRef), s.cfg.dev.puSet = before ++ r :: rest → olds.length = before.length →
      (∀ (st : BusStatus) (e : Err), comm st = some e →
        Feeds s (List.replicate (2 * olds.length) .success ++ [st]) (olds.map fun b => [b]) [] →
        ∃ t, exec .powerup s = .next t ∧ Failed t e 0 ∧ OnlySensor s t ∧
          Observed s t (setBitsEvents s.cfg before olds ++ [.busWrite s.cfg.devAddr [r.reg] st])) ∧
      (Feeds s (List.replicate (2 * olds.length + 1) .success) (olds.map (fun b => [b]) ++ [[]]) [] →
        ∃ t, exec .powerup s = .next t ∧ Failed t .noData 0 ∧ OnlySensor s t ∧
          Observed s t (setBitsEvents s.cfg before olds ++
            [.busWrite s.cfg.devAddr [r.reg] .success, .busRead s.cfg.devAddr 1 []])) ∧
      ∀ (b : Byte) (x y z : BusStatus) (e : Err), comm (lastAttempt x y z) = some e →
        Feeds s (List.replicate (2 * olds.length + 1) .success ++ attemptsUsed x y z)
          (olds.map (fun b => [b]) ++ [[b]]) [] →
        ∃ t, exec .powerup s = .next t ∧ Failed t e 0 ∧ OnlySensor s t ∧
          Observed s t (setBitsEvents s.cfg before olds ++ readRegEvents s.cfg r.reg [b] ++
            (attemptsUsed x y z).map (wroteReg s.cfg r.reg (withBit b r.bit)))) ∧
    ∀ polls : List Byte, olds.length = s.cfg.dev.puSet.length → polls.length < s.cfg.puMaxPolls →
      (∀ b ∈ polls, testBit b s.cfg.dev.puReady.bit = false) →
      (∀ (st : BusStatus) (e : Err), comm st = some e →
        Feeds s (List.replicate (2 * olds.length + polls.length) .success ++ [st])
          (olds.map (fun b => [b]) ++ polls.map (fun b => [b])) [] →
        ∃ t, exec .powerup s = .next t ∧ Failed t e 0 ∧ OnlySensor s t ∧
          Observed s t (setBitsEvents s.cfg s.cfg.dev.puSet olds ++ unreadyPolls s.cfg polls ++
            [.busWrite s.cfg.devAddr [s.cfg.dev.puReady.reg] st])) ∧
      (Feeds s (List.replicate (2 * olds.length + polls.length + 1) .success)
          (olds.map (fun b => [b]) ++ polls.map (fun b => [b]) ++ [[]]) [] →
        ∃ t, exec .powerup s = .next t ∧ Failed t .noData 0 ∧ OnlySensor s t ∧
          Observed s t (setBitsEvents s.cfg s.cfg.dev.puSet olds ++ unreadyPolls s.cfg polls ++
            [.busWrite s.cfg.devAddr [s.cfg.dev.puReady.reg] .success, .busRead s.cfg.devAddr 1 []]))

/-- R149: CALSTAT completes with 1 when the active bit reads 1, without reading the error bit; else with 2 or 0 as the
error bit reads, or it ends with the error of that second read. -/
def Obligations.CalstatCompletes : Prop :=
  ∀ (s : State) (b e : Byte), s.quiet = true →
    (testBit b s.cfg.dev.calActive.bit = true → Feeds s [.success] [[b]] [] →
      ∃ t, exec .calstat s = .next t ∧ Succeeded t 1 0 ∧
        Observed s t (readRegEvents s.cfg s.cfg.dev.calActive.reg [b]) ∧ OnlySensor s t) ∧
    (testBit b s.cfg.dev.calActive.bit = false → Feeds s [.success, .success] [[b], [e]] [] →
      ∃ t, exec .calstat s = .next t ∧ Succeeded t (if testBit e s.cfg.dev.calError.bit then 2 else 0) 0 ∧
        Observed s t (readRegEvents s.cfg s.cfg.dev.calActive.reg [b] ++
          readRegEvents s.cfg s.cfg.dev.calError.reg [e]) ∧ OnlySensor s t) ∧
    ∀ (f : ReadFailure) (err : Err), testBit b s.cfg.dev.calActive.bit = false → f.Raises 1 err →
      Feeds s (.success :: f.statuses) ([b] :: f.reads) [] →
      ∃ t, exec .calstat s = .next t ∧ Failed t err 0 ∧
        Observed s t (readRegEvents s.cfg s.cfg.dev.calActive.reg [b] ++ f.events s.cfg s.cfg.dev.calError.reg 1) ∧
        OnlySensor s t

/-- R150: CALWAIT, with or without a timeout, ends when the status leaves in-progress: it completes on success and ends
with `E_CAL_FAIL` on failure; a status read that fails, of either bit, ends it with its error. So does a step of a BUSY
engine, in which an earlier step has left a wait without a timeout (the model's choice of where a step ends, log 11): it
polls on, with no further clock read. -/
def Obligations.CalwaitEnds : Prop :=
  (∀ (s : State) (timeout : Word) (r : CalRun), s.quiet = true → r.Lawful s.cfg timeout.toNat s.clock →
    Feeds s r.statuses r.reads (r.delays (timeout.toNat != 0)) →
    ∃ t, exec (.calwait timeout) s = .next t ∧
      (r.failed s.cfg = false → Succeeded t 0 0) ∧ (r.failed s.cfg = true → Failed t .calFail 0) ∧
      Observed s t (r.events s.cfg (timeout.toNat != 0) s.clock) ∧ OnlySensor s t) ∧
  (∀ (s : State) (timeout : Word) (r : CalFailure) (e : Err), s.quiet = true →
    r.Lawful s.cfg timeout.toNat s.clock e → Feeds s r.statuses r.reads (r.delays (timeout.toNat != 0)) →
    ∃ t, exec (.calwait timeout) s = .next t ∧ Failed t e 0 ∧
      Observed s t (r.events s.cfg (timeout.toNat != 0) s.clock) ∧ OnlySensor s t) ∧
  (∀ (s : State) (ps : List CalPass) (active error : Byte), s.seq = .busy → s.quiet = true →
    (∀ p ∈ ps, testBit p.poll s.cfg.dev.calActive.bit = true) → testBit active s.cfg.dev.calActive.bit = false →
    Feeds s (List.replicate (ps.length + 2) .success) (ps.map (fun p => [p.poll]) ++ [[active], [error]]) [] →
    ∃ t, step s = .next t ∧
      (testBit error s.cfg.dev.calError.bit = false → Succeeded t 0 0) ∧
      (testBit error s.cfg.dev.calError.bit = true → Failed t .calFail 0) ∧
      Observed s t (calEvents s.cfg false s.clock ps ++ readRegEvents s.cfg s.cfg.dev.calActive.reg [active] ++
        readRegEvents s.cfg s.cfg.dev.calError.reg [error]) ∧ OnlySensor s t) ∧
  ∀ (s : State) (r : CalFailure) (e : Err), s.seq = .busy → s.quiet = true → r.Lawful s.cfg 0 s.clock e →
    Feeds s r.statuses r.reads [] →
    ∃ t, step s = .next t ∧ Failed t e 0 ∧ Observed s t (calEvents s.cfg false s.clock r.passes ++ r.lastEvents s.cfg) ∧
      OnlySensor s t

/-- R150, R206 (6): CALWAIT with a timeout ends with `E_CAL_TIMEOUT` in the first in-progress pass whose clock read is
more than `timeout` ticks after the first. -/
def Obligations.CalwaitTimesOut : Prop :=
  ∀ (s : State) (timeout : Word) (r : CalTimeout), s.quiet = true → timeout ≠ 0 →
    r.Lawful s.cfg timeout.toNat s.clock → Feeds s r.statuses r.reads r.delays →
    ∃ t, exec (.calwait timeout) s = .next t ∧ Failed t .calTimeout 0 ∧ Observed s t (r.events s.cfg s.clock) ∧
      OnlySensor s t

/-- R150, R240: CALWAIT 0 with a sensor that is still in progress does not end: after the passes the environment has
answers for, the engine is BUSY and no response has been delivered; nor does the wait end in a later step, of a BUSY
engine. That a step ends there is the model's choice (log 11). -/
def Obligations.UntimedWaitGoesOn : Prop :=
  ∀ (s : State) (ps : List CalPass), s.quiet = true → ps ≠ [] →
    (∀ p ∈ ps, testBit p.poll s.cfg.dev.calActive.bit = true) → s.writeAns = List.replicate ps.length .success →
    (∀ start : Nat, Feeds s [] (ps.map fun p => [p.poll]) [start] →
      ∃ t, exec (.calwait 0) s = .next t ∧ t.seq = .busy ∧ t.response = s.response ∧
        Observed s t (.now (s.clock + start) :: calEvents s.cfg false (s.clock + start) ps) ∧ OnlySensor s t) ∧
    (s.seq = .busy → Feeds s [] (ps.map fun p => [p.poll]) [] →
      ∃ t, step s = .next t ∧ t.seq = .busy ∧ t.response = s.response ∧
        Observed s t (calEvents s.cfg false s.clock ps) ∧ OnlySensor s t)

/-- R240, R126, R147, R151, R214: every command but CALWAIT 0 ends, in every environment: in a next state with SEQ IDLE,
or in one of the two faults, the zero factor's only for GETW, the difference's only for CALF and GETW. That CALWAIT 0
has a next state in every environment is the model's choice: a step ends at the head of its polling loop (log 11). -/
def Obligations.OnlyTheUntimedWaitStaysBusy : Prop :=
  (∀ (i : Instr) (s : State), i ≠ .calwait 0 →
    (∃ t, exec i s = .next t ∧ t.seq = .idle) ∨
    (∃ u count neg, i = .getw count neg ∧
      (exec i s = .fault (.zeroScaleFactor u) ∨ exec i s = .fault (.differenceOutsideS32 u))) ∨
    ∃ u count ref persist, i = .calf count ref persist ∧ exec i s = .fault (.differenceOutsideS32 u)) ∧
  ∀ s : State, ∃ t, exec (.calwait 0) s = .next t

/-- R151: CALSYNC sets the calibration-start bit and then waits with a timeout of `TICKS_PER_SECOND`; it completes on
success, ends with `E_CAL_FAIL` on failure, with `E_CAL_TIMEOUT` in the first in-progress pass whose clock read is more
than `TICKS_PER_SECOND` ticks after the first, and with the error of a status read that fails. -/
def Obligations.CalsyncEnds : Prop :=
  ∀ (s : State) (b : Byte) (started : List Event), s.quiet = true →
    started = rmwEvents s.cfg s.cfg.dev.calStart.reg b (withBit b s.cfg.dev.calStart.bit) →
    (∀ r : CalRun, r.Lawful s.cfg s.cfg.ticksPerSecond s.clock →
      Feeds s (.success :: .success :: r.statuses) ([b] :: r.reads) (r.delays true) →
      ∃ t, exec .calsync s = .next t ∧
        (r.failed s.cfg = false → Succeeded t 0 0) ∧ (r.failed s.cfg = true → Failed t .calFail 0) ∧
        Observed s t (started ++ r.events s.cfg true s.clock) ∧ OnlySensor s t) ∧
    (∀ r : CalTimeout, r.Lawful s.cfg s.cfg.ticksPerSecond s.clock →
      Feeds s (.success :: .success :: r.statuses) ([b] :: r.reads) r.delays →
      ∃ t, exec .calsync s = .next t ∧ Failed t .calTimeout 0 ∧
        Observed s t (started ++ r.events s.cfg s.clock) ∧ OnlySensor s t) ∧
    ∀ (r : CalFailure) (e : Err), r.Lawful s.cfg s.cfg.ticksPerSecond s.clock e →
      Feeds s (.success :: .success :: r.statuses) ([b] :: r.reads) (r.delays true) →
      ∃ t, exec .calsync s = .next t ∧ Failed t e 0 ∧
        Observed s t (started ++ r.events s.cfg true s.clock) ∧ OnlySensor s t

/-- R152, R55: BEGIN 0 probes with a zero-length transaction, a second time after any failure, and ends as the last one
did; nothing else happens. -/
def Obligations.BeginProbesTheDevice : Prop :=
  ∀ (s : State) (x y : BusStatus), s.quiet = true →
    (x = .success → Feeds s [x] [] [] →
      ∃ t, exec (.begin false) s = .next t ∧ Succeeded t 0 0 ∧ Observed s t [.busWrite s.cfg.devAddr [] x] ∧
        OnlySensor s t) ∧
    (x ≠ .success → Feeds s [x, y] [] [] →
      ∃ t, exec (.begin false) s = .next t ∧ EndsAs t y ∧
        Observed s t [.busWrite s.cfg.devAddr [] x, .busWrite s.cfg.devAddr [] y] ∧ OnlySensor s t)

/-- R152, R30, R146: BEGIN 1 with a sensor that does all it is asked runs the eight stages in order and completes with
`AUX = 8`. -/
def Obligations.BeginInitialisesTheSensor : Prop :=
  ∀ (s : State) (r : InitRun), s.quiet = true → r.power.Lawful s.cfg →
    r.cal.Lawful s.cfg s.cfg.ticksPerSecond (r.waitClock s.cfg s.clock) → r.cal.failed s.cfg = false →
    Feeds s r.statuses r.reads (r.cal.delays true) →
    ∃ t, exec (.begin true) s = .next t ∧ Succeeded t 0 8 ∧ Observed s t (r.events s.cfg s.clock) ∧ OnlySensor s t

/-- R152, R206 (7): when the stages before stage `n` have run and stage `n` raises an error, BEGIN 1 ends with that error
and `AUX = n`, and no later stage happens; a failed probe gives `AUX = 0`. -/
def Obligations.BeginNamesTheFailedStage : Prop :=
  (∀ (s u : State) (e : Err) (init : Bool), s.quiet = true → probe ({ s.accept with aux := 0 }) = .stop (.raised e) u →
    ∃ t, exec (.begin init) s = .next t ∧ Failed t e 0 ∧ t.trace = u.trace) ∧
  ∀ (s v w u : State) (e : Err) (n : Nat) (done rest : List (Cmd Unit)) (c : Cmd Unit), s.quiet = true →
    probe ({ s.accept with aux := 0 }) = .done () v → beginStages s.cfg = done ++ c :: rest → done.length + 1 = n →
    runStages 1 done v = .done () w → c ({ w with aux := BitVec.ofNat 4 n }) = .stop (.raised e) u →
    ∃ t, exec (.begin true) s = .next t ∧ Failed t e (BitVec.ofNat 4 n) ∧ t.trace = u.trace

/-! ### Calibration and weight -/

/-- R171: TARE completes with the average in `ZOFF` and in `RES`; with `persist` the offset slot, and only it, receives
the value's bytes; the factor and the flags stay. -/
def Obligations.TareStoresTheOffset : Prop :=
  ∀ (s : State) (count : BitVec 16) (persist : Bool) (r : AvgRun), s.quiet = true → s.nvm.wf = true →
    r.Answers count s →
    ∃ t, exec (.tare count persist) s = .next t ∧ Succeeded t (r.mean count) 0 ∧ t.zoff = r.mean count ∧
      t.sfac = s.sfac ∧ t.calok = s.calok ∧ t.caldet = s.caldet ∧ SameSurround s t ∧
      (persist = false → Observed s t (r.events s.cfg s.clock) ∧ SameStorage s t) ∧
      (persist = true →
        Observed s t (r.events s.cfg s.clock ++
          [.nvmPut s.cfg.slotOff (bytesOf s.cfg.nvmOrder (r.mean count))]) ∧
        StoredAt s t s.cfg.slotOff (bytesOf s.cfg.nvmOrder (r.mean count)))

/-- R172, R170: CALF completes with the factor in `SFAC` and in `RES` and sets `CALOK`; with `persist` the factor slot,
and only it, receives the value's bytes; the offset and `CALDET` stay. The factor is the difference, taken exactly and
within `s32`, converted once and divided once by the reference; where that quotient is a NaN, it is some NaN (93 U10). A
reference of zero gives an infinity of the quotient's sign, or a NaN for a difference of zero. -/
def Obligations.CalfStoresTheFactor : Prop :=
  ∀ (s : State) (count : BitVec 16) (ref : F32) (persist : Bool) (r : AvgRun), s.quiet = true → s.nvm.wf = true →
    r.Answers count s →
    -2147483648 ≤ (r.mean count).toInt - s.zoff.toInt → (r.mean count).toInt - s.zoff.toInt ≤ 2147483647 →
    ∃ (t : State) (q : F32), exec (.calf count ref persist) s = .next t ∧ Succeeded t q 0 ∧ t.sfac = q ∧
      (match F32.div (F32.ofInt ((r.mean count).toInt - s.zoff.toInt)) ref with
        | some w => q = w
        | none => F32.isNan q = true) ∧
      (F32.isZero ref = true →
        if (r.mean count).toInt = s.zoff.toInt then F32.isNan q = true
        else q = if decide ((r.mean count).toInt < s.zoff.toInt) != F32.sign ref then 0xFF800000 else 0x7F800000) ∧
      t.calok = true ∧ t.zoff = s.zoff ∧ t.caldet = s.caldet ∧ SameSurround s t ∧
      (persist = false → Observed s t (r.events s.cfg s.clock) ∧ SameStorage s t) ∧
      (persist = true →
        Observed s t (r.events s.cfg s.clock ++ [.nvmPut s.cfg.slotFac (bytesOf s.cfg.nvmOrder q)]) ∧
        StoredAt s t s.cfg.slotFac (bytesOf s.cfg.nvmOrder q))

/-- R124, R171, R172, R173, R206 (5): in each unfinished pass, a poll, or the read of a ready sample, that fails raises
its error at once, with no event after it. An error of the averaging, whichever, ends each of its four commands
unchanged; TARE and CALF clear `CALOK`, GETAVG and GETW leave it; the offset, the factor, `CALDET` and the storage
stay. -/
def Obligations.AverageErrorEndsTheCommand : Prop :=
  (∀ (s : State) (count : BitVec 16) (r : AvgFailure) (e : Err), s.quiet = true → r.Answers count e s →
    (∃ u, average count s.accept = .stop (.raised e) u ∧ Observed s u (r.events s.cfg s.clock)) ∧
    ∃ t, exec (.getavg count) s = .next t ∧ Failed t e 0 ∧ Observed s t (r.events s.cfg s.clock) ∧ OnlySensor s t) ∧
  ∀ (s u : State) (count : BitVec 16) (e : Err), s.quiet = true → average count s.accept = .stop (.raised e) u →
    (∃ t, exec (.getavg count) s = .next t ∧ Failed t e 0 ∧ t.trace = u.trace ∧ OnlySensor s t) ∧
    (s.calok = true → ∀ neg, ∃ t, exec (.getw count neg) s = .next t ∧ Failed t e 0 ∧ t.trace = u.trace ∧
      OnlySensor s t) ∧
    ∀ (ref : F32) (persist : Bool), ∀ i ∈ [Instr.tare count persist, .calf count ref persist],
      ∃ t, exec i s = .next t ∧ Failed t e 0 ∧ t.trace = u.trace ∧ t.calok = false ∧ t.zoff = s.zoff ∧
        t.sfac = s.sfac ∧ t.caldet = s.caldet ∧ SameStorage s t ∧ SameSurround s t

/-- R173, R206 (1): GETW with `CALOK` clear ends with `E_NOT_CALIBRATED` and performs no event. -/
def Obligations.GetwNeedsACalibration : Prop :=
  ∀ (s : State) (count : BitVec 16) (neg : Bool), s.quiet = true → s.calok = false →
    ∃ t, exec (.getw count neg) s = .next t ∧ Failed t .notCalibrated 0 ∧ Observed s t [] ∧ OnlySensor s t

/-- R173, R174, R170: GETW completes with the weight: the average, raised to the offset when negatives are not allowed,
minus the offset, converted once and divided once by the factor; the numerator is never negative without `neg`; where
the quotient is a NaN, the result is some NaN (93 U10). A numerator of zero gives the zero of the factor's sign. Nothing
is written. -/
def Obligations.GetwCompletesWithTheWeight : Prop :=
  ∀ (s : State) (count : BitVec 16) (neg : Bool) (r : AvgRun) (d : Int), s.quiet = true → s.calok = true →
    r.Answers count s → F32.isZero s.sfac = false →
    d = (if neg then (r.mean count).toInt - s.zoff.toInt else max ((r.mean count).toInt - s.zoff.toInt) 0) →
    -2147483648 ≤ d → d ≤ 2147483647 →
    ∃ (t : State) (q : F32), exec (.getw count neg) s = .next t ∧ Succeeded t q 0 ∧
      (match F32.div (F32.ofInt d) s.sfac with
        | some w => q = w
        | none => F32.isNan q = true) ∧
      (d = 0 → F32.isNan s.sfac = false → q = if F32.sign s.sfac then 0x80000000 else 0) ∧
      Observed s t (r.events s.cfg s.clock) ∧ OnlySensor s t

/-- R12, R170: an integer is converted exactly up to 16777216 in magnitude, and within `s32` to the nearest value, ties to
even; the quotient of two finite values, the divisor not zero, is the nearest value, ties to even, or infinite from half
a unit above the largest finite value on, with the product of the signs. That the format is the IEEE one is the model's
reading (log 17). -/
def Obligations.ConversionAndDivisionRound : Prop :=
  (∀ n : Int, -16777216 ≤ n → n ≤ 16777216 → (F32.ofInt n).exact = n * 2 ^ 149) ∧
  (∀ n : Int, -2147483648 ≤ n → n ≤ 2147483647 →
    F32.sign (F32.ofInt n) = decide (n < 0) ∧ RoundsTo (n.natAbs * 2 ^ 149) 1 (F32.ofInt n)) ∧
  ∀ a b : F32, F32.absPattern a < F32.infPattern → F32.absPattern b < F32.infPattern → F32.isZero b = false →
    ∃ q, F32.div a b = some q ∧ F32.sign q = (F32.sign a != F32.sign b) ∧
      if (2 ^ 25 - 1) * 2 ^ 252 * F32.magnitude b ≤ F32.magnitude a * 2 ^ 149 then F32.isInf q = true
      else RoundsTo (F32.magnitude a * 2 ^ 149) (F32.magnitude b) q

/-- R173, R214 (93 U3): GETW with a factor of exactly zero faults at the division, after the events of the averaging. -/
def Obligations.GetwFaultsOnAZeroFactor : Prop :=
  ∀ (s : State) (count : BitVec 16) (neg : Bool) (r : AvgRun) (d : Int), s.quiet = true → s.calok = true →
    r.Answers count s → F32.isZero s.sfac = true →
    d = (if neg then (r.mean count).toInt - s.zoff.toInt else max ((r.mean count).toInt - s.zoff.toInt) 0) →
    -2147483648 ≤ d → d ≤ 2147483647 →
    ∃ u, exec (.getw count neg) s = .fault (.zeroScaleFactor u) ∧ Observed s u (r.events s.cfg s.clock)

/-- R180, R214 (93 U5): CALF and GETW fault when the difference leaves the `s32` range, after the events of the
averaging. For GETW the floor clamp comes first. That this is the fault reported when the factor is zero as well is the
model's choice (log 24). -/
def Obligations.DifferenceOutsideS32Faults : Prop :=
  ∀ (s : State) (count : BitVec 16) (r : AvgRun), s.quiet = true → r.Answers count s →
    (((r.mean count).toInt - s.zoff.toInt < -2147483648 ∨ 2147483647 < (r.mean count).toInt - s.zoff.toInt) →
      ∀ (ref : F32) (persist : Bool), ∃ u, exec (.calf count ref persist) s = .fault (.differenceOutsideS32 u) ∧
        Observed s u (r.events s.cfg s.clock)) ∧
    ∀ (neg : Bool) (d : Int), s.calok = true →
      d = (if neg then (r.mean count).toInt - s.zoff.toInt else max ((r.mean count).toInt - s.zoff.toInt) 0) →
      (d < -2147483648 ∨ 2147483647 < d) →
      ∃ u, exec (.getw count neg) s = .fault (.differenceOutsideS32 u) ∧ Observed s u (r.events s.cfg s.clock)

/-- R175, R176: SETZOFF and SETSFAC take `ARG` whole, store every 32-bit pattern, write no flag and perform no event. -/
def Obligations.SettersComplete : Prop :=
  (∀ v : Word, decode ⟨0x33000000, v⟩ = .instr (.setzoff v) ∧ decode ⟨0x34000000, v⟩ = .instr (.setsfac v)) ∧
  ∀ (s : State) (v : Word), s.quiet = true →
    (∃ t, exec (.setzoff v) s = .next t ∧ Succeeded t 0 0 ∧ t.zoff = v ∧ t.sfac = s.sfac ∧ t.calok = s.calok ∧
      t.caldet = s.caldet ∧ Observed s t [] ∧ SameStorage s t ∧ SameSurround s t) ∧
    ∃ t, exec (.setsfac v) s = .next t ∧ Succeeded t 0 0 ∧ t.sfac = v ∧ t.zoff = s.zoff ∧ t.calok = s.calok ∧
      t.caldet = s.caldet ∧ Observed s t [] ∧ SameStorage s t ∧ SameSurround s t

/-- R177: STORECAL, whatever `ARG`, completes with both scalars in their slots, the factor first, whatever they are;
every other storage byte and every Scale item stays. -/
def Obligations.StorecalWritesBothSlots : Prop :=
  (∀ arg : Word, decode ⟨0x35000000, arg⟩ = .instr .storecal) ∧
  ∀ s : State, s.quiet = true → s.nvm.wf = true →
    ∃ t, exec .storecal s = .next t ∧ Succeeded t 0 0 ∧
      Observed s t [.nvmPut s.cfg.slotFac (bytesOf s.cfg.nvmOrder s.sfac),
        .nvmPut s.cfg.slotOff (bytesOf s.cfg.nvmOrder s.zoff)] ∧
      t.nvm.readBytes s.cfg.slotFac 4 = bytesOf s.cfg.nvmOrder s.sfac ∧
      t.nvm.readBytes s.cfg.slotOff 4 = bytesOf s.cfg.nvmOrder s.zoff ∧
      (∀ a, (a < s.cfg.slotFac ∨ s.cfg.slotFac + 4 ≤ a) → (a < s.cfg.slotOff ∨ s.cfg.slotOff + 4 ≤ a) →
        t.nvm.read a = s.nvm.read a) ∧
      SameScale s t ∧ SameSurround s t

/-- R178: READCAL with a corrupt factor, the sentinel or a NaN, ends with `E_READ_FACTOR`, the default factor in `SFAC`
and in its slot, the offset as stored, both flags clear; with a clean factor and the sentinel as offset it ends with
`E_READ_OFFSET`, likewise. -/
def Obligations.ReadcalHealsACorruptValue : Prop :=
  ∀ (s : State) (wf wo : Word), s.quiet = true → s.nvm.wf = true →
    wf = wordOf s.cfg.nvmOrder (s.nvm.readBytes s.cfg.slotFac 4) →
    wo = wordOf s.cfg.nvmOrder (s.nvm.readBytes s.cfg.slotOff 4) →
    ((wf = s.cfg.nvmErased ∨ F32.isNan wf = true) →
      ∃ t, exec .readcal s = .next t ∧ Failed t .readFactor 0 ∧ t.sfac = 0x3F800000 ∧ t.zoff = wo ∧
        t.calok = false ∧ t.caldet = false ∧ SameSurround s t ∧
        Observed s t [.nvmGet s.cfg.slotFac (s.nvm.readBytes s.cfg.slotFac 4),
          .nvmGet s.cfg.slotOff (s.nvm.readBytes s.cfg.slotOff 4),
          .nvmPut s.cfg.slotFac (bytesOf s.cfg.nvmOrder 0x3F800000)] ∧
        StoredAt s t s.cfg.slotFac (bytesOf s.cfg.nvmOrder 0x3F800000)) ∧
    (wf ≠ s.cfg.nvmErased → F32.isNan wf = false → wo = s.cfg.nvmErased →
      ∃ t, exec .readcal s = .next t ∧ Failed t .readOffset 0 ∧ t.sfac = wf ∧ t.zoff = 0 ∧
        t.calok = false ∧ t.caldet = false ∧ SameSurround s t ∧
        Observed s t [.nvmGet s.cfg.slotFac (s.nvm.readBytes s.cfg.slotFac 4),
          .nvmGet s.cfg.slotOff (s.nvm.readBytes s.cfg.slotOff 4),
          .nvmPut s.cfg.slotOff (bytesOf s.cfg.nvmOrder 0)] ∧
        StoredAt s t s.cfg.slotOff (bytesOf s.cfg.nvmOrder 0))

/-- R178: READCAL with two clean values completes, loads both, sets `CALDET`, and sets `CALOK` as the consistency check
says; the storage stays. -/
def Obligations.ReadcalCompletes : Prop :=
  ∀ (s : State) (wf wo : Word), s.quiet = true →
    wf = wordOf s.cfg.nvmOrder (s.nvm.readBytes s.cfg.slotFac 4) →
    wo = wordOf s.cfg.nvmOrder (s.nvm.readBytes s.cfg.slotOff 4) →
    wf ≠ s.cfg.nvmErased → F32.isNan wf = false → wo ≠ s.cfg.nvmErased →
    ∃ t, exec .readcal s = .next t ∧ Succeeded t 0 0 ∧ t.sfac = wf ∧ t.zoff = wo ∧ t.caldet = true ∧
      t.calok = consistent wo wf ∧ SameStorage s t ∧ SameSurround s t ∧
      Observed s t [.nvmGet s.cfg.slotFac (s.nvm.readBytes s.cfg.slotFac 4),
        .nvmGet s.cfg.slotOff (s.nvm.readBytes s.cfg.slotOff 4)]

/-- R179: in terms of the bit pattern of the factor: with a non-zero offset exactly the positive factors from pattern
`0x3F8020C5` up to infinity pass; with a zero offset none does. -/
def Obligations.ConsistencyThreshold : Prop :=
  ∀ (z : Word) (f : F32), F32.isNan f = false →
    (consistent z f = true ↔ z ≠ 0 ∧ 0x3F8020C5 ≤ f.toNat ∧ f.toNat ≤ 0x7F800000)

/-- R177, R178, R57: READCAL after STORECAL restores the offset and the factor, unless a stored word reads as corrupt. -/
def Obligations.ReadcalRestoresWhatStorecalWrote : Prop :=
  ∀ s t : State, s.quiet = true → s.nvm.wf = true → exec .storecal s = .next t →
    s.sfac ≠ s.cfg.nvmErased → F32.isNan s.sfac = false → s.zoff ≠ s.cfg.nvmErased →
    ∃ u, exec .readcal t = .next u ∧ Succeeded u 0 0 ∧ u.zoff = s.zoff ∧ u.sfac = s.sfac ∧ u.caldet = true ∧
      u.calok = consistent s.zoff s.sfac ∧ SameStorage t u

/-! ### Rules over all commands -/

/-- R203: whenever a command ends, `STATUS` is 0 or one of the errors the table gives that command. -/
def Obligations.EachCommandRaisesItsErrorsOnly : Prop :=
  ∀ (i : Instr) (s t : State), exec i s = .next t → t.seq = .idle →
    t.status = 0 ∨ ∃ e ∈ errorsOf i, t.status = e.code

/-- R33: the Scale items begin with their defaults; which command may write which of them; the others leave it unchanged
(no reset being due). -/
def Obligations.OnlyTheListedCommandsWriteTheScale : Prop :=
  (State.reset.zoff = 0 ∧ State.reset.sfac = 0x3F800000 ∧ State.reset.calok = false ∧ State.reset.caldet = false) ∧
  ∀ (i : Instr) (s t : State), s.quiet = true → exec i s = .next t →
    ((writesScale i).1 = false → t.zoff = s.zoff) ∧ ((writesScale i).2.1 = false → t.sfac = s.sfac) ∧
    ((writesScale i).2.2.1 = false → t.calok = s.calok) ∧ ((writesScale i).2.2.2 = false → t.caldet = s.caldet)

/-- R24, R50, R66: no command writes the configuration or a storage byte outside the two slots, and only TARE and CALF
with `persist`, STORECAL and READCAL write the storage at all. -/
def Obligations.StorageFrame : Prop :=
  ∀ (i : Instr) (s t : State), exec i s = .next t →
    t.cfg = s.cfg ∧ (writesStorage i = false → SameStorage s t) ∧
    ∀ a, (a < s.cfg.slotFac ∨ s.cfg.slotFac + 4 ≤ a) → (a < s.cfg.slotOff ∨ s.cfg.slotOff + 4 ≤ a) →
      t.nvm.read a = s.nvm.read a

/-- R51, R57, R60: every event of a step has one of the engine's shapes: a write of at most 2 bytes or a read of 1 or 3
at the device address, an idle wait of `T_IDLE`, a storage access of 4 bytes at a slot. -/
def Obligations.EventsHaveTheEnginesShapes : Prop :=
  ∀ s t : State, step s = .next t → ∃ es, Observed s t es ∧ ∀ e ∈ es, eventShape s.cfg e = true

/-- R10 E3: along a step every storage read answers what the latest writes left, and the storage at the end is what the
writes made of it. -/
def Obligations.StorageAnswersTheLatestPut : Prop :=
  ∀ s t : State, step s = .next t → ∃ es, Observed s t es ∧ storageAfter s.nvm es = some t.nvm

/-- R23, R26, R208: a command that ends does not depend on what earlier commands left in the response registers, in the
working registers or on the bus: with any other values of these it ends in the same state, the earlier events apart. -/
def Obligations.CommandsForgetEarlierOnes : Prop :=
  ∀ (i : Instr) (s t : State) (status : BitVec 16) (res : Word) (aux : BitVec 4) (work : Work)
    (response : Option Response) (trace : List Event), exec i s = .next t → t.seq = .idle →
    ∃ es, Observed s t es ∧
      exec i { s with status := status, res := res, aux := aux, work := work, response := response, trace := trace } =
        .next { t with trace := trace ++ es }

/-- R10, R152, R200 and the storage's canonical form: every step keeps the invariant, in every environment. -/
def Obligations.StepKeepsTheInvariant : Prop :=
  ∀ s t : State, Inv s → step s = .next t → Inv t

/-- The invariant holds at reset. -/
def Obligations.ResetHasTheInvariant : Prop := Inv State.reset

end
end

