-- ==== Sys2Proof/Laws/State.lean ====
section
/-! SUPPORT. What each update of the state does to each field. -/

set_option Elab.async false

namespace Sys2Proof.Machine

variable (s : State)

/-! ### setCalok -/

@[simp] theorem State.setCalok_cfg (v : Bool) : (s.setCalok v).cfg = s.cfg := rfl
@[simp] theorem State.setCalok_zoff (v : Bool) : (s.setCalok v).zoff = s.zoff := rfl
@[simp] theorem State.setCalok_sfac (v : Bool) : (s.setCalok v).sfac = s.sfac := rfl
@[simp] theorem State.setCalok_calok (v : Bool) : (s.setCalok v).calok = v := rfl
@[simp] theorem State.setCalok_caldet (v : Bool) : (s.setCalok v).caldet = s.caldet := rfl
@[simp] theorem State.setCalok_status (v : Bool) : (s.setCalok v).status = s.status := rfl
@[simp] theorem State.setCalok_res (v : Bool) : (s.setCalok v).res = s.res := rfl
@[simp] theorem State.setCalok_aux (v : Bool) : (s.setCalok v).aux = s.aux := rfl
@[simp] theorem State.setCalok_seq (v : Bool) : (s.setCalok v).seq = s.seq := rfl
@[simp] theorem State.setCalok_work (v : Bool) : (s.setCalok v).work = s.work := rfl
@[simp] theorem State.setCalok_nvm (v : Bool) : (s.setCalok v).nvm = s.nvm := rfl
@[simp] theorem State.setCalok_clock (v : Bool) : (s.setCalok v).clock = s.clock := rfl
@[simp] theorem State.setCalok_writeAns (v : Bool) : (s.setCalok v).writeAns = s.writeAns := rfl
@[simp] theorem State.setCalok_readAns (v : Bool) : (s.setCalok v).readAns = s.readAns := rfl
@[simp] theorem State.setCalok_delays (v : Bool) : (s.setCalok v).delays = s.delays := rfl
@[simp] theorem State.setCalok_draws (v : Bool) : (s.setCalok v).draws = s.draws := rfl
@[simp] theorem State.setCalok_trace (v : Bool) : (s.setCalok v).trace = s.trace := rfl
@[simp] theorem State.setCalok_response (v : Bool) : (s.setCalok v).response = s.response := rfl
@[simp] theorem State.setCalok_host (v : Bool) : (s.setCalok v).host = s.host := rfl

/-! ### setCaldet -/

@[simp] theorem State.setCaldet_cfg (v : Bool) : (s.setCaldet v).cfg = s.cfg := rfl
@[simp] theorem State.setCaldet_zoff (v : Bool) : (s.setCaldet v).zoff = s.zoff := rfl
@[simp] theorem State.setCaldet_sfac (v : Bool) : (s.setCaldet v).sfac = s.sfac := rfl
@[simp] theorem State.setCaldet_calok (v : Bool) : (s.setCaldet v).calok = s.calok := rfl
@[simp] theorem State.setCaldet_caldet (v : Bool) : (s.setCaldet v).caldet = v := rfl
@[simp] theorem State.setCaldet_status (v : Bool) : (s.setCaldet v).status = s.status := rfl
@[simp] theorem State.setCaldet_res (v : Bool) : (s.setCaldet v).res = s.res := rfl
@[simp] theorem State.setCaldet_aux (v : Bool) : (s.setCaldet v).aux = s.aux := rfl
@[simp] theorem State.setCaldet_seq (v : Bool) : (s.setCaldet v).seq = s.seq := rfl
@[simp] theorem State.setCaldet_work (v : Bool) : (s.setCaldet v).work = s.work := rfl
@[simp] theorem State.setCaldet_nvm (v : Bool) : (s.setCaldet v).nvm = s.nvm := rfl
@[simp] theorem State.setCaldet_clock (v : Bool) : (s.setCaldet v).clock = s.clock := rfl
@[simp] theorem State.setCaldet_writeAns (v : Bool) : (s.setCaldet v).writeAns = s.writeAns := rfl
@[simp] theorem State.setCaldet_readAns (v : Bool) : (s.setCaldet v).readAns = s.readAns := rfl
@[simp] theorem State.setCaldet_delays (v : Bool) : (s.setCaldet v).delays = s.delays := rfl
@[simp] theorem State.setCaldet_draws (v : Bool) : (s.setCaldet v).draws = s.draws := rfl
@[simp] theorem State.setCaldet_trace (v : Bool) : (s.setCaldet v).trace = s.trace := rfl
@[simp] theorem State.setCaldet_response (v : Bool) : (s.setCaldet v).response = s.response := rfl
@[simp] theorem State.setCaldet_host (v : Bool) : (s.setCaldet v).host = s.host := rfl

/-! ### forgetCalibration -/

@[simp] theorem State.forgetCalibration_eq : s.forgetCalibration = (s.setCalok false).setCaldet false := rfl

/-! ### judgeCalibration -/

@[simp] theorem State.judgeCalibration_eq :
    s.judgeCalibration = (s.setCaldet true).setCalok (consistent s.zoff s.sfac) := rfl

/-! ### record -/

@[simp] theorem State.record_cfg (e : Event) : (s.record e).cfg = s.cfg := rfl
@[simp] theorem State.record_zoff (e : Event) : (s.record e).zoff = s.zoff := rfl
@[simp] theorem State.record_sfac (e : Event) : (s.record e).sfac = s.sfac := rfl
@[simp] theorem State.record_calok (e : Event) : (s.record e).calok = s.calok := rfl
@[simp] theorem State.record_caldet (e : Event) : (s.record e).caldet = s.caldet := rfl
@[simp] theorem State.record_status (e : Event) : (s.record e).status = s.status := rfl
@[simp] theorem State.record_res (e : Event) : (s.record e).res = s.res := rfl
@[simp] theorem State.record_aux (e : Event) : (s.record e).aux = s.aux := rfl
@[simp] theorem State.record_seq (e : Event) : (s.record e).seq = s.seq := rfl
@[simp] theorem State.record_work (e : Event) : (s.record e).work = s.work := rfl
@[simp] theorem State.record_nvm (e : Event) : (s.record e).nvm = s.nvm := rfl
@[simp] theorem State.record_clock (e : Event) : (s.record e).clock = s.clock := rfl
@[simp] theorem State.record_writeAns (e : Event) : (s.record e).writeAns = s.writeAns := rfl
@[simp] theorem State.record_readAns (e : Event) : (s.record e).readAns = s.readAns := rfl
@[simp] theorem State.record_delays (e : Event) : (s.record e).delays = s.delays := rfl
@[simp] theorem State.record_draws (e : Event) : (s.record e).draws = s.draws := rfl
@[simp] theorem State.record_trace (e : Event) : (s.record e).trace = s.trace ++ [e] := rfl
@[simp] theorem State.record_response (e : Event) : (s.record e).response = s.response := rfl
@[simp] theorem State.record_host (e : Event) : (s.record e).host = s.host := rfl

/-! ### accept -/

@[simp] theorem State.accept_cfg : (s.accept).cfg = s.cfg := rfl
@[simp] theorem State.accept_zoff : (s.accept).zoff = s.zoff := rfl
@[simp] theorem State.accept_sfac : (s.accept).sfac = s.sfac := rfl
@[simp] theorem State.accept_calok : (s.accept).calok = s.calok := rfl
@[simp] theorem State.accept_caldet : (s.accept).caldet = s.caldet := rfl
@[simp] theorem State.accept_status : (s.accept).status = s.status := rfl
@[simp] theorem State.accept_res : (s.accept).res = s.res := rfl
@[simp] theorem State.accept_aux : (s.accept).aux = s.aux := rfl
@[simp] theorem State.accept_seq : (s.accept).seq = .busy := rfl
@[simp] theorem State.accept_work : (s.accept).work = s.work := rfl
@[simp] theorem State.accept_nvm : (s.accept).nvm = s.nvm := rfl
@[simp] theorem State.accept_clock : (s.accept).clock = s.clock := rfl
@[simp] theorem State.accept_writeAns : (s.accept).writeAns = s.writeAns := rfl
@[simp] theorem State.accept_readAns : (s.accept).readAns = s.readAns := rfl
@[simp] theorem State.accept_delays : (s.accept).delays = s.delays := rfl
@[simp] theorem State.accept_draws : (s.accept).draws = s.draws := rfl
@[simp] theorem State.accept_trace : (s.accept).trace = s.trace := rfl
@[simp] theorem State.accept_response : (s.accept).response = s.response := rfl
@[simp] theorem State.accept_host : (s.accept).host = s.host := rfl

/-! ### clearAux -/

@[simp] theorem State.clearAux_cfg : (s.clearAux).cfg = s.cfg := rfl
@[simp] theorem State.clearAux_zoff : (s.clearAux).zoff = s.zoff := rfl
@[simp] theorem State.clearAux_sfac : (s.clearAux).sfac = s.sfac := rfl
@[simp] theorem State.clearAux_calok : (s.clearAux).calok = s.calok := rfl
@[simp] theorem State.clearAux_caldet : (s.clearAux).caldet = s.caldet := rfl
@[simp] theorem State.clearAux_status : (s.clearAux).status = s.status := rfl
@[simp] theorem State.clearAux_res : (s.clearAux).res = s.res := rfl
@[simp] theorem State.clearAux_aux : (s.clearAux).aux = 0 := rfl
@[simp] theorem State.clearAux_seq : (s.clearAux).seq = s.seq := rfl
@[simp] theorem State.clearAux_work : (s.clearAux).work = s.work := rfl
@[simp] theorem State.clearAux_nvm : (s.clearAux).nvm = s.nvm := rfl
@[simp] theorem State.clearAux_clock : (s.clearAux).clock = s.clock := rfl
@[simp] theorem State.clearAux_writeAns : (s.clearAux).writeAns = s.writeAns := rfl
@[simp] theorem State.clearAux_readAns : (s.clearAux).readAns = s.readAns := rfl
@[simp] theorem State.clearAux_delays : (s.clearAux).delays = s.delays := rfl
@[simp] theorem State.clearAux_draws : (s.clearAux).draws = s.draws := rfl
@[simp] theorem State.clearAux_trace : (s.clearAux).trace = s.trace := rfl
@[simp] theorem State.clearAux_response : (s.clearAux).response = s.response := rfl
@[simp] theorem State.clearAux_host : (s.clearAux).host = s.host := rfl

/-! ### reject -/

@[simp] theorem State.reject_cfg : (s.reject).cfg = s.cfg := rfl
@[simp] theorem State.reject_zoff : (s.reject).zoff = s.zoff := rfl
@[simp] theorem State.reject_sfac : (s.reject).sfac = s.sfac := rfl
@[simp] theorem State.reject_calok : (s.reject).calok = s.calok := rfl
@[simp] theorem State.reject_caldet : (s.reject).caldet = s.caldet := rfl
@[simp] theorem State.reject_status : (s.reject).status = s.status := rfl
@[simp] theorem State.reject_res : (s.reject).res = s.res := rfl
@[simp] theorem State.reject_aux : (s.reject).aux = s.aux := rfl
@[simp] theorem State.reject_seq : (s.reject).seq = s.seq := rfl
@[simp] theorem State.reject_work : (s.reject).work = s.work := rfl
@[simp] theorem State.reject_nvm : (s.reject).nvm = s.nvm := rfl
@[simp] theorem State.reject_clock : (s.reject).clock = s.clock := rfl
@[simp] theorem State.reject_writeAns : (s.reject).writeAns = s.writeAns := rfl
@[simp] theorem State.reject_readAns : (s.reject).readAns = s.readAns := rfl
@[simp] theorem State.reject_delays : (s.reject).delays = s.delays := rfl
@[simp] theorem State.reject_draws : (s.reject).draws = s.draws := rfl
@[simp] theorem State.reject_trace : (s.reject).trace = s.trace := rfl
@[simp] theorem State.reject_response : (s.reject).response = some .reject := rfl
@[simp] theorem State.reject_host : (s.reject).host = s.host := rfl

/-! ### respond -/

@[simp] theorem State.respond_cfg (st : BitVec 16) (r : Word) : (s.respond st r).cfg = s.cfg := rfl
@[simp] theorem State.respond_zoff (st : BitVec 16) (r : Word) : (s.respond st r).zoff = s.zoff := rfl
@[simp] theorem State.respond_sfac (st : BitVec 16) (r : Word) : (s.respond st r).sfac = s.sfac := rfl
@[simp] theorem State.respond_calok (st : BitVec 16) (r : Word) : (s.respond st r).calok = s.calok := rfl
@[simp] theorem State.respond_caldet (st : BitVec 16) (r : Word) : (s.respond st r).caldet = s.caldet := rfl
@[simp] theorem State.respond_status (st : BitVec 16) (r : Word) : (s.respond st r).status = st := rfl
@[simp] theorem State.respond_res (st : BitVec 16) (r : Word) : (s.respond st r).res = r := rfl
@[simp] theorem State.respond_aux (st : BitVec 16) (r : Word) : (s.respond st r).aux = s.aux := rfl
@[simp] theorem State.respond_seq (st : BitVec 16) (r : Word) : (s.respond st r).seq = .idle := rfl
@[simp] theorem State.respond_work (st : BitVec 16) (r : Word) : (s.respond st r).work = Config.freeWork s.draws := rfl
@[simp] theorem State.respond_nvm (st : BitVec 16) (r : Word) : (s.respond st r).nvm = s.nvm := rfl
@[simp] theorem State.respond_clock (st : BitVec 16) (r : Word) : (s.respond st r).clock = s.clock := rfl
@[simp] theorem State.respond_writeAns (st : BitVec 16) (r : Word) : (s.respond st r).writeAns = s.writeAns := rfl
@[simp] theorem State.respond_readAns (st : BitVec 16) (r : Word) : (s.respond st r).readAns = s.readAns := rfl
@[simp] theorem State.respond_delays (st : BitVec 16) (r : Word) : (s.respond st r).delays = s.delays := rfl
@[simp] theorem State.respond_draws (st : BitVec 16) (r : Word) : (s.respond st r).draws = s.draws + 1 := rfl
@[simp] theorem State.respond_trace (st : BitVec 16) (r : Word) : (s.respond st r).trace = s.trace := rfl
@[simp] theorem State.respond_response (st : BitVec 16) (r : Word) : (s.respond st r).response = some .done := rfl
@[simp] theorem State.respond_host (st : BitVec 16) (r : Word) : (s.respond st r).host = s.host := rfl

/-! ### takeError -/

@[simp] theorem State.takeError_eq (e : Err) : s.takeError e = s.respond e.code (Config.freeRes s.draws) := rfl

/-! ### assertReset -/

@[simp] theorem State.assertReset_cfg : (s.assertReset).cfg = s.cfg := rfl
@[simp] theorem State.assertReset_zoff : (s.assertReset).zoff = Config.defZoff := rfl
@[simp] theorem State.assertReset_sfac : (s.assertReset).sfac = Config.defSfac := rfl
@[simp] theorem State.assertReset_calok : (s.assertReset).calok = false := rfl
@[simp] theorem State.assertReset_caldet : (s.assertReset).caldet = false := rfl
@[simp] theorem State.assertReset_status : (s.assertReset).status = 0 := rfl
@[simp] theorem State.assertReset_res : (s.assertReset).res = 0 := rfl
@[simp] theorem State.assertReset_aux : (s.assertReset).aux = 0 := rfl
@[simp] theorem State.assertReset_seq : (s.assertReset).seq = .idle := rfl
@[simp] theorem State.assertReset_work : (s.assertReset).work = Work.atReset := rfl
@[simp] theorem State.assertReset_nvm : (s.assertReset).nvm = s.nvm := rfl
@[simp] theorem State.assertReset_clock : (s.assertReset).clock = s.clock := rfl
@[simp] theorem State.assertReset_writeAns : (s.assertReset).writeAns = s.writeAns := rfl
@[simp] theorem State.assertReset_readAns : (s.assertReset).readAns = s.readAns := rfl
@[simp] theorem State.assertReset_delays : (s.assertReset).delays = s.delays := rfl
@[simp] theorem State.assertReset_draws : (s.assertReset).draws = s.draws := rfl
@[simp] theorem State.assertReset_trace : (s.assertReset).trace = s.trace := rfl
@[simp] theorem State.assertReset_response : (s.assertReset).response = none := rfl
@[simp] theorem State.assertReset_host : s.assertReset.host = dropReset s.host := rfl

/-! ### dropStatus -/

@[simp] theorem State.dropStatus_cfg : s.dropStatus.cfg = s.cfg := rfl
@[simp] theorem State.dropStatus_zoff : s.dropStatus.zoff = s.zoff := rfl
@[simp] theorem State.dropStatus_sfac : s.dropStatus.sfac = s.sfac := rfl
@[simp] theorem State.dropStatus_calok : s.dropStatus.calok = s.calok := rfl
@[simp] theorem State.dropStatus_caldet : s.dropStatus.caldet = s.caldet := rfl
@[simp] theorem State.dropStatus_status : s.dropStatus.status = s.status := rfl
@[simp] theorem State.dropStatus_res : s.dropStatus.res = s.res := rfl
@[simp] theorem State.dropStatus_aux : s.dropStatus.aux = s.aux := rfl
@[simp] theorem State.dropStatus_seq : s.dropStatus.seq = s.seq := rfl
@[simp] theorem State.dropStatus_work : s.dropStatus.work = s.work := rfl
@[simp] theorem State.dropStatus_nvm : s.dropStatus.nvm = s.nvm := rfl
@[simp] theorem State.dropStatus_clock : s.dropStatus.clock = s.clock := rfl
@[simp] theorem State.dropStatus_writeAns : s.dropStatus.writeAns = s.writeAns.tail := rfl
@[simp] theorem State.dropStatus_readAns : s.dropStatus.readAns = s.readAns := rfl
@[simp] theorem State.dropStatus_delays : s.dropStatus.delays = s.delays := rfl
@[simp] theorem State.dropStatus_draws : s.dropStatus.draws = s.draws + (if s.writeAns.isEmpty then 1 else 0) := rfl
@[simp] theorem State.dropStatus_trace : s.dropStatus.trace = s.trace := rfl
@[simp] theorem State.dropStatus_response : s.dropStatus.response = s.response := rfl
@[simp] theorem State.dropStatus_host : s.dropStatus.host = s.host := rfl

/-! ### dropBytes -/

@[simp] theorem State.dropBytes_cfg : s.dropBytes.cfg = s.cfg := rfl
@[simp] theorem State.dropBytes_zoff : s.dropBytes.zoff = s.zoff := rfl
@[simp] theorem State.dropBytes_sfac : s.dropBytes.sfac = s.sfac := rfl
@[simp] theorem State.dropBytes_calok : s.dropBytes.calok = s.calok := rfl
@[simp] theorem State.dropBytes_caldet : s.dropBytes.caldet = s.caldet := rfl
@[simp] theorem State.dropBytes_status : s.dropBytes.status = s.status := rfl
@[simp] theorem State.dropBytes_res : s.dropBytes.res = s.res := rfl
@[simp] theorem State.dropBytes_aux : s.dropBytes.aux = s.aux := rfl
@[simp] theorem State.dropBytes_seq : s.dropBytes.seq = s.seq := rfl
@[simp] theorem State.dropBytes_work : s.dropBytes.work = s.work := rfl
@[simp] theorem State.dropBytes_nvm : s.dropBytes.nvm = s.nvm := rfl
@[simp] theorem State.dropBytes_clock : s.dropBytes.clock = s.clock := rfl
@[simp] theorem State.dropBytes_writeAns : s.dropBytes.writeAns = s.writeAns := rfl
@[simp] theorem State.dropBytes_readAns : s.dropBytes.readAns = s.readAns.tail := rfl
@[simp] theorem State.dropBytes_delays : s.dropBytes.delays = s.delays := rfl
@[simp] theorem State.dropBytes_draws : s.dropBytes.draws = s.draws + (if s.readAns.isEmpty then 1 else 0) := rfl
@[simp] theorem State.dropBytes_trace : s.dropBytes.trace = s.trace := rfl
@[simp] theorem State.dropBytes_response : s.dropBytes.response = s.response := rfl
@[simp] theorem State.dropBytes_host : s.dropBytes.host = s.host := rfl

/-! ### dropDelay -/

@[simp] theorem State.dropDelay_cfg : s.dropDelay.cfg = s.cfg := rfl
@[simp] theorem State.dropDelay_zoff : s.dropDelay.zoff = s.zoff := rfl
@[simp] theorem State.dropDelay_sfac : s.dropDelay.sfac = s.sfac := rfl
@[simp] theorem State.dropDelay_calok : s.dropDelay.calok = s.calok := rfl
@[simp] theorem State.dropDelay_caldet : s.dropDelay.caldet = s.caldet := rfl
@[simp] theorem State.dropDelay_status : s.dropDelay.status = s.status := rfl
@[simp] theorem State.dropDelay_res : s.dropDelay.res = s.res := rfl
@[simp] theorem State.dropDelay_aux : s.dropDelay.aux = s.aux := rfl
@[simp] theorem State.dropDelay_seq : s.dropDelay.seq = s.seq := rfl
@[simp] theorem State.dropDelay_work : s.dropDelay.work = s.work := rfl
@[simp] theorem State.dropDelay_nvm : s.dropDelay.nvm = s.nvm := rfl
@[simp] theorem State.dropDelay_clock : s.dropDelay.clock = s.clock := rfl
@[simp] theorem State.dropDelay_writeAns : s.dropDelay.writeAns = s.writeAns := rfl
@[simp] theorem State.dropDelay_readAns : s.dropDelay.readAns = s.readAns := rfl
@[simp] theorem State.dropDelay_delays : s.dropDelay.delays = s.delays.tail := rfl
@[simp] theorem State.dropDelay_draws : s.dropDelay.draws = s.draws + (if s.delays.isEmpty then 1 else 0) := rfl
@[simp] theorem State.dropDelay_trace : s.dropDelay.trace = s.trace := rfl
@[simp] theorem State.dropDelay_response : s.dropDelay.response = s.response := rfl
@[simp] theorem State.dropDelay_host : s.dropDelay.host = s.host := rfl

/-! ### countEvent -/

@[simp] theorem State.countEvent_cfg : s.countEvent.cfg = s.cfg := rfl
@[simp] theorem State.countEvent_zoff : s.countEvent.zoff = s.zoff := rfl
@[simp] theorem State.countEvent_sfac : s.countEvent.sfac = s.sfac := rfl
@[simp] theorem State.countEvent_calok : s.countEvent.calok = s.calok := rfl
@[simp] theorem State.countEvent_caldet : s.countEvent.caldet = s.caldet := rfl
@[simp] theorem State.countEvent_status : s.countEvent.status = s.status := rfl
@[simp] theorem State.countEvent_res : s.countEvent.res = s.res := rfl
@[simp] theorem State.countEvent_aux : s.countEvent.aux = s.aux := rfl
@[simp] theorem State.countEvent_seq : s.countEvent.seq = s.seq := rfl
@[simp] theorem State.countEvent_work : s.countEvent.work = s.work := rfl
@[simp] theorem State.countEvent_nvm : s.countEvent.nvm = s.nvm := rfl
@[simp] theorem State.countEvent_clock : s.countEvent.clock = s.clock := rfl
@[simp] theorem State.countEvent_writeAns : s.countEvent.writeAns = s.writeAns := rfl
@[simp] theorem State.countEvent_readAns : s.countEvent.readAns = s.readAns := rfl
@[simp] theorem State.countEvent_delays : s.countEvent.delays = s.delays := rfl
@[simp] theorem State.countEvent_draws : s.countEvent.draws = s.draws := rfl
@[simp] theorem State.countEvent_trace : s.countEvent.trace = s.trace := rfl
@[simp] theorem State.countEvent_response : s.countEvent.response = s.response := rfl
@[simp] theorem State.countEvent_host : s.countEvent.host = countMove s.host := rfl

end Sys2Proof.Machine
end

