-- ==== Sys2Proof/Laws/Memory.lean ====
section
/-! SUPPORT. The laws of the storage: a read after a write, the canonical form, and its uniqueness. -/

set_option Elab.async false

namespace Sys2Proof.Machine

theorem Memory.wf_cons {a : Nat} {v : Byte} {m : Memory} :
    Memory.wf ((a, v) :: m) = true ↔
      v ≠ Memory.unlisted ∧ (∀ c ∈ m, a < c.1) ∧ Memory.wf m = true := by
  simp [Memory.wf, and_assoc]

theorem Memory.read_cons (b : Nat) (w : Byte) (m : Memory) (a : Nat) :
    Memory.read ((b, w) :: m) a = if b = a then w else m.read a := rfl

/-- An address that no entry has reads as unlisted. -/
theorem Memory.read_of_forall_ne {m : Memory} {a : Nat} (h : ∀ c ∈ m, c.1 ≠ a) :
    m.read a = Memory.unlisted := by
  induction m with
  | nil => rfl
  | cons c m ih =>
    obtain ⟨b, w⟩ := c
    have hb : b ≠ a := h (b, w) (by simp)
    rw [Memory.read_cons, if_neg hb]
    exact ih fun c hc => h c (by simp [hc])

theorem Memory.read_below {m : Memory} {a : Nat} (h : ∀ c ∈ m, a < c.1) : m.read a = Memory.unlisted :=
  Memory.read_of_forall_ne fun c hc => (h c hc).ne'

/-- A write changes no other address. -/
theorem Memory.read_write_other (m : Memory) {a b : Nat} (v : Byte) (h : b ≠ a) :
    (m.write a v).read b = m.read b := by
  induction m with
  | nil => simp only [Memory.write]; split <;> simp [Memory.read, h.symm]
  | cons c m ih =>
    obtain ⟨k, w⟩ := c
    simp only [Memory.write]
    split_ifs with h1 h2 h3 h4
    · rfl
    · rw [Memory.read_cons, if_neg h.symm]
    · subst h3; rw [Memory.read_cons, if_neg h.symm]
    · subst h3; simp only [Memory.read_cons, if_neg h.symm]
    · simp only [Memory.read_cons, ih]

/-- A read after a write to the same place gives the value written. -/
theorem Memory.read_write_same {m : Memory} (hm : m.wf = true) (a : Nat) (v : Byte) :
    (m.write a v).read a = v := by
  induction m with
  | nil => simp only [Memory.write]; split <;> simp_all [Memory.read]
  | cons c m ih =>
    obtain ⟨k, w⟩ := c
    obtain ⟨-, hlt, hwf⟩ := Memory.wf_cons.1 hm
    simp only [Memory.write]
    split_ifs with h1 h2 h3 h4
    · rw [h2, Memory.read_cons, if_neg (by omega)]
      exact Memory.read_below fun c hc => by have := hlt c hc; omega
    · rw [Memory.read_cons, if_pos rfl]
    · subst h3 h4; exact Memory.read_below hlt
    · rw [Memory.read_cons, if_pos rfl]
    · rw [Memory.read_cons, if_neg (by omega)]
      exact ih hwf

/-- The entries after a write are the written one and old ones. -/
theorem Memory.mem_write {m : Memory} {a : Nat} {v : Byte} {c : Host.Cell} (h : c ∈ m.write a v) :
    c = (a, v) ∨ c ∈ m := by
  induction m with
  | nil => simp only [Memory.write] at h; split at h <;> simp_all
  | cons d m ih =>
    obtain ⟨k, w⟩ := d
    simp only [Memory.write] at h
    split_ifs at h with h1 h2 h3 h4
    · exact .inr h
    · simpa using h
    · exact .inr (by simp [h])
    · rcases List.mem_cons.1 h with h | h
      · exact .inl h
      · exact .inr (by simp [h])
    · rcases List.mem_cons.1 h with h | h
      · exact .inr (by simp [h])
      · rcases ih h with h | h
        · exact .inl h
        · exact .inr (by simp [h])

/-- A write keeps the canonical form. -/
theorem Memory.wf_write {m : Memory} (hm : m.wf = true) (a : Nat) (v : Byte) : (m.write a v).wf = true := by
  induction m with
  | nil => simp only [Memory.write]; split <;> simp_all [Memory.wf]
  | cons c m ih =>
    obtain ⟨k, w⟩ := c
    obtain ⟨hw, hlt, hwf⟩ := Memory.wf_cons.1 hm
    simp only [Memory.write]
    split_ifs with h1 h2 h3 h4
    · exact hm
    · refine Memory.wf_cons.2 ⟨h2, fun c hc => ?_, hm⟩
      rcases List.mem_cons.1 hc with rfl | hc
      · exact h1
      · exact h1.trans (hlt c hc)
    · exact hwf
    · subst h3; exact Memory.wf_cons.2 ⟨h4, hlt, hwf⟩
    · refine Memory.wf_cons.2 ⟨hw, fun c hc => ?_, ih hwf⟩
      rcases Memory.mem_write hc with rfl | hc
      · simp only; omega
      · exact hlt c hc

/-- A write of consecutive bytes keeps the canonical form. -/
theorem Memory.wf_writeBytes {m : Memory} (hm : m.wf = true) (a : Nat) (bytes : List Byte) :
    (m.writeBytes a bytes).wf = true := by
  induction bytes generalizing m a with
  | nil => exact hm
  | cons v vs ih => exact ih (Memory.wf_write hm a v) (a + 1)

theorem Memory.wf_reset : State.reset.nvm.wf = true := rfl

/-- A write of consecutive bytes changes no address outside them. -/
theorem Memory.read_writeBytes_outside (m : Memory) {a b : Nat} (bytes : List Byte)
    (h : b < a ∨ a + bytes.length ≤ b) : (m.writeBytes a bytes).read b = m.read b := by
  induction bytes generalizing m a with
  | nil => rfl
  | cons v vs ih =>
    simp only [List.length_cons] at h
    rw [Memory.writeBytes, ih _ (by omega), Memory.read_write_other _ _ (by omega)]

/-- A read inside bytes just written gives the byte written there. -/
theorem Memory.read_writeBytes_inside {m : Memory} (hm : m.wf = true) (a k : Nat) (bytes : List Byte)
    (h : k < bytes.length) : (m.writeBytes a bytes).read (a + k) = bytes[k] := by
  induction bytes generalizing m a k with
  | nil => simp at h
  | cons v vs ih =>
    cases k with
    | zero =>
      rw [Nat.add_zero, Memory.writeBytes, Memory.read_writeBytes_outside _ _ (.inl (Nat.lt_add_one a)),
        Memory.read_write_same hm]
      rfl
    | succ k =>
      have := ih (Memory.wf_write hm a v) (a + 1) k (by simpa using h)
      rw [Memory.writeBytes, ← Nat.add_assoc, Nat.add_right_comm, this]
      rfl

/-- What was put is what a get of as many bytes answers. -/
theorem Memory.readBytes_writeBytes {m : Memory} (hm : m.wf = true) (a : Nat) (bytes : List Byte) :
    (m.writeBytes a bytes).readBytes a bytes.length = bytes := by
  apply List.ext_getElem
  · simp [Memory.readBytes]
  · intro k h1 h2
    simp only [Memory.readBytes, List.getElem_map, List.getElem_range]
    exact Memory.read_writeBytes_inside hm a k bytes h2

/-- A put elsewhere changes no byte a get reads. -/
theorem Memory.readBytes_writeBytes_outside (m : Memory) (a b n : Nat) (bytes : List Byte)
    (h : b + n ≤ a ∨ a + bytes.length ≤ b) : (m.writeBytes a bytes).readBytes b n = m.readBytes b n := by
  refine List.map_congr_left fun k hk => ?_
  have := List.mem_range.1 hk
  exact Memory.read_writeBytes_outside m bytes (by omega)

end Sys2Proof.Machine
end

