-- ==== Sys2Proof/Laws/Cmd.lean ====
section
/-! SUPPORT. How pieces of a command compose, and what each event and primitive does when no reset cuts the command and
the environment's script gives its answers. -/

set_option Elab.async false

namespace Sys2Proof.Machine

section Compose

variable {α β : Type} (s : State)

@[simp] theorem Progress.state_done (a : α) : (Progress.done a s).state = s := rfl
@[simp] theorem Progress.state_stop (why : Stop) : (Progress.stop why s : Progress α).state = s := rfl

@[simp] theorem Cmd.pure_apply (a : α) : Cmd.pure a s = .done a s := rfl
@[simp] theorem Cmd.raise_apply (e : Err) : (Cmd.raise e : Cmd α) s = .stop (.raised e) s := rfl
@[simp] theorem Cmd.suspend_apply : (Cmd.suspend : Cmd α) s = .stop .suspended s := rfl
@[simp] theorem Cmd.get_apply (f : State → α) : Cmd.get f s = .done (f s) s := rfl
@[simp] theorem Cmd.set_apply (f : State → State) : Cmd.set f s = .done () (f s) := rfl

theorem Cmd.bind_of_done {c : Cmd α} {k : α → Cmd β} {s s' : State} {a : α} (h : c s = .done a s') :
    c.bind k s = k a s' := by simp only [Cmd.bind, h]

theorem Cmd.bind_of_stop {c : Cmd α} {k : α → Cmd β} {s s' : State} {why : Stop} (h : c s = .stop why s') :
    c.bind k s = .stop why s' := by simp only [Cmd.bind, h]

theorem Cmd.next_of_done {c : Cmd α} {d : Cmd β} {s s' : State} {a : α} (h : c s = .done a s') :
    c.next d s = d s' := Cmd.bind_of_done h

theorem Cmd.next_of_stop {c : Cmd α} {d : Cmd β} {s s' : State} {why : Stop} (h : c s = .stop why s') :
    c.next d s = .stop why s' := Cmd.bind_of_stop h

@[simp] theorem Cmd.bind_pure (a : α) (k : α → Cmd β) : (Cmd.pure a).bind k s = k a s := rfl
@[simp] theorem Cmd.bind_get (f : State → α) (k : α → Cmd β) : (Cmd.get f).bind k s = k (f s) s := rfl
@[simp] theorem Cmd.bind_raise (e : Err) (k : α → Cmd β) : (Cmd.raise e : Cmd α).bind k s = .stop (.raised e) s := rfl
@[simp] theorem Cmd.next_pure (a : α) (d : Cmd β) : (Cmd.pure a).next d s = d s := rfl
@[simp] theorem Cmd.next_set (f : State → State) (d : Cmd β) : (Cmd.set f).next d s = d (f s) := rfl
@[simp] theorem Cmd.next_raise (e : Err) (d : Cmd β) : (Cmd.raise e : Cmd α).next d s = .stop (.raised e) s := rfl

/-- Composition is associative. -/
theorem Cmd.bind_bind {γ : Type} (c : Cmd α) (k : α → Cmd β) (l : β → Cmd γ) :
    (c.bind k).bind l = c.bind fun a => (k a).bind l := by
  funext s; simp only [Cmd.bind]; cases c s <;> rfl

end Compose

/-! ### Events when no reset is due -/

theorem State.resetDue_of_quiet {s : State} (h : s.quiet = true) : s.resetDue = false := by
  unfold State.quiet at h; unfold State.resetDue
  split at h <;> simp_all

theorem countMove_of_quiet {s : State} (h : s.quiet = true) : countMove s.host = s.host := by
  unfold State.quiet at h; unfold countMove
  split at h <;> simp_all

theorem State.countEvent_of_quiet {s : State} (h : s.quiet = true) : s.countEvent = s := by
  simp only [State.countEvent, countMove_of_quiet h]

/-- An event when the host's next move is not a reset. -/
theorem perform_quiet {α : Type} {s : State} (h : s.quiet = true) (answer : State → α) (effect : State → State) :
    perform answer effect s = .done (answer s) (effect s) := by
  simp only [perform, State.resetDue_of_quiet h, State.countEvent_of_quiet h, Bool.false_eq_true, if_false]

/-- An event when the host asserts reset now: nothing happens. -/
theorem perform_resetDue {α : Type} {s : State} (h : s.resetDue = true) (answer : State → α) (effect : State → State) :
    perform answer effect s = .stop .resetCut s := by
  simp only [perform, h, if_true]

/-- The end of a command whose last state has no reset due. -/
theorem concludeWith_of_not_due {r : Progress Word} (h : r.state.resetDue = false) (aux : State → State) :
    concludeWith aux r = deliver aux r := by simp [concludeWith, h]

/-- The end of a command with a reset due, whatever it came to. -/
theorem concludeWith_of_due {r : Progress Word} (h : r.state.resetDue = true) (aux : State → State) :
    concludeWith aux r = r.state.assertReset := by simp [concludeWith, h]

/-- A command that comes to its value is answered with it. -/
theorem runCommand_of_done {c : Cmd Word} {s t : State} {a : Word} (h : c s.accept = .done a t) (hq : t.quiet = true) :
    runCommand c s = .next (t.clearAux.respond 0 a) := by
  rw [runCommand, h, conclude, concludeWith_of_not_due (r := .done a t) (State.resetDue_of_quiet hq)]; rfl

/-- A command that raises an error is answered with it. -/
theorem runCommand_of_raised {c : Cmd Word} {s t : State} {e : Err} (h : c s.accept = .stop (.raised e) t)
    (hq : t.quiet = true) : runCommand c s = .next (t.clearAux.takeError e) := by
  rw [runCommand, h, conclude, concludeWith_of_not_due (r := .stop (.raised e) t) (State.resetDue_of_quiet hq)]; rfl

/-- A command with a reset due when it ends is cut, whatever it came to (R230). -/
theorem runCommand_of_due {c : Cmd Word} {s : State} (h : (c s.accept).state.resetDue = true) :
    runCommand c s = .next (c s.accept).state.assertReset := by
  rw [runCommand, conclude, concludeWith_of_due h]

/-- A wait that goes on ends the step and is answered with nothing (log 11). -/
theorem runCommand_of_suspended {c : Cmd Word} {s t : State} (h : c s.accept = .stop .suspended t)
    (hq : t.quiet = true) : runCommand c s = .next t := by
  rw [runCommand, h, conclude, concludeWith_of_not_due (r := .stop .suspended t) (State.resetDue_of_quiet hq)]; rfl

/-- A command with a place with no result, when no reset is due there. -/
theorem runOrFault_of_done {α : Type} {c : Cmd α} {s t : State} {a : α} (h : c s.accept = .done a t)
    (hq : t.resetDue = false) (check : α → State → Option Fault) (k : α → Cmd Word) :
    runOrFault c check k s =
      match check a t with
      | some f => .fault f
      | none => .next (conclude (k a t)) := by
  simp only [runOrFault, h, hq, Bool.false_eq_true, if_false] <;> cases check a t <;> rfl

/-! ### One update for everything a piece of a command on the sensor changes -/

/-- `s` after a piece of a command: the answers still to come, the clock, the events added, the working registers. -/
def State.ran (s : State) (ws : List BusStatus) (rs : List (List Byte)) (ds : List Nat) (clk : Nat)
    (events : List Event) (w : Work) : State :=
  { s with writeAns := ws, readAns := rs, delays := ds, clock := clk, trace := s.trace ++ events, work := w }

section Ran

variable (s : State) (ws : List BusStatus) (rs : List (List Byte)) (ds : List Nat) (clk : Nat) (events : List Event)
  (w : Work)

@[simp] theorem State.ran_cfg : (s.ran ws rs ds clk events w).cfg = s.cfg := rfl
@[simp] theorem State.ran_zoff : (s.ran ws rs ds clk events w).zoff = s.zoff := rfl
@[simp] theorem State.ran_sfac : (s.ran ws rs ds clk events w).sfac = s.sfac := rfl
@[simp] theorem State.ran_calok : (s.ran ws rs ds clk events w).calok = s.calok := rfl
@[simp] theorem State.ran_caldet : (s.ran ws rs ds clk events w).caldet = s.caldet := rfl
@[simp] theorem State.ran_status : (s.ran ws rs ds clk events w).status = s.status := rfl
@[simp] theorem State.ran_res : (s.ran ws rs ds clk events w).res = s.res := rfl
@[simp] theorem State.ran_aux : (s.ran ws rs ds clk events w).aux = s.aux := rfl
@[simp] theorem State.ran_seq : (s.ran ws rs ds clk events w).seq = s.seq := rfl
@[simp] theorem State.ran_work : (s.ran ws rs ds clk events w).work = w := rfl
@[simp] theorem State.ran_nvm : (s.ran ws rs ds clk events w).nvm = s.nvm := rfl
@[simp] theorem State.ran_clock : (s.ran ws rs ds clk events w).clock = clk := rfl
@[simp] theorem State.ran_writeAns : (s.ran ws rs ds clk events w).writeAns = ws := rfl
@[simp] theorem State.ran_readAns : (s.ran ws rs ds clk events w).readAns = rs := rfl
@[simp] theorem State.ran_delays : (s.ran ws rs ds clk events w).delays = ds := rfl
@[simp] theorem State.ran_draws : (s.ran ws rs ds clk events w).draws = s.draws := rfl
@[simp] theorem State.ran_trace : (s.ran ws rs ds clk events w).trace = s.trace ++ events := rfl
@[simp] theorem State.ran_response : (s.ran ws rs ds clk events w).response = s.response := rfl
@[simp] theorem State.ran_host : (s.ran ws rs ds clk events w).host = s.host := rfl
@[simp] theorem State.ran_quiet : (s.ran ws rs ds clk events w).quiet = s.quiet := rfl

/-- Two pieces, one after the other. -/
@[simp] theorem State.ran_ran (ws' : List BusStatus) (rs' : List (List Byte)) (ds' : List Nat) (clk' : Nat)
    (events' : List Event) (w' : Work) :
    (s.ran ws rs ds clk events w).ran ws' rs' ds' clk' events' w' =
      s.ran ws' rs' ds' clk' (events ++ events') w' := by
  simp [State.ran, List.append_assoc]

/-- A write of working registers alone. -/
theorem State.setWork_eq_ran :
    { s with work := w } = s.ran s.writeAns s.readAns s.delays s.clock [] w := by simp [State.ran]

end Ran

@[simp] theorem setTb_apply (s : State) (b : Byte) :
    setTb b s = .done () (s.ran s.writeAns s.readAns s.delays s.clock [] { s.work with tb := b }) := by
  simp [setTb, State.ran]

@[simp] theorem countAttempt_apply (s : State) :
    countAttempt s =
      .done () (s.ran s.writeAns s.readAns s.delays s.clock [] { s.work with att := s.work.att + 1 }) := by
  simp [countAttempt, State.ran]

@[simp] theorem clearAttempts_apply (s : State) :
    clearAttempts s = .done () (s.ran s.writeAns s.readAns s.delays s.clock [] { s.work with att := 0 }) := by
  simp [clearAttempts, State.ran]

theorem busWrite_script {s : State} {st : BusStatus} {ws : List BusStatus} (hq : s.quiet = true)
    (h : s.writeAns = st :: ws) (bytes : List Byte) :
    busWrite bytes s =
      .done st (s.ran ws s.readAns s.delays s.clock [.busWrite s.cfg.devAddr bytes st] s.work) := by
  simp [busWrite, perform_quiet hq, State.nextStatus, State.dropStatus, State.record, State.ran, h]

theorem busRead_script {s : State} {bs : List Byte} {rs : List (List Byte)} (hq : s.quiet = true)
    (h : s.readAns = bs :: rs) (n : Nat) :
    busRead n s =
      .done (bs.take n)
        (s.ran s.writeAns rs s.delays s.clock [.busRead s.cfg.devAddr n (bs.take n)] s.work) := by
  simp [busRead, perform_quiet hq, State.nextBytes, State.dropBytes, State.record, State.ran, h]

theorem now_script {s : State} {d : Nat} {ds : List Nat} (hq : s.quiet = true) (h : s.delays = d :: ds) :
    now s =
      .done (s.clock + d) (s.ran s.writeAns s.readAns ds (s.clock + d) [.now (s.clock + d)] s.work) := by
  simp [now, perform_quiet hq, State.nextTime, State.dropDelay, State.record, State.ran, h]

theorem idle_quiet {s : State} (hq : s.quiet = true) (d : Nat) :
    idle d s = .done () (s.ran s.writeAns s.readAns s.delays (s.clock + d) [.idle d] s.work) := by
  simp [idle, perform_quiet hq, State.record, State.ran]

theorem nvmGet_quiet {s : State} (hq : s.quiet = true) (a : Nat) :
    nvmGet a s =
      .done (s.nvm.readBytes a 4)
        (s.ran s.writeAns s.readAns s.delays s.clock [.nvmGet a (s.nvm.readBytes a 4)] s.work) := by
  simp [nvmGet, perform_quiet hq, State.record, State.ran]

/-- The bytes are in the storage and the put has been observed. -/
def State.putNvm (s : State) (a : Nat) (bytes : List Byte) : State :=
  { s with nvm := s.nvm.writeBytes a bytes, trace := s.trace ++ [.nvmPut a bytes] }

section PutNvm

variable (s : State) (a : Nat) (bytes : List Byte)

@[simp] theorem State.putNvm_cfg : (s.putNvm a bytes).cfg = s.cfg := rfl
@[simp] theorem State.putNvm_zoff : (s.putNvm a bytes).zoff = s.zoff := rfl
@[simp] theorem State.putNvm_sfac : (s.putNvm a bytes).sfac = s.sfac := rfl
@[simp] theorem State.putNvm_calok : (s.putNvm a bytes).calok = s.calok := rfl
@[simp] theorem State.putNvm_caldet : (s.putNvm a bytes).caldet = s.caldet := rfl
@[simp] theorem State.putNvm_status : (s.putNvm a bytes).status = s.status := rfl
@[simp] theorem State.putNvm_res : (s.putNvm a bytes).res = s.res := rfl
@[simp] theorem State.putNvm_aux : (s.putNvm a bytes).aux = s.aux := rfl
@[simp] theorem State.putNvm_seq : (s.putNvm a bytes).seq = s.seq := rfl
@[simp] theorem State.putNvm_work : (s.putNvm a bytes).work = s.work := rfl
@[simp] theorem State.putNvm_nvm : (s.putNvm a bytes).nvm = s.nvm.writeBytes a bytes := rfl
@[simp] theorem State.putNvm_clock : (s.putNvm a bytes).clock = s.clock := rfl
@[simp] theorem State.putNvm_writeAns : (s.putNvm a bytes).writeAns = s.writeAns := rfl
@[simp] theorem State.putNvm_readAns : (s.putNvm a bytes).readAns = s.readAns := rfl
@[simp] theorem State.putNvm_delays : (s.putNvm a bytes).delays = s.delays := rfl
@[simp] theorem State.putNvm_draws : (s.putNvm a bytes).draws = s.draws := rfl
@[simp] theorem State.putNvm_trace : (s.putNvm a bytes).trace = s.trace ++ [.nvmPut a bytes] := rfl
@[simp] theorem State.putNvm_response : (s.putNvm a bytes).response = s.response := rfl
@[simp] theorem State.putNvm_host : (s.putNvm a bytes).host = s.host := rfl
@[simp] theorem State.putNvm_quiet : (s.putNvm a bytes).quiet = s.quiet := rfl

end PutNvm

theorem nvmPut_quiet {s : State} (hq : s.quiet = true) (a : Nat) (bytes : List Byte) :
    nvmPut a bytes s = .done () (s.putNvm a bytes) := by
  simp [nvmPut, perform_quiet hq, State.record, State.putNvm]

theorem memReadNvm_quiet {s : State} (hq : s.quiet = true) (a : Nat) :
    memReadNvm a s =
      .done (wordOf s.cfg.nvmOrder (s.nvm.readBytes a 4))
        (s.ran s.writeAns s.readAns s.delays s.clock [.nvmGet a (s.nvm.readBytes a 4)] s.work) := by
  rw [memReadNvm, Cmd.bind_of_done (nvmGet_quiet hq a)]; rfl

theorem memWriteNvm_quiet {s : State} (hq : s.quiet = true) (a : Nat) (w : Word) :
    memWriteNvm a w s = .done () (s.putNvm a (bytesOf s.cfg.nvmOrder w)) :=
  nvmPut_quiet hq a _

/-! ### Register primitives with a script -/

@[simp] theorem checkStatus_success (s : State) : checkStatus .success s = .done () s := rfl

theorem checkStatus_error {st : BusStatus} {e : Err} (h : comm st = some e) (s : State) :
    checkStatus st s = .stop (.raised e) s := by simp only [checkStatus, h]; rfl

/-- How a command goes on after a transaction that ended with `st`. -/
theorem checkStatus_eq (st : BusStatus) (s : State) :
    checkStatus st s = match comm st with
      | none => .done () s
      | some e => .stop (.raised e) s := by
  unfold checkStatus; cases comm st <;> rfl

theorem comm_eq_none {st : BusStatus} : comm st = none ↔ st = .success := by cases st <;> simp [comm]

/-- A register read whose pointer write and read work (R53). -/
theorem memReadDev_script {s : State} {bs : List Byte} {ws : List BusStatus} {rs : List (List Byte)} {n : Nat}
    (hq : s.quiet = true) (hw : s.writeAns = .success :: ws) (hr : s.readAns = bs :: rs) (hn : bs.length = n)
    (a : Byte) :
    memReadDev a n s =
      .done bs (s.ran ws rs s.delays s.clock (readRegEvents s.cfg a bs) s.work) := by
  subst hn
  rw [memReadDev, Cmd.bind_of_done (busWrite_script hq hw [a]), Cmd.next_of_done (checkStatus_success _),
    Cmd.bind_of_done (busRead_script (by simpa using hq) (by simpa using hr) _)]
  simp [readRegEvents]

/-- A register read whose pointer write fails: one event, no read, no retry (R53). -/
theorem memReadDev_nack {s : State} {st : BusStatus} {e : Err} {ws : List BusStatus} (hq : s.quiet = true)
    (hw : s.writeAns = st :: ws) (he : comm st = some e) (a : Byte) (n : Nat) :
    memReadDev a n s =
      .stop (.raised e) (s.ran ws s.readAns s.delays s.clock [.busWrite s.cfg.devAddr [a] st] s.work) := by
  rw [memReadDev, Cmd.bind_of_done (busWrite_script hq hw [a]), Cmd.next_of_stop (checkStatus_error he _)]

/-- A register read that answers fewer bytes than requested (R53). -/
theorem memReadDev_short {s : State} {bs : List Byte} {ws : List BusStatus} {rs : List (List Byte)} {n : Nat}
    (hq : s.quiet = true) (hw : s.writeAns = .success :: ws) (hr : s.readAns = bs :: rs) (hn : bs.length < n)
    (a : Byte) :
    memReadDev a n s =
      .stop (.raised .noData)
        (s.ran ws rs s.delays s.clock
          [.busWrite s.cfg.devAddr [a] .success, .busRead s.cfg.devAddr n bs] s.work) := by
  have ht : bs.take n = bs := List.take_of_length_le hn.le
  rw [memReadDev, Cmd.bind_of_done (busWrite_script hq hw [a]), Cmd.next_of_done (checkStatus_success _),
    Cmd.bind_of_done (busRead_script (by simpa using hq) (by simpa using hr) _), ht, if_pos hn]
  simp

theorem ReadFailure.statuses_ne_nil (f : ReadFailure) : f.statuses ≠ [] := by cases f <;> exact List.cons_ne_nil _ _

/-- A register read that fails, in either way (R53). -/
theorem memReadDev_fails {s : State} {f : ReadFailure} {e : Err} {ws : List BusStatus} {rs : List (List Byte)} {n : Nat}
    (hq : s.quiet = true) (hw : s.writeAns = f.statuses ++ ws) (hr : s.readAns = f.reads ++ rs) (hf : f.Raises n e)
    (a : Byte) :
    memReadDev a n s = .stop (.raised e) (s.ran ws rs s.delays s.clock (f.events s.cfg a n) s.work) := by
  cases f with
  | pointer st =>
    obtain rfl : s.readAns = rs := hr
    exact memReadDev_nack hq hw hf a n
  | short bs =>
    obtain ⟨hn, rfl⟩ := hf
    exact memReadDev_short hq hw hr hn a

/-- One byte of a register, read without failure. -/
theorem readReg_script {s : State} {b : Byte} {ws : List BusStatus} {rs : List (List Byte)} (hq : s.quiet = true)
    (hw : s.writeAns = .success :: ws) (hr : s.readAns = [b] :: rs) (a : Byte) :
    readReg a s = .done b (s.ran ws rs s.delays s.clock (readRegEvents s.cfg a [b]) s.work) := by
  rw [readReg, Cmd.bind_of_done (memReadDev_script (n := 1) hq hw hr rfl a)]; rfl

/-- A register read whose pointer write fails. -/
theorem readReg_nack {s : State} {st : BusStatus} {e : Err} {ws : List BusStatus} (hq : s.quiet = true)
    (hw : s.writeAns = st :: ws) (he : comm st = some e) (a : Byte) :
    readReg a s =
      .stop (.raised e) (s.ran ws s.readAns s.delays s.clock [.busWrite s.cfg.devAddr [a] st] s.work) :=
  Cmd.bind_of_stop (memReadDev_nack hq hw he a 1)

/-- A register read that answers no byte. -/
theorem readReg_short {s : State} {ws : List BusStatus} {rs : List (List Byte)} (hq : s.quiet = true)
    (hw : s.writeAns = .success :: ws) (hr : s.readAns = [] :: rs) (a : Byte) :
    readReg a s =
      .stop (.raised .noData)
        (s.ran ws rs s.delays s.clock
          [.busWrite s.cfg.devAddr [a] .success, .busRead s.cfg.devAddr 1 []] s.work) :=
  Cmd.bind_of_stop (memReadDev_short hq hw hr Nat.zero_lt_one a)

/-- One attempt. -/
theorem attempt_script {s : State} {st : BusStatus} {ws : List BusStatus} (hq : s.quiet = true)
    (hw : s.writeAns = st :: ws) (bytes : List Byte) :
    attempt bytes s =
      .done st (s.ran ws s.readAns s.delays s.clock [.busWrite s.cfg.devAddr bytes st]
        { s.work with att := s.work.att + 1 }) := by
  rw [attempt, Cmd.bind_of_done (busWrite_script hq hw bytes), Cmd.next_of_done (countAttempt_apply _)]
  simp

/-- One attempt of a register write. -/
theorem writeAttempt_script {s : State} {st : BusStatus} {ws : List BusStatus} (hq : s.quiet = true)
    (hw : s.writeAns = st :: ws) (a v : Byte) :
    writeAttempt a v s =
      .done st (s.ran ws s.readAns s.delays s.clock [wroteReg s.cfg a v st]
        { s.work with att := s.work.att + 1 }) := attempt_script hq hw [a, v]

/-- A register write with the outcomes it uses of `x`, `y`, `z` (R54). -/
theorem memWriteDev_script {s : State} {x y z : BusStatus} {ws : List BusStatus} (hq : s.quiet = true)
    (hw : s.writeAns = attemptsUsed x y z ++ ws) (a v : Byte) :
    memWriteDev a v s = checkStatus (lastAttempt x y z)
      (s.ran ws s.readAns s.delays s.clock ((attemptsUsed x y z).map (wroteReg s.cfg a v))
        { s.work with att := BitVec.ofNat 2 (attemptsUsed x y z).length }) := by
  rw [memWriteDev, Cmd.next_of_done (clearAttempts_apply _)]
  simp only [Config.wrAttempts, Nat.add_one_sub_one, writeAttempts]
  by_cases hx : isNack x = true <;> by_cases hy : isNack y = true <;>
    simp only [attemptsUsed, lastAttempt, hx, hy, if_true, if_false, Bool.false_eq_true, List.cons_append,
      List.nil_append] at hw ⊢
  · rw [Cmd.bind_of_done (writeAttempt_script (by simpa using hq) (by simpa using hw) a v), if_pos hx,
      Cmd.bind_of_done (writeAttempt_script (by simpa using hq) (State.ran_writeAns ..) a v), if_pos hy,
      Cmd.bind_of_done (writeAttempt_script (by simpa using hq) (State.ran_writeAns ..) a v)]
    simp
  · rw [Cmd.bind_of_done (writeAttempt_script (by simpa using hq) (by simpa using hw) a v), if_pos hx,
      Cmd.bind_of_done (writeAttempt_script (by simpa using hq) (State.ran_writeAns ..) a v), if_neg hy]
    simp
  · rw [Cmd.bind_of_done (writeAttempt_script (by simpa using hq) (by simpa using hw) a v), if_neg hx]; simp
  · rw [Cmd.bind_of_done (writeAttempt_script (by simpa using hq) (by simpa using hw) a v), if_neg hx]; simp

/-- A register write that works at the first attempt. -/
theorem memWriteDev_success {s : State} {ws : List BusStatus} (hq : s.quiet = true)
    (hw : s.writeAns = .success :: ws) (a v : Byte) :
    memWriteDev a v s =
      .done () (s.ran ws s.readAns s.delays s.clock [wroteReg s.cfg a v .success] { s.work with att := 1 }) :=
  memWriteDev_script (x := .success) (y := .success) (z := .success) hq hw a v

/-- The probe that is acknowledged at once (R55). -/
theorem probe_success {s : State} {ws : List BusStatus} (hq : s.quiet = true) (hw : s.writeAns = .success :: ws) :
    probe s = .done () (s.ran ws s.readAns s.delays s.clock [.busWrite s.cfg.devAddr [] .success]
      { s.work with att := 1 }) := by
  rw [probe, Cmd.next_of_done (clearAttempts_apply _),
    Cmd.bind_of_done (attempt_script (by simpa using hq) (by simpa using hw) [])]
  simp

/-- The probe whose first transaction fails ends as the second does (R55). -/
theorem probe_retries {s : State} {x y : BusStatus} {ws : List BusStatus} (hq : s.quiet = true) (hx : x ≠ .success)
    (hw : s.writeAns = x :: y :: ws) :
    probe s = checkStatus y (s.ran ws s.readAns s.delays s.clock
      [.busWrite s.cfg.devAddr [] x, .busWrite s.cfg.devAddr [] y] { s.work with att := 2 }) := by
  rw [probe, Cmd.next_of_done (clearAttempts_apply _),
    Cmd.bind_of_done (attempt_script (by simpa using hq) (by simpa using hw) []), if_neg hx,
    Cmd.bind_of_done (attempt_script (by simpa using hq) (State.ran_writeAns ..) [])]
  simp

end Sys2Proof.Machine
end

