-- ==== Sys2Proof/Laws/Scripts.lean ====
section
/-! SUPPORT. What each shared procedure does when no reset cuts the command and the environment's scripts give its
answers: the value, the answers left, the clock, the events. -/

set_option Elab.async false

namespace Sys2Proof.Machine

/-- `c` ends with `a`; only the answers still to come, the clock, the trace and the working registers have changed. -/
def Cmd.RunsTo {α : Type} (c : Cmd α) (s : State) (a : α) (ws : List BusStatus) (rs : List (List Byte)) (ds : List Nat)
    (clk : Nat) (events : List Event) : Prop := ∃ w, c s = .done a (s.ran ws rs ds clk events w)

/-- `c` raises `e`; the same fields have changed. -/
def Cmd.RaisesAt {α : Type} (c : Cmd α) (s : State) (e : Err) (ws : List BusStatus) (rs : List (List Byte))
    (ds : List Nat) (clk : Nat) (events : List Event) : Prop :=
  ∃ w, c s = .stop (.raised e) (s.ran ws rs ds clk events w)

section Compose

variable {α β : Type} {s : State} {ws ws' : List BusStatus} {rs rs' : List (List Byte)} {ds ds' : List Nat}
  {clk clk' : Nat} {es es' : List Event}

theorem Cmd.RunsTo.bind {c : Cmd α} {k : α → Cmd β} {a : α} {b : β} (hc : c.RunsTo s a ws rs ds clk es)
    (hk : ∀ w, (k a).RunsTo (s.ran ws rs ds clk es w) b ws' rs' ds' clk' es') :
    (c.bind k).RunsTo s b ws' rs' ds' clk' (es ++ es') := by
  obtain ⟨w, hw⟩ := hc
  obtain ⟨w', hw'⟩ := hk w
  exact ⟨w', by rw [Cmd.bind_of_done hw, hw', State.ran_ran]⟩

theorem Cmd.RunsTo.next {c : Cmd α} {d : Cmd β} {a : α} {b : β} (hc : c.RunsTo s a ws rs ds clk es)
    (hd : ∀ w, d.RunsTo (s.ran ws rs ds clk es w) b ws' rs' ds' clk' es') :
    (c.next d).RunsTo s b ws' rs' ds' clk' (es ++ es') := Cmd.RunsTo.bind hc hd

theorem Cmd.RunsTo.bind_raises {c : Cmd α} {k : α → Cmd β} {a : α} {e : Err} (hc : c.RunsTo s a ws rs ds clk es)
    (hk : ∀ w, (k a).RaisesAt (s.ran ws rs ds clk es w) e ws' rs' ds' clk' es') :
    (c.bind k).RaisesAt s e ws' rs' ds' clk' (es ++ es') := by
  obtain ⟨w, hw⟩ := hc
  obtain ⟨w', hw'⟩ := hk w
  exact ⟨w', by rw [Cmd.bind_of_done hw, hw', State.ran_ran]⟩

theorem Cmd.RaisesAt.bind {c : Cmd α} {k : α → Cmd β} {e : Err} (hc : c.RaisesAt s e ws rs ds clk es) :
    (c.bind k).RaisesAt s e ws rs ds clk es := by
  obtain ⟨w, hw⟩ := hc
  exact ⟨w, Cmd.bind_of_stop hw⟩

theorem Cmd.RunsTo.of_eq {c : Cmd α} {a : α} (h : c.RunsTo s a ws rs ds clk es) (hws : ws = ws') (hes : es = es')
    (hclk : clk = clk') : c.RunsTo s a ws' rs ds clk' es' := by subst hws hes hclk; exact h

theorem Cmd.RaisesAt.of_eq {c : Cmd α} {e : Err} (h : c.RaisesAt s e ws rs ds clk es) (hes : es = es')
    (hclk : clk = clk') : c.RaisesAt s e ws rs ds clk' es' := by subst hes hclk; exact h

/-- A write of working registers changes no other field. -/
theorem Cmd.RunsTo.setWork (f : State → Work) (hws : s.writeAns = ws) (hrs : s.readAns = rs) (hds : s.delays = ds)
    (hclk : s.clock = clk) : (Cmd.set fun s => { s with work := f s }).RunsTo s () ws rs ds clk [] := by
  subst hws hrs hds hclk
  exact ⟨f s, by simp [State.ran]⟩

theorem Cmd.RunsTo.pure (a : α) (hws : s.writeAns = ws) (hrs : s.readAns = rs) (hds : s.delays = ds)
    (hclk : s.clock = clk) : (Cmd.pure a).RunsTo s a ws rs ds clk [] := by
  subst hws hrs hds hclk
  exact ⟨s.work, by simp [State.ran]⟩

end Compose

/-! ### One register -/

section Register

variable {s : State} {ws : List BusStatus} {rs : List (List Byte)} {b : Byte}

/-- `GetBit` (R105). -/
theorem getBit_script (hq : s.quiet = true) (r : BitRef) (hw : s.writeAns = .success :: ws)
    (hr : s.readAns = [b] :: rs) :
    getBit r s = .done (testBit b r.bit)
      (s.ran ws rs s.delays s.clock (readRegEvents s.cfg r.reg [b]) { s.work with tb := b }) := by
  rw [getBit, Cmd.bind_of_done (readReg_script hq hw hr r.reg), Cmd.next_of_done (setTb_apply _ _)]
  simp

/-- A read of one bit that fails. -/
theorem getBit_fails {f : ReadFailure} {e : Err} (hq : s.quiet = true) (r : BitRef) (hw : s.writeAns = f.statuses ++ ws)
    (hr : s.readAns = f.reads ++ rs) (hf : f.Raises 1 e) :
    getBit r s = .stop (.raised e) (s.ran ws rs s.delays s.clock (f.events s.cfg r.reg 1) s.work) :=
  Cmd.bind_of_stop (Cmd.bind_of_stop (memReadDev_fails hq hw hr hf r.reg))

/-- A byte read, then a register write of a function of it at the first attempt: `SetBit`, `ClearBit`, `SetField`. -/
theorem rmw_script (hq : s.quiet = true) (a : Byte) (f : Byte → Byte) (hw : s.writeAns = .success :: .success :: ws)
    (hr : s.readAns = [b] :: rs) :
    ((readReg a).bind fun b => (setTb b).next fun s => memWriteDev a (f s.work.tb) s).RunsTo s () ws rs s.delays s.clock
      (rmwEvents s.cfg a b (f b)) := by
  refine ⟨{ s.work with tb := b, att := 1 }, ?_⟩
  rw [Cmd.bind_of_done (readReg_script hq hw hr a), Cmd.next_of_done (setTb_apply _ _),
    memWriteDev_success (ws := ws) (by simpa using hq) (by simp)]
  simp [rmwEvents]

/-- The same with any outcomes of the attempts. -/
theorem rmw_attempts {x y z : BusStatus} (hq : s.quiet = true) (a : Byte) (f : Byte → Byte)
    (hw : s.writeAns = .success :: (attemptsUsed x y z ++ ws)) (hr : s.readAns = [b] :: rs) :
    ∃ w, ((readReg a).bind fun b => (setTb b).next fun s => memWriteDev a (f s.work.tb) s) s =
      checkStatus (lastAttempt x y z) (s.ran ws rs s.delays s.clock
        (readRegEvents s.cfg a [b] ++ (attemptsUsed x y z).map (wroteReg s.cfg a (f b))) w) := by
  refine ⟨{ s.work with tb := b, att := BitVec.ofNat 2 (attemptsUsed x y z).length }, ?_⟩
  rw [Cmd.bind_of_done (readReg_script hq hw hr a), Cmd.next_of_done (setTb_apply _ _),
    memWriteDev_script (x := x) (y := y) (z := z) (ws := ws) (by simpa using hq) (by simp)]
  simp

theorem setBit_script (hq : s.quiet = true) (r : BitRef) (hw : s.writeAns = .success :: .success :: ws)
    (hr : s.readAns = [b] :: rs) :
    (setBit r).RunsTo s () ws rs s.delays s.clock (rmwEvents s.cfg r.reg b (withBit b r.bit)) :=
  rmw_script hq r.reg (fun b => withBit b r.bit) hw hr

theorem clearBit_script (hq : s.quiet = true) (r : BitRef) (hw : s.writeAns = .success :: .success :: ws)
    (hr : s.readAns = [b] :: rs) :
    (clearBit r).RunsTo s () ws rs s.delays s.clock (rmwEvents s.cfg r.reg b (withoutBit b r.bit)) :=
  rmw_script hq r.reg (fun b => withoutBit b r.bit) hw hr

theorem setField_script (hq : s.quiet = true) (f : Field) (v : Byte) (hw : s.writeAns = .success :: .success :: ws)
    (hr : s.readAns = [b] :: rs) :
    (setField f v).RunsTo s () ws rs s.delays s.clock
      (rmwEvents s.cfg f.reg b (mergeField f b (clampField f v))) :=
  rmw_script hq f.reg (fun b => mergeField f b (clampField f v)) hw hr

theorem available_script (hq : s.quiet = true) (hw : s.writeAns = .success :: ws) (hr : s.readAns = [b] :: rs) :
    available s = .done (testBit b s.cfg.dev.ready.bit)
      (s.ran ws rs s.delays s.clock (readRegEvents s.cfg s.cfg.dev.ready.reg [b]) { s.work with tb := b }) := getBit_script hq s.cfg.dev.ready hw hr

theorem reading_script {x y z : Byte} (hq : s.quiet = true) (hw : s.writeAns = .success :: ws)
    (hr : s.readAns = [x, y, z] :: rs) :
    reading s = .done (unpack24 [x, y, z])
      (s.ran ws rs s.delays s.clock (readRegEvents s.cfg s.cfg.dev.sample [x, y, z]) s.work) := by
  rw [reading, Cmd.bind_of_done (memReadDev_script (n := 3) hq hw hr rfl _)]; rfl

/-- A sample read that fails. -/
theorem reading_fails {f : ReadFailure} {e : Err} (hq : s.quiet = true) (hw : s.writeAns = f.statuses ++ ws)
    (hr : s.readAns = f.reads ++ rs) (hf : f.Raises 3 e) :
    reading s = .stop (.raised e) (s.ran ws rs s.delays s.clock (f.events s.cfg s.cfg.dev.sample 3) s.work) :=
  Cmd.bind_of_stop (memReadDev_fails hq hw hr hf _)

theorem idleTick_script (hq : s.quiet = true) :
    idleTick s = .done () (s.ran s.writeAns s.readAns s.delays (s.clock + s.cfg.tIdle) [.idle s.cfg.tIdle] s.work) :=
  idle_quiet hq _

/-- `checkDeadline` reads the clock and goes on if the limit has not passed. -/
theorem checkDeadline_inTime {d : Nat} {ds : List Nat} (hq : s.quiet = true) (hd : s.delays = d :: ds) {limit : Nat}
    (h : s.clock + d ≤ s.work.t0 + limit) (e : Err) :
    checkDeadline limit e s =
      .done () (s.ran s.writeAns s.readAns ds (s.clock + d) [.now (s.clock + d)] s.work) := by
  rw [checkDeadline, Cmd.bind_of_done (now_script hq hd)]
  exact if_neg (Nat.not_lt.2 h)

/-- `checkDeadline` raises its error if the limit has passed. -/
theorem checkDeadline_late {d : Nat} {ds : List Nat} (hq : s.quiet = true) (hd : s.delays = d :: ds) {limit : Nat}
    (h : s.work.t0 + limit < s.clock + d) (e : Err) :
    checkDeadline limit e s =
      .stop (.raised e) (s.ran s.writeAns s.readAns ds (s.clock + d) [.now (s.clock + d)] s.work) := by
  rw [checkDeadline, Cmd.bind_of_done (now_script hq hd)]
  exact if_pos h

end Register

/-! ### The averaging loop -/

/-- The working registers of the averaging loop agree with the samples taken so far. -/
def SumSoFar (s : State) (t0 : Nat) (samples : List Int) : Prop :=
  s.work.t0 = t0 ∧ s.work.acc = BitVec.ofInt 64 samples.sum ∧ s.work.ns = BitVec.ofNat 16 samples.length

theorem takeSample_script {s : State} {ws : List BusStatus} {rs : List (List Byte)} {x y z : Byte} {t0 : Nat}
    {samples : List Int} (hq : s.quiet = true) (hw : s.writeAns = .success :: ws) (hr : s.readAns = [x, y, z] :: rs)
    (hs : SumSoFar s t0 samples) (count : BitVec 16) :
    ∃ w, takeSample count s = .done (BitVec.ofNat 16 (samples.length + 1) == count)
      (s.ran ws rs s.delays s.clock (readRegEvents s.cfg s.cfg.dev.sample [x, y, z]) w) ∧ w.t0 = t0 ∧
      w.acc = BitVec.ofInt 64 (samples ++ [(unpack24 [x, y, z]).toInt]).sum ∧
      w.ns = BitVec.ofNat 16 (samples ++ [(unpack24 [x, y, z]).toInt]).length := by
  obtain ⟨h0, ha, hn⟩ := hs
  refine ⟨{ s.work with acc := s.work.acc + (unpack24 [x, y, z]).signExtend 64, ns := s.work.ns + 1 }, ?_, h0, ?_, ?_⟩
  · rw [takeSample, Cmd.bind_of_done (reading_script hq hw hr)]
    simp only [addSample, Cmd.next_set, Cmd.get_apply, State.ran_work, hn]
    rw [Progress.done.injEq]
    refine ⟨?_, by simp [State.ran]⟩
    congr 1
    apply BitVec.eq_of_toNat_eq
    simp
  · simp only [ha]
    rw [List.sum_append, BitVec.ofInt_add, List.sum_singleton, BitVec.signExtend]
  · simp only [hn]
    apply BitVec.eq_of_toNat_eq
    simp

/-- One unfinished pass (R124). -/
theorem averagePass_unfinished {s : State} {ws : List BusStatus} {rs : List (List Byte)} {ds : List Nat} {t0 : Nat}
    {samples : List Int} {p : AvgPass} {count : BitVec 16} (hq : s.quiet = true)
    (hw : s.writeAns = List.replicate p.reads.length .success ++ ws) (hr : s.readAns = p.reads ++ rs)
    (hd : s.delays = p.delay :: ds) (hf : p.fits s.cfg) (hs : SumSoFar s t0 samples)
    (hn : samples.length + p.counts.length < count.toNat) (ht : s.clock + p.delay ≤ t0 + deadline count) :
    ∃ w, averagePass count s = .done none
      (s.ran ws rs ds (s.clock + p.delay + s.cfg.tIdle)
        (p.busEvents s.cfg ++ [.now (s.clock + p.delay), .idle s.cfg.tIdle]) w) ∧
      w.t0 = t0 ∧ w.acc = BitVec.ofInt 64 (samples ++ p.counts).sum ∧
      w.ns = BitVec.ofNat 16 (samples ++ p.counts).length := by
  obtain ⟨poll, sample, delay⟩ := p
  unfold AvgPass.fits at hf
  have finish : ∀ (s' : State) (l : List Int), s'.quiet = true → s'.delays = delay :: ds → s'.clock = s.clock →
      s'.cfg = s.cfg → SumSoFar s' t0 l →
      ∃ w, ((checkDeadline (deadline count) .timeout).next <| idleTick.next <| .pure none) s' =
        .done (none : Option Word) (s'.ran s'.writeAns s'.readAns ds (s.clock + delay + s.cfg.tIdle)
          [.now (s.clock + delay), .idle s.cfg.tIdle] w) ∧ w.t0 = t0 ∧ w.acc = BitVec.ofInt 64 l.sum ∧
        w.ns = BitVec.ofNat 16 l.length := by
    intro s' l hq' hd' hc' hcfg ⟨h0, ha, hl⟩
    refine ⟨s'.work, ?_, h0, ha, hl⟩
    rw [Cmd.next_of_done (checkDeadline_inTime hq' hd' (by rw [hc', h0]; exact ht) _),
      Cmd.next_of_done (idleTick_script (by simpa using hq'))]
    simp [hc', hcfg]
  cases sample with
  | none =>
    simp only [AvgPass.reads, List.length_singleton, List.replicate_one, List.cons_append, List.nil_append] at hw hr hd
    simp only [Option.isSome_none] at hf
    have ha := available_script hq hw hr
    obtain ⟨w, hw', h0, hacc, hns⟩ := finish _ samples (by simpa using hq) (by simpa using hd)
      (State.ran_clock s ws rs s.delays s.clock (readRegEvents s.cfg s.cfg.dev.ready.reg [poll])
        { s.work with tb := poll }) rfl hs
    refine ⟨w, ?_, h0, by simpa [AvgPass.counts] using hacc, by simpa [AvgPass.counts] using hns⟩
    rw [averagePass, Cmd.bind_of_done ha, hf]
    simp only [Bool.false_eq_true, if_false, Cmd.bind_pure]
    rw [hw']
    simp [AvgPass.busEvents]
  | some v =>
    obtain ⟨x, y, z⟩ := v
    simp only [AvgPass.reads, List.length_cons, List.length_nil, List.replicate_succ, List.replicate_zero,
      List.cons_append, List.nil_append] at hw hr hd
    simp only [Option.isSome_some] at hf
    simp only [AvgPass.counts, List.length_singleton] at hn
    have ha := available_script hq hw hr
    obtain ⟨w, ht', h0, hacc, hns⟩ := takeSample_script (s := s.ran (.success :: ws) ([x, y, z] :: rs) s.delays s.clock
      (readRegEvents s.cfg s.cfg.dev.ready.reg [poll]) { s.work with tb := poll }) (by simpa using hq)
      (State.ran_writeAns ..) (State.ran_readAns ..) hs count
    have hlast : (BitVec.ofNat 16 (samples.length + 1) == count) = false := by
      rw [beq_eq_false_iff_ne]
      intro h
      have h1 := congrArg BitVec.toNat h
      have h2 := count.isLt
      simp only [BitVec.toNat_ofNat] at h1
      rw [Nat.mod_eq_of_lt (by omega)] at h1
      omega
    rw [hlast] at ht'
    obtain ⟨w', hw', h0', hacc', hns'⟩ := finish _ (samples ++ [(unpack24 [x, y, z]).toInt]) (by simpa using hq)
      (by simpa using hd) (State.ran_clock s ws rs s.delays s.clock (readRegEvents s.cfg s.cfg.dev.ready.reg [poll] ++
        readRegEvents s.cfg s.cfg.dev.sample [x, y, z]) w) rfl ⟨h0, hacc, hns⟩
    refine ⟨w', ?_, h0', by simpa [AvgPass.counts] using hacc', by simpa [AvgPass.counts] using hns'⟩
    rw [averagePass, Cmd.bind_of_done ha, hf]
    simp only [if_true]
    rw [Cmd.bind_of_done ht']
    simp only [Bool.false_eq_true, if_false, State.ran_ran, State.ran_cfg, State.ran_delays, State.ran_clock]
    rw [hw']
    simp [AvgPass.busEvents]

/-- The unfinished passes, one after the other. -/
theorem averageLoop_passes {count : BitVec 16} {t0 : Nat} (ps : List AvgPass) :
    ∀ {s : State} {ws : List BusStatus} {rs : List (List Byte)} {ds : List Nat} {samples : List Int} (n : Nat),
    s.quiet = true → s.writeAns = List.replicate (passReads ps).length .success ++ ws →
    s.readAns = passReads ps ++ rs → s.delays = ps.map AvgPass.delay ++ ds → (∀ p ∈ ps, p.fits s.cfg) →
    SumSoFar s t0 samples → samples.length + (passCounts ps).length < count.toNat →
    passesInTime s.cfg t0 (deadline count) s.clock ps →
    ∃ w, averageLoop count (ps.length + n) s = averageLoop count n
      (s.ran ws rs ds (passClock s.cfg s.clock ps) (passEvents s.cfg s.clock ps) w) ∧
      w.t0 = t0 ∧ w.acc = BitVec.ofInt 64 (samples ++ passCounts ps).sum ∧
      w.ns = BitVec.ofNat 16 (samples ++ passCounts ps).length := by
  induction ps with
  | nil =>
    intro s ws rs ds samples n hq hw hr hd hf hs hn ht
    refine ⟨s.work, ?_, ?_⟩
    · simp only [passReads, List.flatMap_nil, List.length_nil, List.replicate_zero, List.nil_append, List.map_nil] at hw hr hd
      rw [← hw, ← hr, ← hd]
      simp [State.ran, passClock, passEvents]
    · simpa [passCounts, SumSoFar] using hs
  | cons p ps ih =>
    intro s ws rs ds samples n hq hw hr hd hf hs hn ht
    have hpr : passReads (p :: ps) = p.reads ++ passReads ps := rfl
    have hpc : passCounts (p :: ps) = p.counts ++ passCounts ps := rfl
    rw [hpr, List.length_append, List.replicate_add, List.append_assoc] at hw
    rw [hpr, List.append_assoc] at hr
    rw [hpc, List.length_append] at hn
    obtain ⟨ht1, ht2⟩ := ht
    obtain ⟨w, hp, h0, ha, hl⟩ := averagePass_unfinished hq hw hr hd (hf p (by simp)) hs (by omega) ht1
    obtain ⟨w', hp', h0', ha', hl'⟩ := ih (s := s.ran (List.replicate (passReads ps).length .success ++ ws)
        (passReads ps ++ rs) (ps.map AvgPass.delay ++ ds) (s.clock + p.delay + s.cfg.tIdle)
        (p.busEvents s.cfg ++ [.now (s.clock + p.delay), .idle s.cfg.tIdle]) w) n (by simpa using hq) rfl rfl rfl
        (fun q hq => hf q (by simp [hq])) ⟨h0, ha, hl⟩ (by simp only [List.length_append]; omega) ht2
    refine ⟨w', ?_, h0', by rw [ha', hpc, List.append_assoc], by rw [hl', hpc, List.append_assoc]⟩
    rw [List.length_cons, Nat.add_right_comm, averageLoop, Cmd.bind_of_done hp]
    refine hp'.trans ?_
    simp [passClock, passEvents]

/-- The unfinished passes that are in time are no more than the loop makes (R126). -/
theorem passes_le {c : Config} {t0 limit : Nat} (ps : List AvgPass) :
    ∀ {clk : Nat}, t0 ≤ clk → passesInTime c t0 limit clk ps → ps.length ≤ (t0 + limit - clk) / c.tIdle + 1 := by
  have hpos := c.tIdle_pos
  induction ps with
  | nil => intro clk _ _; simp
  | cons p ps ih =>
    intro clk h0 ⟨h1, h2⟩
    have := ih (by omega) h2
    rw [List.length_cons]
    cases ps with
    | nil => simp
    | cons q ps =>
      have h3 := h2.1
      have hm : (t0 + limit - (clk + p.delay + c.tIdle)) / c.tIdle + 1 ≤ (t0 + limit - clk) / c.tIdle := by
        rw [← Nat.add_div_right _ (by omega)]
        exact Nat.div_le_div_right (by omega)
      omega

theorem averageLoop_fuel {c : Config} {t0 clk : Nat} {count : BitVec 16} {ps : List AvgPass} (h0 : clk = t0)
    (h : passesInTime c t0 (deadline count) clk ps) : ∃ n, averagePasses c count = ps.length + (n + 1) := by
  have := passes_le ps (Nat.le_of_eq h0.symm) h
  subst h0
  rw [Nat.add_sub_cancel_left] at this
  exact ⟨averagePasses c count - ps.length - 1, by unfold averagePasses; omega⟩

/-- The beginning of the averaging: `T0`, `ACC`, `NS` (R124). -/
theorem average_begin {s : State} {d : Nat} {ds : List Nat} (hq : s.quiet = true) (hd : s.delays = d :: ds)
    (count : BitVec 16) :
    ∃ w, average count s = averageLoop count (averagePasses s.cfg count)
      (s.ran s.writeAns s.readAns ds (s.clock + d) [.now (s.clock + d)] w) ∧ w.t0 = s.clock + d ∧ w.acc = 0 ∧
      w.ns = 0 := by
  refine ⟨{ s.work with t0 := s.clock + d, acc := 0, ns := 0 }, ?_, rfl, rfl, rfl⟩
  have h1 : startClock s = .done () (s.ran s.writeAns s.readAns ds (s.clock + d) [.now (s.clock + d)]
      { s.work with t0 := s.clock + d }) := by
    rw [startClock, Cmd.bind_of_done (now_script hq hd)]; rfl
  rw [average, Cmd.next_of_done h1]
  rfl

/-- The unpacker is the sign extension of the 24-bit payload (R120). -/
theorem unpack24_eq_signExtend (x y z : Byte) : unpack24 [x, y, z] = (x ++ y ++ z : BitVec 24).signExtend 32 := by
  simp only [unpack24, List.getD_cons_zero, List.getD_cons_succ]
  generalize (x ++ y ++ z : BitVec 24) = u
  apply BitVec.eq_of_getLsbD_eq
  intro i hi
  simp only [BitVec.getLsbD_sshiftRight, BitVec.getLsbD_shiftLeft, BitVec.getLsbD_setWidth, BitVec.getLsbD_signExtend,
    BitVec.msb_eq_getLsbD_last]
  by_cases h : i < 24
  · have h8 : 8 + i < 32 := by omega
    have h9 : ¬ 8 + i < 8 := by omega
    simp [h, h8, h9, hi]
  · have h8 : ¬ 8 + i < 32 := by omega
    simp [h, h8, hi]

/-- Every sample is a 24-bit number (R120). -/
theorem unpack24_bounds (x y z : Byte) :
    -8388608 ≤ (unpack24 [x, y, z]).toInt ∧ (unpack24 [x, y, z]).toInt ≤ 8388607 := by
  rw [unpack24_eq_signExtend, BitVec.toInt_signExtend_of_le (by omega)]
  have h1 := BitVec.le_toInt (x ++ y ++ z : BitVec 24)
  have h2 := BitVec.toInt_lt (x := (x ++ y ++ z : BitVec 24))
  simp only [Nat.reduceSub, Nat.reduceAdd] at h1 h2
  omega

/-- A sum of that many samples lies in a range that no accumulator step leaves (R125). -/
theorem sum_bounds (l : List Int) (h : ∀ v ∈ l, -8388608 ≤ v ∧ v ≤ 8388607) :
    -8388608 * (l.length : Int) ≤ l.sum ∧ l.sum ≤ 8388607 * (l.length : Int) := by
  induction l with
  | nil => simp
  | cons v l ih =>
    have h1 := h v (by simp)
    have h2 := ih fun w hw => h w (by simp [hw])
    simp only [List.sum_cons, List.length_cons, Nat.cast_add, Nat.cast_one]
    omega

theorem passCounts_bounds (ps : List AvgPass) : ∀ v ∈ passCounts ps, -8388608 ≤ v ∧ v ≤ 8388607 := by
  intro v hv
  obtain ⟨p, -, hv⟩ := List.mem_flatMap.1 hv
  unfold AvgPass.counts at hv
  split at hv
  · simp at hv
  · rw [List.mem_singleton] at hv
    subst hv
    exact unpack24_bounds _ _ _

/-- The quotient of an exact sum held in the accumulator (R124, R125). -/
theorem truncAverage_of_sum (l : List Int) (h : ∀ v ∈ l, -8388608 ≤ v ∧ v ≤ 8388607) (count : BitVec 16)
    (hl : l.length = count.toNat) :
    truncAverage (BitVec.ofInt 64 l.sum) count = BitVec.ofInt 32 (l.sum.tdiv count.toNat) := by
  have hb := sum_bounds l h
  have hc := count.isLt
  rw [hl] at hb
  rw [truncAverage, BitVec.toInt_ofInt, Int.bmod_eq_of_le (by norm_num; omega) (by norm_num; omega)]

/-- The averaging that completes (R124, R125). -/
theorem average_completes {s : State} {count : BitVec 16} {r : AvgRun} {ws : List BusStatus} {rs : List (List Byte)}
    {ds : List Nat} (hq : s.quiet = true) (hw : s.writeAns = List.replicate r.reads.length .success ++ ws)
    (hr : s.readAns = r.reads ++ rs) (hd : s.delays = r.delays ++ ds) (hf : ∀ p ∈ r.passes, p.fits s.cfg)
    (hp : testBit r.poll s.cfg.dev.ready.bit = true) (hn : r.samples.length = count.toNat)
    (ht : passesInTime s.cfg (s.clock + r.start) (deadline count) (s.clock + r.start) r.passes) :
    (average count).RunsTo s (r.mean count) ws rs ds (passClock s.cfg (s.clock + r.start) r.passes)
      (r.events s.cfg s.clock) := by
  obtain ⟨start, passes, poll, x, y, z⟩ := r
  simp only [AvgRun.reads, AvgRun.delays, AvgRun.samples, AvgRun.lastBytes, List.length_append, List.length_cons,
    List.length_nil, List.replicate_add, List.append_assoc, List.cons_append] at hw hr hd hn hf hp ht
  obtain ⟨w0, h0, ht0, ha0, hn0⟩ := average_begin hq hd count
  obtain ⟨n, hfuel⟩ := averageLoop_fuel rfl ht
  obtain ⟨w1, h1, ht1, ha1, hn1⟩ := averageLoop_passes passes
    (s := s.ran s.writeAns s.readAns (passes.map AvgPass.delay ++ ds) (s.clock + start) [.now (s.clock + start)] w0)
    (t0 := s.clock + start) (samples := []) (count := count) (n + 1) (by simpa using hq) hw hr rfl hf
    ⟨ht0, ha0, hn0⟩ (by simp only [List.length_nil]; omega) ht
  have h2 := available_script (b := poll) (s := s.ran (.success :: .success :: ws) ([poll] :: [x, y, z] :: rs) ds
    (passClock s.cfg (s.clock + start) passes) ([.now (s.clock + start)] ++ passEvents s.cfg (s.clock + start) passes)
    w1) (by simpa using hq) (State.ran_writeAns ..) (State.ran_readAns ..)
  obtain ⟨w3, h3, ht3, ha3, hn3⟩ := takeSample_script
    (s := s.ran (.success :: ws) ([x, y, z] :: rs) ds (passClock s.cfg (s.clock + start) passes)
      ([.now (s.clock + start)] ++ passEvents s.cfg (s.clock + start) passes ++
        readRegEvents s.cfg s.cfg.dev.ready.reg [poll]) { w1 with tb := poll })
    (by simpa using hq) (State.ran_writeAns ..) (State.ran_readAns ..) ⟨ht1, ha1, hn1⟩ count
  have hlast : (BitVec.ofNat 16 (([] ++ passCounts passes : List Int).length + 1) == count) = true := by
    rw [beq_iff_eq]
    apply BitVec.eq_of_toNat_eq
    rw [List.nil_append, hn, BitVec.toNat_ofNat, Nat.mod_eq_of_lt count.isLt]
  rw [hlast] at h3
  refine ⟨w3, ?_⟩
  rw [h0, hfuel]
  refine h1.trans ?_
  rw [averageLoop, averagePass]
  simp only [State.ran_ran, State.ran_cfg, State.ran_clock]
  rw [Cmd.bind_of_done (s := s.ran _ _ _ _ _ _) (a := some (AvgRun.mean ⟨start, passes, poll, x, y, z⟩ count))
    (s' := s.ran ws rs ds (passClock s.cfg (s.clock + start) passes)
      (AvgRun.events ⟨start, passes, poll, x, y, z⟩ s.cfg s.clock) w3)]
  · rfl
  · refine (Cmd.bind_of_done h2).trans ?_
    simp only [State.ran_cfg, hp, if_true, State.ran_ran, State.ran_delays, State.ran_clock]
    refine (Cmd.bind_of_done h3).trans ?_
    simp only [if_true, Cmd.get_apply, State.ran_work, State.ran_ran, State.ran_delays, State.ran_clock, State.ran_cfg]
    rw [ha3, List.nil_append, truncAverage_of_sum _ _ count (by simpa using hn)]
    · simp [AvgRun.mean, AvgRun.samples, AvgRun.lastBytes, AvgRun.events]
    · intro v hv
      rcases List.mem_append.1 hv with hv | hv
      · exact passCounts_bounds passes v hv
      · rw [List.mem_singleton] at hv; subst hv; exact unpack24_bounds x y z

/-- The averaging that runs out of time (R124). -/
theorem average_timesOut {s : State} {count : BitVec 16} {r : AvgTimeout} {ws : List BusStatus} {rs : List (List Byte)}
    {ds : List Nat} (hq : s.quiet = true) (hw : s.writeAns = List.replicate r.reads.length .success ++ ws)
    (hr : s.readAns = r.reads ++ rs) (hd : s.delays = r.delays ++ ds) (hf : ∀ p ∈ r.passes, p.fits s.cfg)
    (hl : r.late.fits s.cfg) (hn : (passCounts r.passes).length + r.late.counts.length < count.toNat)
    (ht : passesInTime s.cfg (s.clock + r.start) (deadline count) (s.clock + r.start) r.passes)
    (hlate : s.clock + r.start + deadline count < r.lateTime s.cfg s.clock) :
    (average count).RaisesAt s .timeout ws rs ds (r.lateTime s.cfg s.clock) (r.events s.cfg s.clock) := by
  obtain ⟨start, passes, late, sample, delay⟩ := r
  simp only [AvgTimeout.reads, AvgTimeout.delays, List.length_append, List.replicate_add, List.append_assoc,
    List.cons_append, List.nil_append] at hw hr hd hn hf hl ht
  obtain ⟨w0, h0, ht0, ha0, hn0⟩ := average_begin hq hd count
  obtain ⟨n, hfuel⟩ := averageLoop_fuel rfl ht
  obtain ⟨w1, h1, ht1, ha1, hn1⟩ := averageLoop_passes passes
    (s := s.ran s.writeAns s.readAns (passes.map AvgPass.delay ++ delay :: ds) (s.clock + start)
      [.now (s.clock + start)] w0)
    (t0 := s.clock + start) (samples := []) (count := count) (n + 1) (by simpa using hq) hw hr rfl hf
    ⟨ht0, ha0, hn0⟩ (by simp only [List.length_nil]; omega) ht
  have late' : ∀ (s' : State), s'.quiet = true → s'.delays = delay :: ds →
      s'.clock = passClock s.cfg (s.clock + start) passes → s'.work.t0 = s.clock + start → s'.cfg = s.cfg →
      ((checkDeadline (deadline count) .timeout).next <| idleTick.next <| .pure (none : Option Word)) s' =
        .stop (.raised .timeout) (s'.ran s'.writeAns s'.readAns ds
          (passClock s.cfg (s.clock + start) passes + delay)
          [.now (passClock s.cfg (s.clock + start) passes + delay)] s'.work) := by
    intro s' hq' hd' hc' h0' hcfg
    rw [Cmd.next_of_stop (checkDeadline_late hq' hd' (by rw [hc', h0']; exact hlate) _), hc']
  unfold AvgPass.fits at hl
  cases sample with
  | none =>
    simp only [AvgPass.reads, List.length_singleton, List.replicate_one, List.cons_append, List.nil_append] at h1
    simp only [Option.isSome_none] at hl
    have h2 := available_script (b := late) (s := s.ran (.success :: ws) ([late] :: rs) (delay :: ds)
      (passClock s.cfg (s.clock + start) passes)
      ([.now (s.clock + start)] ++ passEvents s.cfg (s.clock + start) passes) w1) (by simpa using hq)
      (State.ran_writeAns ..) (State.ran_readAns ..)
    refine ⟨{ w1 with tb := late }, ?_⟩
    rw [h0, hfuel]
    refine h1.trans ?_
    rw [averageLoop, averagePass]
    simp only [State.ran_ran, State.ran_cfg, State.ran_clock]
    refine (Cmd.bind_of_stop (s' := s.ran ws rs ds _ _ { w1 with tb := late }) ?_)
    refine (Cmd.bind_of_done h2).trans ?_
    simp only [State.ran_cfg, hl, Bool.false_eq_true, if_false, Cmd.bind_pure]
    refine (late' _ ?_ ?_ ?_ ?_ ?_).trans ?_
    · simpa using hq
    · rfl
    · rfl
    · exact ht1
    · rfl
    simp [AvgTimeout.events, AvgTimeout.lateTime, AvgPass.busEvents]
  | some v =>
    obtain ⟨x, y, z⟩ := v
    simp only [AvgPass.reads, List.length_cons, List.length_nil, List.replicate_succ, List.replicate_zero,
      List.cons_append, List.nil_append] at h1
    simp only [Option.isSome_some] at hl
    simp only [AvgPass.counts, List.length_singleton] at hn
    have h2 := available_script (b := late) (s := s.ran (.success :: .success :: ws) ([late] :: [x, y, z] :: rs)
      (delay :: ds) (passClock s.cfg (s.clock + start) passes)
      ([.now (s.clock + start)] ++ passEvents s.cfg (s.clock + start) passes) w1) (by simpa using hq)
      (State.ran_writeAns ..) (State.ran_readAns ..)
    obtain ⟨w3, h3, ht3, ha3, hn3⟩ := takeSample_script
      (s := s.ran (.success :: ws) ([x, y, z] :: rs) (delay :: ds) (passClock s.cfg (s.clock + start) passes)
        ([.now (s.clock + start)] ++ passEvents s.cfg (s.clock + start) passes ++
          readRegEvents s.cfg s.cfg.dev.ready.reg [late]) { w1 with tb := late })
      (by simpa using hq) (State.ran_writeAns ..) (State.ran_readAns ..) ⟨ht1, ha1, hn1⟩ count
    have hlast : (BitVec.ofNat 16 (([] ++ passCounts passes : List Int).length + 1) == count) = false := by
      rw [beq_eq_false_iff_ne]
      intro h
      have h1 := congrArg BitVec.toNat h
      have h2 := count.isLt
      simp only [List.nil_append, BitVec.toNat_ofNat] at h1
      rw [Nat.mod_eq_of_lt (by omega)] at h1
      omega
    rw [hlast] at h3
    refine ⟨w3, ?_⟩
    rw [h0, hfuel]
    refine h1.trans ?_
    rw [averageLoop, averagePass]
    simp only [State.ran_ran, State.ran_cfg, State.ran_clock]
    refine (Cmd.bind_of_stop (s' := s.ran ws rs ds _ _ w3) ?_)
    refine (Cmd.bind_of_done h2).trans ?_
    simp only [State.ran_cfg, hl, if_true, State.ran_ran, State.ran_delays, State.ran_clock]
    refine (Cmd.bind_of_done h3).trans ?_
    simp only [Bool.false_eq_true, if_false]
    refine (late' _ ?_ ?_ ?_ ?_ ?_).trans ?_
    · simpa using hq
    · rfl
    · rfl
    · exact ht3
    · rfl
    simp [AvgTimeout.events, AvgTimeout.lateTime, AvgPass.busEvents]

/-- The pass of the averaging that a register read ends (R124, exit 1). -/
theorem averagePass_fails {s : State} {ws : List BusStatus} {rs : List (List Byte)} {r : AvgFailure} {e : Err}
    (hq : s.quiet = true)
    (hw : s.writeAns = List.replicate r.poll.toList.length .success ++ (r.failure.statuses ++ ws))
    (hr : s.readAns = r.poll.toList.map (fun b => [b]) ++ (r.failure.reads ++ rs))
    (hp : ∀ b ∈ r.poll, testBit b s.cfg.dev.ready.bit = true) (hf : r.failure.Raises (if r.poll.isSome then 3 else 1) e)
    (count : BitVec 16) :
    (averagePass count).RaisesAt s e ws rs s.delays s.clock (r.lastEvents s.cfg) := by
  obtain ⟨start, passes, _ | b, f⟩ := r
  · exact ⟨_, Cmd.bind_of_stop (getBit_fails hq _ hw hr hf)⟩
  · refine ⟨{ s.work with tb := b }, (Cmd.bind_of_done (available_script hq hw hr)).trans ?_⟩
    rw [hp b rfl]
    simp only [if_true]
    refine (Cmd.bind_of_stop (Cmd.bind_of_stop (reading_fails (by simpa using hq) (State.ran_writeAns ..)
      (State.ran_readAns ..) hf))).trans ?_
    simp only [State.ran_ran, State.ran_cfg, State.ran_delays, State.ran_clock, State.ran_work, AvgFailure.lastEvents]

/-- The averaging that a register read ends (R124). -/
theorem average_fails {s : State} {count : BitVec 16} {r : AvgFailure} {e : Err} {ws : List BusStatus}
    {rs : List (List Byte)} {ds : List Nat} (hq : s.quiet = true) (hw : s.writeAns = r.statuses ++ ws)
    (hr : s.readAns = r.reads ++ rs) (hd : s.delays = r.delays ++ ds) (hf : ∀ p ∈ r.passes, p.fits s.cfg)
    (hp : ∀ b ∈ r.poll, testBit b s.cfg.dev.ready.bit = true) (hn : (passCounts r.passes).length < count.toNat)
    (ht : passesInTime s.cfg (s.clock + r.start) (deadline count) (s.clock + r.start) r.passes)
    (he : r.failure.Raises (if r.poll.isSome then 3 else 1) e) :
    (average count).RaisesAt s e ws rs ds (passClock s.cfg (s.clock + r.start) r.passes) (r.events s.cfg s.clock) := by
  simp only [AvgFailure.statuses, AvgFailure.reads, AvgFailure.worked, AvgFailure.delays, List.length_append,
    List.length_map, List.replicate_add, List.append_assoc, List.cons_append] at hw hr hd
  obtain ⟨w0, h0, ht0, ha0, hn0⟩ := average_begin hq hd count
  obtain ⟨n, hfuel⟩ := averageLoop_fuel rfl ht
  obtain ⟨w1, h1, -⟩ := averageLoop_passes r.passes
    (s := s.ran s.writeAns s.readAns (r.passes.map AvgPass.delay ++ ds) (s.clock + r.start)
      [.now (s.clock + r.start)] w0)
    (t0 := s.clock + r.start) (samples := []) (count := count) (n + 1) (by simpa using hq) hw hr rfl hf
    ⟨ht0, ha0, hn0⟩ (by simpa using hn) ht
  obtain ⟨w2, h2⟩ := averagePass_fails (r := r) (ws := ws) (rs := rs) (s := (s.ran s.writeAns s.readAns
    (r.passes.map AvgPass.delay ++ ds) (s.clock + r.start) [.now (s.clock + r.start)] w0).ran _ _ ds
      (passClock s.cfg (s.clock + r.start) r.passes) (passEvents s.cfg (s.clock + r.start) r.passes) w1)
    (by simpa using hq) (State.ran_writeAns ..) (State.ran_readAns ..) hp he count
  refine ⟨w2, ?_⟩
  rw [h0, hfuel]
  refine h1.trans ?_
  rw [averageLoop]
  refine (Cmd.bind_of_stop h2).trans ?_
  simp [AvgFailure.events]

/-! ### The AFE wait -/

/-- `CalStatus` with the active bit set: one register read (R149). -/
theorem calStatus_active {s : State} {ws : List BusStatus} {rs : List (List Byte)} {b : Byte} (hq : s.quiet = true)
    (hw : s.writeAns = .success :: ws) (hr : s.readAns = [b] :: rs) (hb : testBit b s.cfg.dev.calActive.bit = true) :
    calStatus s = .done .inProgress (s.ran ws rs s.delays s.clock
      (readRegEvents s.cfg s.cfg.dev.calActive.reg [b]) { s.work with tb := b }) := by
  rw [calStatus, Cmd.bind_of_done (getBit_script hq _ hw hr), hb]; rfl

/-- `CalStatus` with the active bit clear: two register reads (R149). -/
theorem calStatus_finished {s : State} {ws : List BusStatus} {rs : List (List Byte)} {b e : Byte} (hq : s.quiet = true)
    (hw : s.writeAns = .success :: .success :: ws) (hr : s.readAns = [b] :: [e] :: rs)
    (hb : testBit b s.cfg.dev.calActive.bit = false) :
    calStatus s = .done (bif testBit e s.cfg.dev.calError.bit then .failure else .success)
      (s.ran ws rs s.delays s.clock (readRegEvents s.cfg s.cfg.dev.calActive.reg [b] ++
        readRegEvents s.cfg s.cfg.dev.calError.reg [e]) { s.work with tb := e }) := by
  rw [calStatus, Cmd.bind_of_done (getBit_script hq _ hw hr), hb]
  simp only [Bool.false_eq_true, if_false]
  refine (Cmd.bind_of_done (getBit_script (by simpa using hq) _ (State.ran_writeAns ..) (State.ran_readAns ..))).trans ?_
  simp only [Cmd.pure_apply, State.ran_ran, State.ran_cfg]
  cases testBit e s.cfg.dev.calError.bit <;> simp

/-- `CalStatus` that a read of either bit ends (R149). -/
theorem calStatus_fails {s : State} {ws : List BusStatus} {rs : List (List Byte)} {r : CalFailure} {e : Err}
    (hq : s.quiet = true)
    (hw : s.writeAns = List.replicate r.active.toList.length .success ++ (r.failure.statuses ++ ws))
    (hr : s.readAns = r.active.toList.map (fun b => [b]) ++ (r.failure.reads ++ rs))
    (hb : ∀ b ∈ r.active, testBit b s.cfg.dev.calActive.bit = false) (hf : r.failure.Raises 1 e) :
    calStatus.RaisesAt s e ws rs s.delays s.clock (r.lastEvents s.cfg) := by
  obtain ⟨start, passes, _ | b, f⟩ := r
  · exact ⟨_, Cmd.bind_of_stop (getBit_fails hq _ hw hr hf)⟩
  · refine ⟨{ s.work with tb := b }, (Cmd.bind_of_done (getBit_script hq _ hw hr)).trans ?_⟩
    rw [hb b rfl]
    simp only [Bool.false_eq_true, if_false]
    refine (Cmd.bind_of_stop (getBit_fails (by simpa using hq) _ (State.ran_writeAns ..) (State.ran_readAns ..)
      hf)).trans ?_
    simp only [State.ran_ran, State.ran_cfg, State.ran_delays, State.ran_clock, State.ran_work, CalFailure.lastEvents]

/-- The clock after the passes: a wait without a timeout reads no clock in them (R150). -/
def calClockAfter (c : Config) (timed : Bool) (clk : Nat) (ps : List CalPass) : Nat :=
  if timed then calClock c clk ps else clk + ps.length * c.tIdle

/-- The in-progress passes of a wait with a timeout, one after the other (R150). -/
theorem calWaitLoop_timed {timeout t0 : Nat} (hto : timeout ≠ 0) (ps : List CalPass) :
    ∀ {s : State} {ws : List BusStatus} {rs : List (List Byte)} {ds : List Nat} (n : Nat),
    s.quiet = true → s.writeAns = List.replicate ps.length .success ++ ws →
    s.readAns = ps.map (fun p => [p.poll]) ++ rs → s.delays = ps.map CalPass.delay ++ ds →
    (∀ p ∈ ps, testBit p.poll s.cfg.dev.calActive.bit = true) → s.work.t0 = t0 →
    calInTime s.cfg t0 timeout s.clock ps →
    ∃ w, calWaitLoop timeout (ps.length + n) s = calWaitLoop timeout n
      (s.ran ws rs ds (calClock s.cfg s.clock ps) (calEvents s.cfg true s.clock ps) w) ∧ w.t0 = t0 := by
  induction ps with
  | nil =>
    intro s ws rs ds n hq hw hr hd hf h0 ht
    refine ⟨s.work, ?_, h0⟩
    simp only [List.length_nil, List.replicate_zero, List.nil_append, List.map_nil] at hw hr hd
    rw [← hw, ← hr, ← hd]
    simp [State.ran, calClock, calEvents]
  | cons p ps ih =>
    intro s ws rs ds n hq hw hr hd hf h0 ht
    rw [List.length_cons, List.replicate_succ, List.cons_append] at hw
    rw [List.map_cons, List.cons_append] at hr hd
    obtain ⟨ht1, ht2⟩ := ht
    have h1 := calStatus_active hq hw hr (hf p (by simp))
    have h2 := checkDeadline_inTime (limit := timeout) (s := s.ran (List.replicate ps.length .success ++ ws)
      (ps.map (fun p => [p.poll]) ++ rs) s.delays s.clock (readRegEvents s.cfg s.cfg.dev.calActive.reg [p.poll])
      { s.work with tb := p.poll }) (by simpa using hq) hd (by simp only [State.ran_clock, State.ran_work, h0]; exact ht1)
      .calTimeout
    obtain ⟨w, h3, h30⟩ := ih (s := s.ran (List.replicate ps.length .success ++ ws) (ps.map (fun p => [p.poll]) ++ rs)
      (ps.map CalPass.delay ++ ds) (s.clock + p.delay + s.cfg.tIdle)
      (readRegEvents s.cfg s.cfg.dev.calActive.reg [p.poll] ++ [.now (s.clock + p.delay), .idle s.cfg.tIdle])
      { s.work with tb := p.poll }) (ws := ws) (rs := rs) (ds := ds) n (by simpa using hq) rfl rfl rfl
      (fun q hq => hf q (by simp [hq])) h0 ht2
    refine ⟨w, ?_, h30⟩
    rw [List.length_cons, Nat.add_right_comm, calWaitLoop]
    refine (Cmd.bind_of_done (a := none) ?_).trans (h3.trans ?_)
    · rw [calWaitPass, Cmd.bind_of_done h1]
      simp only [if_true, if_neg hto]
      rw [Cmd.next_of_done h2, Cmd.next_of_done (idleTick_script (by simpa using hq))]
      simp
    · simp [calClock, calEvents]

/-- The in-progress passes of a wait without a timeout. -/
theorem calWaitLoop_untimed (ps : List CalPass) :
    ∀ {s : State} {ws : List BusStatus} {rs : List (List Byte)} (n : Nat),
    s.quiet = true → s.writeAns = List.replicate ps.length .success ++ ws →
    s.readAns = ps.map (fun p => [p.poll]) ++ rs → (∀ p ∈ ps, testBit p.poll s.cfg.dev.calActive.bit = true) →
    ∃ w, calWaitLoop 0 (ps.length + n) s = calWaitLoop 0 n
      (s.ran ws rs s.delays (s.clock + ps.length * s.cfg.tIdle) (calEvents s.cfg false s.clock ps) w) := by
  induction ps with
  | nil =>
    intro s ws rs n hq hw hr hf
    refine ⟨s.work, ?_⟩
    simp only [List.length_nil, List.replicate_zero, List.nil_append, List.map_nil] at hw hr
    rw [← hw, ← hr]
    simp [State.ran, calEvents]
  | cons p ps ih =>
    intro s ws rs n hq hw hr hf
    rw [List.length_cons, List.replicate_succ, List.cons_append] at hw
    rw [List.map_cons, List.cons_append] at hr
    have h1 := calStatus_active hq hw hr (hf p (by simp))
    obtain ⟨w, h3⟩ := ih (s := s.ran (List.replicate ps.length .success ++ ws) (ps.map (fun p => [p.poll]) ++ rs)
      s.delays (s.clock + s.cfg.tIdle)
      (readRegEvents s.cfg s.cfg.dev.calActive.reg [p.poll] ++ [.idle s.cfg.tIdle])
      { s.work with tb := p.poll }) (ws := ws) (rs := rs) n (by simpa using hq) rfl rfl
      (fun q hq => hf q (by simp [hq]))
    refine ⟨w, ?_⟩
    rw [List.length_cons, Nat.add_right_comm, calWaitLoop]
    refine (Cmd.bind_of_done (a := none) ?_).trans (h3.trans ?_)
    · rw [calWaitPass, Cmd.bind_of_done h1]
      simp only [if_true, Cmd.next_pure]
      rw [Cmd.next_of_done (idleTick_script (by simpa using hq))]
      simp
    · simp only [State.ran_ran, State.ran_cfg, State.ran_clock, State.ran_delays, calEvents, Bool.false_eq_true,
        if_false]
      congr 2
      · rw [Nat.succ_mul]; omega

/-- The in-progress passes that are in time are no more than the loop makes (log 12). -/
theorem calPasses_le {c : Config} {t0 limit : Nat} (ps : List CalPass) :
    ∀ {clk : Nat}, t0 ≤ clk → calInTime c t0 limit clk ps → ps.length ≤ (t0 + limit - clk) / c.tIdle + 1 := by
  have hpos := c.tIdle_pos
  induction ps with
  | nil => intro clk _ _; simp
  | cons p ps ih =>
    intro clk h0 ⟨h1, h2⟩
    have := ih (by omega) h2
    rw [List.length_cons]
    cases ps with
    | nil => simp
    | cons q ps =>
      have h3 := h2.1
      have hm : (t0 + limit - (clk + p.delay + c.tIdle)) / c.tIdle + 1 ≤ (t0 + limit - clk) / c.tIdle := by
        rw [← Nat.add_div_right _ (by omega)]
        exact Nat.div_le_div_right (by omega)
      omega

/-- The pass that sees the calibration finished. -/
theorem calWaitLoop_finished {s : State} {ws : List BusStatus} {rs : List (List Byte)} {b e : Byte}
    (hq : s.quiet = true) (hw : s.writeAns = .success :: .success :: ws) (hr : s.readAns = [b] :: [e] :: rs)
    (hb : testBit b s.cfg.dev.calActive.bit = false) (timeout n : Nat) :
    calWaitLoop timeout (n + 1) s = .done (bif testBit e s.cfg.dev.calError.bit then .failure else .success)
      (s.ran ws rs s.delays s.clock (readRegEvents s.cfg s.cfg.dev.calActive.reg [b] ++
        readRegEvents s.cfg s.cfg.dev.calError.reg [e]) { s.work with tb := e }) := by
  rw [calWaitLoop]
  refine Cmd.bind_of_done
    (a := some (bif testBit e s.cfg.dev.calError.bit then CalStatus.failure else CalStatus.success)) ?_
  rw [calWaitPass, Cmd.bind_of_done (calStatus_finished hq hw hr hb)]
  cases testBit e s.cfg.dev.calError.bit <;> rfl

/-- The pass that a status read ends. -/
theorem calWaitLoop_fails {s : State} {ws : List BusStatus} {rs : List (List Byte)} {r : CalFailure} {e : Err}
    (hq : s.quiet = true)
    (hw : s.writeAns = List.replicate r.active.toList.length .success ++ (r.failure.statuses ++ ws))
    (hr : s.readAns = r.active.toList.map (fun b => [b]) ++ (r.failure.reads ++ rs))
    (hb : ∀ b ∈ r.active, testBit b s.cfg.dev.calActive.bit = false) (hf : r.failure.Raises 1 e) (timeout n : Nat) :
    (calWaitLoop timeout (n + 1)).RaisesAt s e ws rs s.delays s.clock (r.lastEvents s.cfg) := by
  obtain ⟨w, h⟩ := calStatus_fails hq hw hr hb hf
  refine ⟨w, ?_⟩
  rw [calWaitLoop]
  exact Cmd.bind_of_stop (Cmd.bind_of_stop h)

/-- The wait from the head of its loop, with in-progress passes to come and more after them: it comes to the head of the
loop behind them (R150). -/
theorem calWaitRest_passes {s : State} {timeout : Nat} {ps : List CalPass} {ws : List BusStatus} {rs : List (List Byte)}
    {ds : List Nat} (hq : s.quiet = true) (hw : s.writeAns = List.replicate ps.length .success ++ ws) (hne : ws ≠ [])
    (hr : s.readAns = ps.map (fun p => [p.poll]) ++ rs)
    (hd : s.delays = (if timeout != 0 then ps.map CalPass.delay else []) ++ ds)
    (hf : ∀ p ∈ ps, testBit p.poll s.cfg.dev.calActive.bit = true)
    (ht : timeout ≠ 0 → s.work.t0 = s.clock ∧ calInTime s.cfg s.clock timeout s.clock ps) :
    ∃ n w, calWaitRest timeout s = ((calWaitLoop timeout (n + 1)).bind calWaitEnd)
      (s.ran ws rs ds (calClockAfter s.cfg (timeout != 0) s.clock ps) (calEvents s.cfg (timeout != 0) s.clock ps) w) ∧
      (timeout ≠ 0 → w.t0 = s.clock) := by
  suffices h : ∃ n w, calWaitLoop timeout (calWaitPasses s timeout) s = calWaitLoop timeout (n + 1)
      (s.ran ws rs ds (calClockAfter s.cfg (timeout != 0) s.clock ps) (calEvents s.cfg (timeout != 0) s.clock ps) w) ∧
      (timeout ≠ 0 → w.t0 = s.clock) by
    obtain ⟨n, w, h, h0⟩ := h
    exact ⟨n, w, by simp only [calWaitRest, Cmd.bind, h], h0⟩
  by_cases hto : timeout = 0
  · subst hto
    obtain ⟨n, hn⟩ : ∃ n, calWaitPasses s 0 = ps.length + (n + 1) := by
      have hlen : 0 < ws.length := List.length_pos_of_ne_nil hne
      refine ⟨ws.length - 1, ?_⟩
      simp only [calWaitPasses, if_true, hw, List.length_append, List.length_replicate]
      omega
    obtain ⟨w, h⟩ := calWaitLoop_untimed ps (n + 1) hq hw hr hf
    obtain rfl : s.delays = ds := hd
    exact ⟨n, w, by rw [hn, h]; rfl, fun h => (h rfl).elim⟩
  · have hto' : (timeout != 0) = true := by simp [hto]
    obtain ⟨h0, ht⟩ := ht hto
    obtain ⟨n, hn⟩ : ∃ n, calWaitPasses s timeout = ps.length + (n + 1) := by
      have hle := calPasses_le ps (Nat.le_refl _) ht
      rw [Nat.add_sub_cancel_left] at hle
      refine ⟨timeout / s.cfg.tIdle + 2 - ps.length - 1, ?_⟩
      simp only [calWaitPasses, if_neg hto]
      omega
    obtain ⟨w, h, hw0⟩ := calWaitLoop_timed hto ps (n + 1) hq hw hr (by rw [hd, hto']; rfl) hf h0 ht
    exact ⟨n, w, by rw [hn, h, hto']; rfl, fun _ => hw0⟩

/-- The wait from its first clock read (R150). -/
theorem calWait_passes {s : State} {timeout start : Nat} {ps : List CalPass} {ws : List BusStatus}
    {rs : List (List Byte)} {ds : List Nat} (hq : s.quiet = true)
    (hw : s.writeAns = List.replicate ps.length .success ++ ws) (hne : ws ≠ [])
    (hr : s.readAns = ps.map (fun p => [p.poll]) ++ rs)
    (hd : s.delays = start :: ((if timeout != 0 then ps.map CalPass.delay else []) ++ ds))
    (hf : ∀ p ∈ ps, testBit p.poll s.cfg.dev.calActive.bit = true)
    (ht : timeout ≠ 0 → calInTime s.cfg (s.clock + start) timeout (s.clock + start) ps) :
    ∃ n w, calWait timeout s = ((calWaitLoop timeout (n + 1)).bind calWaitEnd)
      (s.ran ws rs ds (calClockAfter s.cfg (timeout != 0) (s.clock + start) ps)
        ([.now (s.clock + start)] ++ calEvents s.cfg (timeout != 0) (s.clock + start) ps) w) ∧
      (timeout ≠ 0 → w.t0 = s.clock + start) := by
  have h1 : startClock s = .done () (s.ran s.writeAns s.readAns
      ((if timeout != 0 then ps.map CalPass.delay else []) ++ ds) (s.clock + start) [.now (s.clock + start)]
      { s.work with t0 := s.clock + start }) := by
    rw [startClock, Cmd.bind_of_done (now_script hq hd)]; rfl
  obtain ⟨n, w, h, h0⟩ := calWaitRest_passes (s := s.ran s.writeAns s.readAns
    ((if timeout != 0 then ps.map CalPass.delay else []) ++ ds) (s.clock + start) [.now (s.clock + start)]
    { s.work with t0 := s.clock + start }) (timeout := timeout) (by simpa using hq) hw hne hr rfl hf
    fun hto => ⟨rfl, ht hto⟩
  refine ⟨n, w, ?_, h0⟩
  rw [calWait, Cmd.next_of_done h1, h, State.ran_ran]
  rfl

/-- The wait that ends (R150): what is left is the test of the last status. -/
theorem calWait_ends {s : State} {timeout : Nat} {r : CalRun} {ws : List BusStatus} {rs : List (List Byte)}
    {ds : List Nat} (hq : s.quiet = true) (hw : s.writeAns = r.statuses ++ ws) (hr : s.readAns = r.reads ++ rs)
    (hd : s.delays = r.delays (timeout != 0) ++ ds) (hl : r.Lawful s.cfg timeout s.clock) :
    ∃ w, calWait timeout s = calWaitEnd (bif r.failed s.cfg then .failure else .success)
      (s.ran ws rs ds (calClockAfter s.cfg (timeout != 0) (s.clock + r.start) r.passes)
        (r.events s.cfg (timeout != 0) s.clock) w) := by
  obtain ⟨hf, hb, ht⟩ := hl
  simp only [CalRun.statuses, CalRun.reads, CalRun.delays, List.replicate_add, List.append_assoc, List.cons_append] at hw hr hd
  obtain ⟨n, w, h, -⟩ := calWait_passes hq hw (List.cons_ne_nil _ _) hr hd hf ht
  refine ⟨{ w with tb := r.error }, ?_⟩
  refine h.trans ((Cmd.bind_of_done (calWaitLoop_finished (by simpa using hq) (State.ran_writeAns ..)
    (State.ran_readAns ..) hb timeout n)).trans ?_)
  simp [CalRun.events, CalRun.failed]

/-- The wait that ends with success. -/
theorem calWait_completes {s : State} {timeout : Nat} {r : CalRun} {ws : List BusStatus} {rs : List (List Byte)}
    {ds : List Nat} (hq : s.quiet = true) (hw : s.writeAns = r.statuses ++ ws) (hr : s.readAns = r.reads ++ rs)
    (hd : s.delays = r.delays (timeout != 0) ++ ds) (hl : r.Lawful s.cfg timeout s.clock)
    (hf : r.failed s.cfg = false) :
    (calWait timeout).RunsTo s () ws rs ds (calClockAfter s.cfg (timeout != 0) (s.clock + r.start) r.passes)
      (r.events s.cfg (timeout != 0) s.clock) := by
  obtain ⟨w, h⟩ := calWait_ends hq hw hr hd hl
  rw [hf] at h
  exact ⟨w, h⟩

/-- The wait that ends with failure. -/
theorem calWait_fails {s : State} {timeout : Nat} {r : CalRun} {ws : List BusStatus} {rs : List (List Byte)}
    {ds : List Nat} (hq : s.quiet = true) (hw : s.writeAns = r.statuses ++ ws) (hr : s.readAns = r.reads ++ rs)
    (hd : s.delays = r.delays (timeout != 0) ++ ds) (hl : r.Lawful s.cfg timeout s.clock)
    (hf : r.failed s.cfg = true) :
    (calWait timeout).RaisesAt s .calFail ws rs ds (calClockAfter s.cfg (timeout != 0) (s.clock + r.start) r.passes)
      (r.events s.cfg (timeout != 0) s.clock) := by
  obtain ⟨w, h⟩ := calWait_ends hq hw hr hd hl
  rw [hf] at h
  exact ⟨w, h⟩

/-- The wait that runs out of time (R150). -/
theorem calWait_timesOut {s : State} {timeout : Nat} {r : CalTimeout} {ws : List BusStatus} {rs : List (List Byte)}
    {ds : List Nat} (hto : timeout ≠ 0) (hq : s.quiet = true) (hw : s.writeAns = r.statuses ++ ws)
    (hr : s.readAns = r.reads ++ rs) (hd : s.delays = r.delays ++ ds) (hl : r.Lawful s.cfg timeout s.clock) :
    (calWait timeout).RaisesAt s .calTimeout ws rs ds (r.lateTime s.cfg s.clock) (r.events s.cfg s.clock) := by
  obtain ⟨hf, hb, ht, hlate⟩ := hl
  have hto' : (timeout != 0) = true := by simp [hto]
  simp only [CalTimeout.statuses, CalTimeout.reads, CalTimeout.delays, List.replicate_add, List.append_assoc,
    List.cons_append, List.nil_append] at hw hr hd
  obtain ⟨n, w, h, h0⟩ := calWait_passes (timeout := timeout) (ds := r.late.delay :: ds) hq hw (List.cons_ne_nil _ _) hr
    (by rw [hd, hto']; rfl) hf fun _ => ht
  rw [hto'] at h
  refine ⟨{ w with tb := r.late.poll }, ?_⟩
  rw [h]
  refine Cmd.bind_of_stop ?_
  rw [calWaitLoop]
  refine Cmd.bind_of_stop ?_
  rw [calWaitPass]
  refine (Cmd.bind_of_done (calStatus_active (by simpa using hq) (State.ran_writeAns ..) (State.ran_readAns ..)
    hb)).trans ?_
  simp only [if_true, if_neg hto, State.ran_ran, State.ran_delays, State.ran_clock]
  refine (Cmd.next_of_stop (checkDeadline_late (by simpa using hq) (State.ran_delays ..) ?_ _)).trans ?_
  · simpa only [State.ran_work, State.ran_clock, h0 hto, calClockAfter, if_true, CalTimeout.lateTime] using hlate
  simp [CalTimeout.events, CalTimeout.lateTime, calClockAfter]

/-- The wait that a status read ends (R149, R150). -/
theorem calWait_readFails {s : State} {timeout : Nat} {r : CalFailure} {e : Err} {ws : List BusStatus}
    {rs : List (List Byte)} {ds : List Nat} (hq : s.quiet = true) (hw : s.writeAns = r.statuses ++ ws)
    (hr : s.readAns = r.reads ++ rs) (hd : s.delays = r.delays (timeout != 0) ++ ds)
    (hl : r.Lawful s.cfg timeout s.clock e) :
    (calWait timeout).RaisesAt s e ws rs ds (calClockAfter s.cfg (timeout != 0) (s.clock + r.start) r.passes)
      (r.events s.cfg (timeout != 0) s.clock) := by
  obtain ⟨hf, hb, ht, he⟩ := hl
  simp only [CalFailure.statuses, CalFailure.reads, CalFailure.worked, CalFailure.delays, List.length_append,
    List.length_map, List.replicate_add, List.append_assoc, List.cons_append] at hw hr hd
  obtain ⟨n, w, h, -⟩ := calWait_passes hq hw (by simp [ReadFailure.statuses_ne_nil]) hr hd hf ht
  obtain ⟨w', h'⟩ := calWaitLoop_fails (by simpa using hq) (State.ran_writeAns ..) (State.ran_readAns ..) hb he timeout n
  refine ⟨w', ?_⟩
  rw [h, Cmd.bind_of_stop h']
  simp [CalFailure.events]

/-- `CalSync` after its read-modify-write: the wait with the one-second timeout (R151). -/
theorem calSync_starts {s : State} {ws : List BusStatus} {rs : List (List Byte)} {b : Byte} (hq : s.quiet = true)
    (hw : s.writeAns = .success :: .success :: ws) (hr : s.readAns = [b] :: rs) :
    ∃ w, calSync s = calWait s.cfg.ticksPerSecond (s.ran ws rs s.delays s.clock
      (rmwEvents s.cfg s.cfg.dev.calStart.reg b (withBit b s.cfg.dev.calStart.bit)) w) := by
  obtain ⟨w, h⟩ := setBit_script hq s.cfg.dev.calStart hw hr
  exact ⟨w, Cmd.next_of_done h⟩

/-! ### The power-up sequence -/

theorem setBits_script (xs : List BitRef) :
    ∀ {s : State} {ws : List BusStatus} {rs : List (List Byte)} (olds : List Byte), s.quiet = true →
    olds.length = xs.length → s.writeAns = List.replicate (2 * olds.length) .success ++ ws →
    s.readAns = olds.map (fun b => [b]) ++ rs →
    (setBits xs).RunsTo s () ws rs s.delays s.clock (setBitsEvents s.cfg xs olds) := by
  induction xs with
  | nil =>
    intro s ws rs olds hq hl hw hr
    obtain rfl : olds = [] := by simpa using hl
    exact .pure () (by simpa using hw) (by simpa using hr) rfl rfl
  | cons x xs ih =>
    intro s ws rs olds hq hl hw hr
    cases olds with
    | nil => simp at hl
    | cons b olds =>
      rw [List.length_cons, Nat.mul_succ, Nat.add_comm, List.replicate_add, List.append_assoc] at hw
      refine (setBit_script (b := b) hq x hw hr).next fun w => ?_
      exact ih olds (by simpa using hq) (by simpa using hl) rfl rfl

/-- The polls that read 0, each followed by an idle wait (R147). -/
theorem powerPolls_unready (ready : BitRef) (polls : List Byte) :
    ∀ {s : State} {ws : List BusStatus} {rs : List (List Byte)} (n : Nat), s.quiet = true → s.cfg.dev.puReady = ready →
    s.writeAns = List.replicate polls.length .success ++ ws → s.readAns = polls.map (fun b => [b]) ++ rs →
    (∀ b ∈ polls, testBit b ready.bit = false) →
    ∃ w, powerPolls ready (polls.length + n) s = powerPolls ready n
      (s.ran ws rs s.delays (s.clock + polls.length * s.cfg.tIdle) (unreadyPolls s.cfg polls) w) := by
  induction polls with
  | nil =>
    intro s ws rs n hq hc hw hr hf
    refine ⟨s.work, ?_⟩
    simp only [List.length_nil, List.replicate_zero, List.nil_append, List.map_nil] at hw hr
    rw [← hw, ← hr]
    simp [State.ran, unreadyPolls]
  | cons b polls ih =>
    intro s ws rs n hq hc hw hr hf
    rw [List.length_cons, List.replicate_succ, List.cons_append] at hw
    rw [List.map_cons, List.cons_append] at hr
    obtain ⟨w, h3⟩ := ih (s := s.ran (List.replicate polls.length .success ++ ws) (polls.map (fun b => [b]) ++ rs)
      s.delays (s.clock + s.cfg.tIdle) (readRegEvents s.cfg ready.reg [b] ++ [.idle s.cfg.tIdle])
      { s.work with tb := b, pk := s.work.pk + 1 }) (ws := ws) (rs := rs) n (by simpa using hq) hc rfl rfl
      (fun q hq => hf q (by simp [hq]))
    refine ⟨w, ?_⟩
    rw [List.length_cons, Nat.add_right_comm, powerPolls]
    refine (Cmd.bind_of_done (getBit_script hq ready hw hr)).trans ?_
    rw [hf b (by simp)]
    simp only [Bool.false_eq_true, if_false]
    refine Eq.trans ?_ (h3.trans ?_)
    · rw [countPoll, Cmd.next_set, Cmd.next_of_done (idleTick_script (by exact hq))]
      simp [State.ran]
    · simp only [State.ran_ran, State.ran_cfg, State.ran_clock, State.ran_delays, unreadyPolls, List.flatMap_cons, hc]
      congr 2
      rw [Nat.succ_mul]; omega

/-- The power-up sequence that confirms (R147). -/
theorem powerUp_script {s : State} {r : PowerRun} {ws : List BusStatus} {rs : List (List Byte)} (hq : s.quiet = true)
    (hw : s.writeAns = r.statuses ++ ws) (hr : s.readAns = r.reads ++ rs) (hl : r.Lawful s.cfg) :
    powerUp.RunsTo s () ws rs s.delays (s.clock + r.unready.length * s.cfg.tIdle) (r.events s.cfg) := by
  obtain ⟨olds, unready, ready⟩ := r
  obtain ⟨hlen, hmax, hun, hrd⟩ := hl
  simp only [PowerRun.statuses, PowerRun.reads, List.replicate_add, List.append_assoc] at hw hr hlen hmax hun hrd
  refine Cmd.RunsTo.of_eq (es := setBitsEvents s.cfg s.cfg.dev.puSet olds ++ ([] ++ (unreadyPolls s.cfg unready ++
    readRegEvents s.cfg s.cfg.dev.puReady.reg [ready]))) ?_ rfl (by simp [PowerRun.events]) rfl
  refine Cmd.RunsTo.next (c := setBits s.cfg.dev.puSet) (setBits_script _ olds hq hlen hw hr) fun w1 => ?_
  refine Cmd.RunsTo.next (c := clearPolls) (Cmd.RunsTo.setWork (fun s => { s.work with pk := 0 }) rfl rfl rfl rfl)
    fun w2 => ?_
  obtain ⟨k, hk⟩ : ∃ k, s.cfg.puMaxPolls - 1 = unready.length + k := ⟨s.cfg.puMaxPolls - 1 - unready.length, by omega⟩
  rw [hk]
  obtain ⟨w3, h3⟩ := powerPolls_unready s.cfg.dev.puReady unready
    (s := (s.ran (List.replicate unready.length .success ++ (List.replicate 1 .success ++ ws))
      (unready.map (fun b => [b]) ++ ([[ready]] ++ rs)) s.delays s.clock (setBitsEvents s.cfg s.cfg.dev.puSet olds)
      w1).ran (List.replicate unready.length .success ++ (List.replicate 1 .success ++ ws))
      (unready.map (fun b => [b]) ++ ([[ready]] ++ rs)) s.delays s.clock [] w2) k (by simpa using hq) rfl rfl rfl hun
  refine ⟨{ w3 with tb := ready }, ?_⟩
  refine h3.trans ?_
  have h4 := getBit_script (b := ready) (s := s.ran (.success :: ws) ([ready] :: rs) s.delays
    (s.clock + unready.length * s.cfg.tIdle) (setBitsEvents s.cfg s.cfg.dev.puSet olds ++ unreadyPolls s.cfg unready) w3)
    (by simpa using hq) s.cfg.dev.puReady rfl rfl
  cases k with
  | zero =>
    rw [powerPolls]
    simp only [State.ran_ran, State.ran_cfg, State.ran_clock, State.ran_delays, List.append_nil, List.replicate_one,
      List.cons_append, List.nil_append]
    rw [Cmd.bind_of_done h4, hrd]
    simp
  | succ k =>
    rw [powerPolls]
    simp only [State.ran_ran, State.ran_cfg, State.ran_clock, State.ran_delays, List.append_nil, List.replicate_one,
      List.cons_append, List.nil_append]
    rw [Cmd.bind_of_done h4, hrd]
    simp

/-! ### The end of a command -/

/-- The scripts a claim assumes, as equations on the state in which the command runs. -/
theorem Feeds.accept {s : State} {ws : List BusStatus} {rs : List (List Byte)} {ds : List Nat} (h : Feeds s ws rs ds) :
    ∃ ws' rs' ds', s.accept.writeAns = ws ++ ws' ∧ s.accept.readAns = rs ++ rs' ∧ s.accept.delays = ds ++ ds' := by
  obtain ⟨⟨a, h1⟩, ⟨b, h2⟩, ⟨c, h3⟩⟩ := h
  exact ⟨a, b, c, h1.symm, h2.symm, h3.symm⟩

section Finish

variable {s : State} {ws : List BusStatus} {rs : List (List Byte)} {ds : List Nat} {clk : Nat} {es : List Event}

theorem State.quiet_accept : s.accept.quiet = s.quiet := rfl

/-- A command that came to its value is answered with it; nothing else of the engine has changed. -/
theorem runCommand_completes {c : Cmd Word} {a : Word} (hq : s.quiet = true)
    (h : c.RunsTo s.accept a ws rs ds clk es) :
    ∃ t, runCommand c s = .next t ∧ Succeeded t a 0 ∧ Observed s t es ∧ OnlySensor s t := by
  obtain ⟨w, hw⟩ := h
  refine ⟨_, runCommand_of_done hw hq, ?_⟩
  simp [Succeeded, Observed, OnlySensor, SameScale, SameStorage, SameSurround]

/-- A command that raised an error is answered with it; nothing else of the engine has changed. -/
theorem runCommand_fails {c : Cmd Word} {e : Err} (hq : s.quiet = true)
    (h : c.RaisesAt s.accept e ws rs ds clk es) :
    ∃ t, runCommand c s = .next t ∧ Failed t e 0 ∧ Observed s t es ∧ OnlySensor s t := by
  obtain ⟨w, hw⟩ := h
  refine ⟨_, runCommand_of_raised hw hq, ?_⟩
  simp [Failed, Observed, OnlySensor, SameScale, SameStorage, SameSurround]

end Finish

end Sys2Proof.Machine
end

