-- ==== Sys2Proof/Laws/Calibration.lean ====
section
/-! SUPPORT. What the pieces of the calibration and weight commands do. -/

set_option Elab.async false

namespace Sys2Proof.Machine

/-! ### Pure computations -/

@[simp] theorem bytesOf_length (o : ByteOrder) (w : Word) : (bytesOf o w).length = 4 := by cases o <;> rfl

theorem insideS32_iff (d : Int) : insideS32 d = true ↔ -2147483648 ≤ d ∧ d ≤ 2147483647 := by simp [insideS32]

/-- With the floor clamp the numerator is never negative (R174). -/
theorem difference_clampFloor (neg : Bool) (a z : Word) :
    difference (clampFloor neg a z) z = if neg then a.toInt - z.toInt else max (a.toInt - z.toInt) 0 := by
  unfold difference clampFloor
  cases neg
  · simp only [Bool.not_false, Bool.true_and, Bool.false_eq_true, if_false]
    split
    · rename_i h; rw [BitVec.slt_iff_toInt_lt] at h; omega
    · rename_i h; rw [BitVec.slt_iff_toInt_lt] at h; omega
  · simp

/-- A NaN made of a free sign and payload is a NaN (93 U10). -/
theorem isNan_nanOf (s : Bool) (p : BitVec 23) : F32.isNan (F32.nanOf s p) = true := by
  unfold F32.nanOf F32.isNan F32.withSign F32.absPattern F32.infPattern
  have hp := p.isLt
  have h : 1 ≤ (if p = 0 then 1 else p.toNat) ∧ (if p = 0 then 1 else p.toNat) < 2 ^ 23 := by
    split
    · omega
    · rename_i h
      refine ⟨?_, by omega⟩
      have : p.toNat ≠ 0 := fun h' => h (BitVec.eq_of_toNat_eq (by simpa using h'))
      omega
  generalize (if p = 0 then 1 else p.toNat) = q at h
  simp only [decide_eq_true_eq]
  cases s <;>
    simp only [Bool.false_eq_true, if_false, if_true, BitVec.extractLsb'_toNat, BitVec.toNat_ofNat,
      Nat.shiftRight_zero] <;> omega

/-- The linear model (R170): the quotient, or some NaN. -/
theorem scale_cases (a z : Word) (q : F32) (s : State) :
    ∃ v n, scale a z q s = .done v { s with draws := n } ∧
      match F32.div (F32.ofInt (a.toInt - z.toInt)) q with
      | some w => v = w
      | none => F32.isNan v = true := by
  unfold scale quotientOrNan
  simp only [difference]
  cases F32.div (F32.ofInt (a.toInt - z.toInt)) q with
  | some w => exact ⟨w, s.draws, rfl, rfl⟩
  | none => exact ⟨_, _, rfl, isNan_nanOf _ _⟩

/-! ### TARE, CALF, GETW -/

theorem averageOrInvalidate_of_done {s t : State} {count : BitVec 16} {a : Word} (h : average count s = .done a t) :
    averageOrInvalidate count s = .done a t := by
  simp only [averageOrInvalidate, Cmd.onError, h]

theorem averageOrInvalidate_of_error {s t : State} {count : BitVec 16} {e : Err}
    (h : average count s = .stop (.raised e) t) :
    averageOrInvalidate count s = .stop (.raised e) (t.setCalok false) := by
  simp only [averageOrInvalidate, Cmd.onError, h]

/-- TARE after its average, without persistence. -/
theorem tareRest_volatile (s : State) (a : Word) :
    ((setZoff a).next <| (persistZoff false).next (.pure a)) s = .done a { s with zoff := a } := rfl

/-- TARE after its average, with persistence. -/
theorem tareRest_persist {s : State} (hq : s.quiet = true) (a : Word) :
    ((setZoff a).next <| (persistZoff true).next (.pure a)) s =
      .done a (({ s with zoff := a } : State).putNvm s.cfg.slotOff (bytesOf s.cfg.nvmOrder a)) := by
  have h : persistZoff true ({ s with zoff := a } : State) = .done () _ :=
    memWriteNvm_quiet (s := { s with zoff := a }) hq s.cfg.slotOff a
  rw [setZoff, Cmd.next_set, Cmd.next_of_done h]
  rfl

/-- CALF after its average, without persistence. -/
theorem calfRest_volatile {s : State} {ref v : F32} {a : Word} {n : Nat}
    (h : scale a s.zoff ref s = .done v { s with draws := n }) :
    calfRest ref false a s = .done v { s with draws := n, sfac := v, calok := true } := by
  rw [calfRest, Cmd.bind_of_done (c := fun s => scale a s.zoff ref s) h]
  rfl

/-- CALF after its average, with persistence. -/
theorem calfRest_persist {s : State} (hq : s.quiet = true) {ref v : F32} {a : Word} {n : Nat}
    (h : scale a s.zoff ref s = .done v { s with draws := n }) :
    calfRest ref true a s =
      .done v (({ s with draws := n, sfac := v, calok := true } : State).putNvm s.cfg.slotFac
        (bytesOf s.cfg.nvmOrder v)) := by
  rw [calfRest, Cmd.bind_of_done (c := fun s => scale a s.zoff ref s) h]
  have h' : persistSfac true ({ s with draws := n, sfac := v, calok := true } : State) = .done () _ :=
    memWriteNvm_quiet (s := { s with draws := n, sfac := v, calok := true }) hq s.cfg.slotFac v
  rw [setSfac, Cmd.next_set, Cmd.next_set]
  exact (Cmd.next_of_done h').trans rfl

/-- GETW up to the division. -/
theorem weightCount_of_done {s t : State} {count : BitVec 16} {a : Word} (hc : s.calok = true)
    (h : average count s = .done a t) (neg : Bool) :
    weightCount count neg s = .done (clampFloor neg a t.zoff) t := by
  rw [weightCount, Cmd.next_of_done (c := requireCalibrated) (s' := s) (a := ()) (by simp [requireCalibrated, hc]),
    Cmd.bind_of_done h]
  rfl

theorem weightCount_of_error {s t : State} {count : BitVec 16} {e : Err} (hc : s.calok = true)
    (h : average count s = .stop (.raised e) t) (neg : Bool) :
    weightCount count neg s = .stop (.raised e) t := by
  rw [weightCount, Cmd.next_of_done (c := requireCalibrated) (s' := s) (a := ()) (by simp [requireCalibrated, hc]),
    Cmd.bind_of_stop h]

theorem weightCount_uncalibrated {s : State} (hc : s.calok = false) (count : BitVec 16) (neg : Bool) :
    weightCount count neg s = .stop (.raised .notCalibrated) s := by
  rw [weightCount, Cmd.next_of_stop (c := requireCalibrated) (s' := s) (why := .raised .notCalibrated)
    (by simp [requireCalibrated, hc])]

/-! ### STORECAL, READCAL -/

theorem storeCalibration_quiet {s : State} (hq : s.quiet = true) :
    storeCalibration s = .done () ((s.putNvm s.cfg.slotFac (bytesOf s.cfg.nvmOrder s.sfac)).putNvm s.cfg.slotOff
      (bytesOf s.cfg.nvmOrder s.zoff)) :=
  (Cmd.next_of_done (memWriteNvm_quiet hq _ _)).trans (memWriteNvm_quiet (by simpa using hq) _ _)

/-- READCAL up to the judgement of the two words. -/
theorem readCalibration_quiet {s : State} (hq : s.quiet = true) :
    readCalibration s =
      judgeStored (wordOf s.cfg.nvmOrder (s.nvm.readBytes s.cfg.slotFac 4))
        (wordOf s.cfg.nvmOrder (s.nvm.readBytes s.cfg.slotOff 4))
        { s with
          sfac := wordOf s.cfg.nvmOrder (s.nvm.readBytes s.cfg.slotFac 4),
          zoff := wordOf s.cfg.nvmOrder (s.nvm.readBytes s.cfg.slotOff 4),
          trace := s.trace ++ [.nvmGet s.cfg.slotFac (s.nvm.readBytes s.cfg.slotFac 4),
            .nvmGet s.cfg.slotOff (s.nvm.readBytes s.cfg.slotOff 4)] } := by
  unfold readCalibration
  rw [Cmd.bind_of_done (memReadNvm_quiet hq s.cfg.slotFac),
    Cmd.bind_of_done (memReadNvm_quiet (by simpa using hq) s.cfg.slotOff)]
  simp [setSfac, setZoff, State.ran]

theorem healFactor_quiet {s : State} (hq : s.quiet = true) :
    healFactor s = .stop (.raised .readFactor)
      (({ s with sfac := Config.defSfac } : State).putNvm s.cfg.slotFac
        (bytesOf s.cfg.nvmOrder Config.defSfac)).forgetCalibration := by
  have h := memWriteNvm_quiet (s := { s with sfac := Config.defSfac }) hq s.cfg.slotFac Config.defSfac
  rw [healFactor, setSfac, Cmd.next_set, Cmd.next_of_done h]
  rfl

theorem healOffset_quiet {s : State} (hq : s.quiet = true) :
    healOffset s = .stop (.raised .readOffset)
      (({ s with zoff := Config.defZoff } : State).putNvm s.cfg.slotOff
        (bytesOf s.cfg.nvmOrder Config.defZoff)).forgetCalibration := by
  have h := memWriteNvm_quiet (s := { s with zoff := Config.defZoff }) hq s.cfg.slotOff Config.defZoff
  rw [healOffset, setZoff, Cmd.next_set, Cmd.next_of_done h]
  rfl

/-- The bytes just put at a slot are there, and every other byte is as before. -/
theorem storedAt_putNvm {s : State} (hm : s.nvm.wf = true) (a : Nat) {bytes : List Byte} (hb : bytes.length = 4) :
    (s.putNvm a bytes).nvm.readBytes a 4 = bytes ∧
      ∀ b, b < a ∨ a + 4 ≤ b → (s.putNvm a bytes).nvm.read b = s.nvm.read b := by
  refine ⟨?_, fun b h => Memory.read_writeBytes_outside _ _ (by rw [hb]; exact h)⟩
  have := Memory.readBytes_writeBytes hm a bytes
  rwa [hb] at this

end Sys2Proof.Machine
end

