-- ==== Sys2Proof/Laws/Float.lean ====
section
/-! SUPPORT. What a rounded pattern is: its fields, and that it is the nearest one, ties to even. -/

set_option Elab.async false

namespace Sys2Proof.F32

/-! ### Patterns -/

/-- The magnitude that a pattern without its sign stands for, in units of 2^-149. -/
def patternMagnitude (p : Nat) : Nat :=
  if p / 2 ^ 23 = 0 then p % 2 ^ 23 else (2 ^ 23 + p % 2 ^ 23) * 2 ^ (p / 2 ^ 23 - 1)

theorem expField_eq (w : F32) : expField w = absPattern w / 2 ^ 23 := by
  have := w.isLt
  simp only [expField, absPattern, BitVec.extractLsb'_toNat, Nat.shiftRight_eq_div_pow]
  omega

theorem fracField_eq (w : F32) : fracField w = absPattern w % 2 ^ 23 := by
  have := w.isLt
  simp only [fracField, absPattern, BitVec.extractLsb'_toNat, Nat.shiftRight_eq_div_pow]
  omega

theorem magnitude_eq (w : F32) : magnitude w = patternMagnitude (absPattern w) := by
  rw [magnitude, expField_eq, fracField_eq, patternMagnitude]

theorem absPattern_withSign (s : Bool) {p : Nat} (h : p < 2 ^ 31) : absPattern (withSign s p) = p := by
  simp only [absPattern, withSign, BitVec.extractLsb'_toNat, Nat.shiftRight_eq_div_pow, BitVec.toNat_ofNat]
  cases s <;> simp only [Bool.false_eq_true, if_false, if_true] <;> omega

theorem sign_withSign (s : Bool) {p : Nat} (h : p < 2 ^ 31) : sign (withSign s p) = s := by
  simp only [sign, withSign, BitVec.getLsbD_ofNat]
  cases s
  · simp [Nat.testBit_lt_two_pow h]
  · simp only [if_true, Nat.testBit_two_pow_add_eq, Nat.testBit_lt_two_pow h]
    rfl

theorem even_withSign (s : Bool) (p : Nat) : (withSign s p).getLsbD 0 = decide (p % 2 = 1) := by
  simp only [withSign, BitVec.getLsbD_ofNat, Nat.testBit_zero]
  cases s <;> simp [Nat.add_mod]

/-- A significand at an exponent: its pattern and its magnitude. -/
theorem patternMagnitude_mk {e q : Nat} (hq : q ≤ 2 ^ 24) (he : e = 0 ∨ 2 ^ 23 ≤ q) :
    patternMagnitude (e * 2 ^ 23 + q) = q * 2 ^ e := by
  unfold patternMagnitude
  rcases Nat.lt_or_ge q (2 ^ 23) with h | h
  · obtain rfl : e = 0 := by omega
    rw [if_pos (by omega), Nat.mod_eq_of_lt (by omega)]
    simp
  rcases Nat.lt_or_ge q (2 ^ 24) with h' | h'
  · have h1 : (e * 2 ^ 23 + q) / 2 ^ 23 = e + 1 := by omega
    have h2 : (e * 2 ^ 23 + q) % 2 ^ 23 = q - 2 ^ 23 := by omega
    rw [h1, h2, if_neg (by omega), Nat.add_sub_cancel, Nat.add_sub_cancel' h]
  · obtain rfl : q = 2 ^ 24 := by omega
    have h1 : (e * 2 ^ 23 + 2 ^ 24) / 2 ^ 23 = e + 1 + 1 := by omega
    have h2 : (e * 2 ^ 23 + 2 ^ 24) % 2 ^ 23 = 0 := by omega
    rw [h1, h2, if_neg (by omega), Nat.add_sub_cancel, Nat.pow_succ]
    ring

/-- Every value is on the grid of an exponent or below the values that have it. -/
theorem patternMagnitude_grid (p e : Nat) :
    (∃ k, patternMagnitude p = k * 2 ^ e) ∨ (0 < e ∧ patternMagnitude p < 2 ^ 23 * 2 ^ e) := by
  unfold patternMagnitude
  have hf := Nat.mod_lt p (show 0 < 2 ^ 23 by norm_num)
  rcases Nat.eq_zero_or_pos e with rfl | he
  · exact .inl ⟨_, (Nat.mul_one _).symm⟩
  split
  · refine .inr ⟨he, hf.trans_le ?_⟩
    exact Nat.le_mul_of_pos_right _ (by positivity)
  · rcases Nat.lt_or_ge (p / 2 ^ 23 - 1) e with h | h
    · refine .inr ⟨he, ?_⟩
      calc (2 ^ 23 + p % 2 ^ 23) * 2 ^ (p / 2 ^ 23 - 1)
          < 2 ^ 24 * 2 ^ (p / 2 ^ 23 - 1) := by
            apply Nat.mul_lt_mul_of_pos_right _ (by positivity)
            omega
        _ = 2 ^ 23 * 2 ^ (p / 2 ^ 23 - 1 + 1) := by rw [Nat.pow_succ]; ring
        _ ≤ 2 ^ 23 * 2 ^ e := Nat.mul_le_mul_left _ (Nat.pow_le_pow_right (by norm_num) h)
    · refine .inl ⟨(2 ^ 23 + p % 2 ^ 23) * 2 ^ (p / 2 ^ 23 - 1 - e), ?_⟩
      rw [Nat.mul_assoc, ← Nat.pow_add, Nat.sub_add_cancel h]

/-! ### Rounding -/

/-- The nearest integer is within half a unit, and even when it is exactly half a unit away. -/
theorem divNearestEven_spec (n : Nat) {d : Nat} (hd : 0 < d) :
    2 * (((divNearestEven n d * d : Nat) : Int) - n).natAbs ≤ d ∧
    (2 * (((divNearestEven n d * d : Nat) : Int) - n).natAbs = d → divNearestEven n d % 2 = 0) := by
  have h := Nat.div_add_mod n d
  have hr := Nat.mod_lt n hd
  rw [Nat.mul_comm] at h
  unfold divNearestEven
  dsimp only
  generalize n / d = q at *
  generalize n % d = r at *
  have h1 : (q + 1) * d = q * d + d := Nat.succ_mul q d
  split
  · generalize q * d = m at *; omega
  split
  · rw [h1]; generalize q * d = m at *; omega
  · rcases Nat.mod_two_eq_zero_or_one q with hq | hq <;> rw [hq]
    · rw [Nat.add_zero]; generalize q * d = m at *; omega
    · rw [h1]; generalize q * d = m at *; omega

/-- The exponent and the significand that `roundPattern` chooses. -/
theorem roundPattern_parts (n : Nat) {d : Nat} (hd : 0 < d) :
    ∃ e q, roundPattern n d = min (e * 2 ^ 23 + q) infPattern ∧ q ≤ 2 ^ 24 ∧ (e = 0 ∨ 2 ^ 23 * (d * 2 ^ e) ≤ n) ∧
      n < 2 ^ 24 * (d * 2 ^ e) ∧ (e = 0 ∨ 2 ^ 23 ≤ q) ∧ 2 * (((q * (d * 2 ^ e) : Nat) : Int) - n).natAbs ≤ d * 2 ^ e ∧
      (2 * (((q * (d * 2 ^ e) : Nat) : Int) - n).natAbs = d * 2 ^ e → q % 2 = 0) := by
  refine ⟨Nat.log2 (n / d) - 23, divNearestEven n (d * 2 ^ (Nat.log2 (n / d) - 23)), rfl, ?_⟩
  have hS : 0 < d * 2 ^ (Nat.log2 (n / d) - 23) := by positivity
  obtain ⟨h1, h2⟩ := divNearestEven_spec n hS
  have hhi : n < 2 ^ 24 * (d * 2 ^ (Nat.log2 (n / d) - 23)) := by
    have h3 : n / d < 2 ^ (Nat.log2 (n / d) + 1) := Nat.lt_log2_self
    have h4 : n < 2 ^ (Nat.log2 (n / d) + 1) * d := (Nat.div_lt_iff_lt_mul hd).1 h3
    refine h4.trans_le ?_
    rw [Nat.mul_left_comm, Nat.mul_comm, ← Nat.pow_add]
    exact Nat.mul_le_mul_left _ (Nat.pow_le_pow_right (by norm_num) (by omega))
  have hlo : Nat.log2 (n / d) - 23 = 0 ∨ 2 ^ 23 * (d * 2 ^ (Nat.log2 (n / d) - 23)) ≤ n := by
    rcases Nat.lt_or_ge (Nat.log2 (n / d)) 24 with h | h
    · exact .inl (by omega)
    · refine .inr ?_
      have h3 : 2 ^ Nat.log2 (n / d) ≤ n / d := Nat.log2_self_le (by
        intro h0; rw [h0] at h; simp at h)
      have h4 : 2 ^ Nat.log2 (n / d) * d ≤ n := (Nat.le_div_iff_mul_le hd).1 h3
      refine le_trans (le_of_eq ?_) h4
      rw [Nat.mul_left_comm, ← Nat.pow_add, Nat.mul_comm]
      congr 2; omega
  generalize Nat.log2 (n / d) - 23 = e at *
  generalize divNearestEven n (d * 2 ^ e) = q at *
  generalize d * 2 ^ e = S at *
  refine ⟨?_, hlo, hhi, ?_, h1, h2⟩
  · by_contra h
    have : (2 ^ 24 + 1) * S ≤ q * S := Nat.mul_le_mul_right _ (by omega)
    generalize q * S = m at *
    omega
  · refine hlo.imp_right fun hlo => ?_
    by_contra h
    have : q * S ≤ (2 ^ 23 - 1) * S := Nat.mul_le_mul_right _ (by omega)
    generalize q * S = m at *
    omega

/-- Of two multiples of `S`, one within half a unit of `n` is the nearer, and strictly unless it is half a unit away. -/
theorem nearest_multiple {q k S n : Nat} (h : 2 * (((q * S : Nat) : Int) - n).natAbs ≤ S) (hk : k ≠ q) :
    (((q * S : Nat) : Int) - n).natAbs ≤ (((k * S : Nat) : Int) - n).natAbs ∧
    ((((q * S : Nat) : Int) - n).natAbs = (((k * S : Nat) : Int) - n).natAbs →
      2 * (((q * S : Nat) : Int) - n).natAbs = S) := by
  rcases Nat.lt_or_gt_of_ne hk with h' | h'
  · have : (k + 1) * S ≤ q * S := Nat.mul_le_mul_right _ h'
    rw [Nat.succ_mul] at this
    generalize q * S = a at *; generalize k * S = b at *
    omega
  · have : (q + 1) * S ≤ k * S := Nat.mul_le_mul_right _ h'
    rw [Nat.succ_mul] at this
    generalize q * S = a at *; generalize k * S = b at *
    omega

/-- `roundPattern` is infinity exactly from half a unit above the largest finite value on. -/
theorem roundPattern_eq_inf (n : Nat) {d : Nat} (hd : 0 < d) :
    roundPattern n d = infPattern ↔ (2 ^ 25 - 1) * 2 ^ 252 * d ≤ n := by
  obtain ⟨e, q, hp, hq, hlo, hhi, hq', h1, h2⟩ := roundPattern_parts n hd
  have hinf : infPattern = 255 * 2 ^ 23 := by decide
  rw [hp, min_eq_right_iff, hinf, Nat.mul_assoc, Nat.mul_comm (2 ^ 252) d]
  have hT : 0 < d * 2 ^ 252 := by positivity
  rcases Nat.lt_trichotomy e 253 with he | rfl | he
  · have below : ∀ S T : Nat, 0 < T → S ≤ T → n < 2 ^ 24 * S → ¬ (2 ^ 25 - 1) * T ≤ n := by intros; omega
    exact ⟨fun h => by omega, fun h => absurd h
      (below _ _ hT (Nat.mul_le_mul_left _ (Nat.pow_le_pow_right (by norm_num) (by omega))) hhi)⟩
  · have h5 : d * 2 ^ 253 = 2 * (d * 2 ^ 252) := by ring
    rw [h5] at h1 h2
    have top : ∀ T : Nat, 0 < T → 2 * (((q * (2 * T) : Nat) : Int) - n).natAbs ≤ 2 * T →
        (2 * (((q * (2 * T) : Nat) : Int) - n).natAbs = 2 * T → q % 2 = 0) →
        (255 * 2 ^ 23 ≤ 253 * 2 ^ 23 + q ↔ (2 ^ 25 - 1) * T ≤ n) := by
      intro T hT h1 h2
      constructor
      · intro h
        obtain rfl : q = 2 ^ 24 := by omega
        omega
      · intro h
        by_contra hc
        rcases Nat.lt_or_ge q (2 ^ 24 - 1) with h8 | h8
        · have h9 : q * (2 * T) ≤ (2 ^ 24 - 2) * (2 * T) := Nat.mul_le_mul_right _ (by omega)
          generalize q * (2 * T) = m at *
          omega
        · obtain rfl : q = 2 ^ 24 - 1 := by omega
          omega
    exact top _ hT h1 h2
  · have above : ∀ T U S : Nat, U = 4 * T → U ≤ S → 2 ^ 23 * S ≤ n → (2 ^ 25 - 1) * T ≤ n := by intros; omega
    exact ⟨fun _ => above (d * 2 ^ 252) (d * 2 ^ 254) (d * 2 ^ e) (by ring)
      (Nat.mul_le_mul_left _ (Nat.pow_le_pow_right (by norm_num) (by omega))) (hlo.resolve_left (by omega)),
      fun _ => by omega⟩

theorem roundPattern_le (n d : Nat) : roundPattern n d ≤ infPattern := Nat.min_le_right _ _

end Sys2Proof.F32

namespace Sys2Proof.Machine

open Sys2Proof.F32

/-- A rounded pattern that is finite is the nearest one, ties to even. -/
theorem roundsTo_withSign {n d : Nat} (hd : 0 < d) (h : n < (2 ^ 25 - 1) * 2 ^ 252 * d) (s : Bool) :
    RoundsTo n d (withSign s (roundPattern n d)) := by
  have hfin : roundPattern n d ≠ infPattern := fun h' => by
    have := (roundPattern_eq_inf n hd).1 h'; omega
  obtain ⟨e, q, hp, hq, hlo, hhi, hq', h1, h2⟩ := roundPattern_parts n hd
  have hlt : roundPattern n d < infPattern := lt_of_le_of_ne (roundPattern_le n d) hfin
  have hp' : roundPattern n d = e * 2 ^ 23 + q := by
    rw [hp] at hlt ⊢
    exact Nat.min_eq_left (by omega)
  have hi : infPattern < 2 ^ 31 := by decide
  refine ⟨by rwa [absPattern_withSign s (by omega)], fun v hv => ?_⟩
  have hm : magnitude (withSign s (roundPattern n d)) = q * 2 ^ e := by
    rw [magnitude_eq, absPattern_withSign s (by omega), hp', patternMagnitude_mk hq hq']
  rw [hm, even_withSign, hp']
  have hcast : ((q * 2 ^ e : Nat) : Int) * d = ((q * (d * 2 ^ e) : Nat) : Int) := by push_cast; ring
  rw [hcast]
  have hpar : (e * 2 ^ 23 + q) % 2 = q % 2 := by omega
  rw [hpar]
  rw [magnitude_eq v]
  rcases patternMagnitude_grid (absPattern v) e with ⟨k, hk⟩ | ⟨he, hk⟩
  · rw [hk]
    have hcast' : ((k * 2 ^ e : Nat) : Int) * d = ((k * (d * 2 ^ e) : Nat) : Int) := by push_cast; ring
    rw [hcast']
    by_cases hkq : k = q
    · subst hkq
      exact ⟨le_refl _, fun _ h => absurd rfl h⟩
    · obtain ⟨h3, h4⟩ := nearest_multiple h1 hkq
      refine ⟨h3, fun h5 _ => ?_⟩
      have := h2 (h4 h5)
      simp [this]
  · have hlo' : 2 ^ 23 * (d * 2 ^ e) ≤ n := hlo.resolve_left (by omega)
    have hv' : patternMagnitude (absPattern v) * d < 2 ^ 23 * (d * 2 ^ e) := by
      have := Nat.mul_lt_mul_of_pos_right hk hd
      calc _ < 2 ^ 23 * 2 ^ e * d := this
        _ = _ := by ring
    have hcast' : ((patternMagnitude (absPattern v) : Nat) : Int) * d =
        ((patternMagnitude (absPattern v) * d : Nat) : Int) := by push_cast; ring
    rw [hcast']
    have key : (((q * (d * 2 ^ e) : Nat) : Int) - n).natAbs ≤ (((2 ^ 23 * (d * 2 ^ e) : Nat) : Int) - n).natAbs := by
      by_cases hkq : 2 ^ 23 = q
      · subst hkq; exact le_refl _
      · exact (nearest_multiple h1 hkq).1
    generalize patternMagnitude (absPattern v) * d = m at *
    generalize 2 ^ 23 * (d * 2 ^ e) = a at *
    generalize q * (d * 2 ^ e) = b at *
    refine ⟨by omega, fun h5 => by omega⟩

end Sys2Proof.Machine
end

