-- ==== Sys2Proof/Laws/Keeps.lean ====
section
/-! SUPPORT. What a piece of a command keeps however it ends, and which errors it can raise: one lemma per shared
operation, for every relation that the primitives respect. A claim about what commands leave alone instantiates the
relation and cites these lemmas. -/

set_option Elab.async false

namespace Sys2Proof.Machine

/-- However `c` ends, the state it ends in is related to the one it began in. -/
def Cmd.Keeps {α : Type} (R : State → State → Prop) (c : Cmd α) : Prop := ∀ s, R s (c s).state

/-- A relation that everything a command does to the sensor and the clock respects: the two bus events in the lengths
the engine uses, the clock's two, and writes of working registers. -/
structure SensorRel (R : State → State → Prop) : Prop where
  refl : ∀ s, R s s
  trans : ∀ {s t u}, R s t → R t u → R s u
  work : ∀ s w, R s { s with work := w }
  write : ∀ bytes : List Byte, bytes.length ≤ 2 → (busWrite bytes).Keeps R
  read : ∀ n, n = 1 ∨ n = 3 → (busRead n).Keeps R
  now : Cmd.Keeps R now
  idle : Cmd.Keeps R idleTick

section Compose

variable {α β : Type} {R : State → State → Prop}

theorem Cmd.Keeps.pure (h : SensorRel R) (a : α) : (Cmd.pure a).Keeps R := fun s => h.refl s

theorem Cmd.Keeps.raise (h : SensorRel R) (e : Err) : (Cmd.raise e : Cmd α).Keeps R := fun s => h.refl s

theorem Cmd.Keeps.suspend (h : SensorRel R) : (Cmd.suspend : Cmd α).Keeps R := fun s => h.refl s

theorem Cmd.Keeps.get (h : SensorRel R) (f : State → α) : (Cmd.get f).Keeps R := fun s => h.refl s

theorem Cmd.Keeps.bind (h : SensorRel R) {c : Cmd α} {k : α → Cmd β} (hc : c.Keeps R) (hk : ∀ a, (k a).Keeps R) :
    (c.bind k).Keeps R := by
  intro s
  have := hc s
  simp only [Cmd.bind]
  cases hcs : c s with
  | done a t => rw [hcs] at this; exact h.trans this (hk a t)
  | stop why t => rw [hcs] at this; exact this

theorem Cmd.Keeps.next (h : SensorRel R) {c : Cmd α} {d : Cmd β} (hc : c.Keeps R) (hd : d.Keeps R) :
    (c.next d).Keeps R := Cmd.Keeps.bind h hc fun _ => hd

/-- A piece that reads the state to choose what to do. -/
theorem Cmd.Keeps.ofState {c : State → Cmd α} (hc : ∀ s, (c s).Keeps R) : Cmd.Keeps R fun s => c s s :=
  fun s => hc s s

theorem Cmd.Keeps.ite {b : Prop} [Decidable b] {c d : Cmd α} (hc : c.Keeps R) (hd : d.Keeps R) :
    (if b then c else d).Keeps R := by split <;> assumption

end Compose

section Procedures

variable {R : State → State → Prop} (h : SensorRel R)

include h

theorem setTb_keeps (b : Byte) : (setTb b).Keeps R := fun s => h.work s _
theorem countAttempt_keeps : countAttempt.Keeps R := fun s => h.work s _
theorem clearAttempts_keeps : clearAttempts.Keeps R := fun s => h.work s _
theorem startClock_keeps : startClock.Keeps R := .bind h h.now fun _ s => h.work s _
theorem clearSum_keeps : clearSum.Keeps R := fun s => h.work s _
theorem addSample_keeps (v : Word) : (addSample v).Keeps R := fun s => h.work s _
theorem clearPolls_keeps : clearPolls.Keeps R := fun s => h.work s _
theorem countPoll_keeps : countPoll.Keeps R := fun s => h.work s _

theorem checkStatus_keeps (st : BusStatus) : (checkStatus st).Keeps R := by
  unfold checkStatus; cases comm st
  · exact .pure h _
  · exact .raise h _

/-- A register read of the two lengths the engine uses. -/
theorem memReadDev_keeps (a : Byte) {n : Nat} (hn : n = 1 ∨ n = 3) : (memReadDev a n).Keeps R :=
  .bind h (h.write _ (by simp)) fun st => .next h (checkStatus_keeps h st) <|
    .bind h (h.read n hn) fun _ => .ite (.raise h _) (.pure h _)

theorem readReg_keeps (a : Byte) : (readReg a).Keeps R :=
  .bind h (memReadDev_keeps h a (.inl rfl)) fun _ => .pure h _

theorem attempt_keeps {bytes : List Byte} (hb : bytes.length ≤ 2) : (attempt bytes).Keeps R :=
  .bind h (h.write _ hb) fun _ => .next h (countAttempt_keeps h) (.pure h _)

theorem writeAttempt_keeps (a v : Byte) : (writeAttempt a v).Keeps R := attempt_keeps h (by simp)

theorem writeAttempts_keeps (a v : Byte) (more : Nat) : (writeAttempts a v more).Keeps R := by
  induction more with
  | zero => exact .bind h (writeAttempt_keeps h a v) (checkStatus_keeps h)
  | succ n ih => exact .bind h (writeAttempt_keeps h a v) fun st => .ite ih (checkStatus_keeps h st)

theorem memWriteDev_keeps (a v : Byte) : (memWriteDev a v).Keeps R :=
  .next h (clearAttempts_keeps h) (writeAttempts_keeps h a v _)

theorem probe_keeps : probe.Keeps R :=
  .next h (clearAttempts_keeps h) <| .bind h (attempt_keeps h (by simp)) fun _ =>
    .ite (.pure h _) (.bind h (attempt_keeps h (by simp)) (checkStatus_keeps h))

theorem getBit_keeps (r : BitRef) : (getBit r).Keeps R :=
  .bind h (readReg_keeps h _) fun b => .next h (setTb_keeps h b) (.get h _)

theorem setBit_keeps (r : BitRef) : (setBit r).Keeps R :=
  .bind h (readReg_keeps h _) fun b => .next h (setTb_keeps h b) (.ofState fun _ => memWriteDev_keeps h _ _)

theorem clearBit_keeps (r : BitRef) : (clearBit r).Keeps R :=
  .bind h (readReg_keeps h _) fun b => .next h (setTb_keeps h b) (.ofState fun _ => memWriteDev_keeps h _ _)

theorem setField_keeps (f : Field) (v : Byte) : (setField f v).Keeps R :=
  .bind h (readReg_keeps h _) fun b => .next h (setTb_keeps h b) (.ofState fun _ => memWriteDev_keeps h _ _)

theorem available_keeps : available.Keeps R := fun s => getBit_keeps h s.cfg.dev.ready s

theorem reading_keeps : reading.Keeps R :=
  fun s => Cmd.Keeps.bind h (memReadDev_keeps h s.cfg.dev.sample (.inr rfl)) (fun _ => .pure h _) s

theorem checkDeadline_keeps (limit : Nat) (e : Err) : (checkDeadline limit e).Keeps R := by
  refine .bind h h.now fun t s => ?_
  split <;> exact h.refl s

theorem takeSample_keeps (count : BitVec 16) : (takeSample count).Keeps R :=
  .bind h (reading_keeps h) fun v => .next h (addSample_keeps h v) (.get h _)

theorem averagePass_keeps (count : BitVec 16) : (averagePass count).Keeps R :=
  .bind h (available_keeps h) fun _ =>
    .bind h (.ite (takeSample_keeps h count) (.pure h _)) fun _ =>
      .ite (.get h _) (.next h (checkDeadline_keeps h _ _) (.next h h.idle (.pure h _)))

theorem averageLoop_keeps (count : BitVec 16) (n : Nat) : (averageLoop count n).Keeps R := by
  induction n with
  | zero => exact .raise h _
  | succ n ih =>
    refine .bind h (averagePass_keeps h count) fun r => ?_
    cases r with
    | none => exact ih
    | some a => exact .pure h a

/-- The averaging procedure (R124). -/
theorem average_keeps (count : BitVec 16) : (average count).Keeps R :=
  .next h (startClock_keeps h) (.next h (clearSum_keeps h) (.ofState fun _ => averageLoop_keeps h count _))

theorem softReset_keeps : softReset.Keeps R :=
  fun s => Cmd.Keeps.next h (setBit_keeps h s.cfg.dev.rst) (.next h h.idle (clearBit_keeps h _)) s

theorem setBits_keeps (xs : List BitRef) : (setBits xs).Keeps R := by
  induction xs with
  | nil => exact .pure h _
  | cons x xs ih => exact .next h (setBit_keeps h x) ih

theorem powerPolls_keeps (ready : BitRef) (more : Nat) : (powerPolls ready more).Keeps R := by
  induction more with
  | zero => exact .bind h (getBit_keeps h _) fun _ => .ite (.pure h _) (.next h (countPoll_keeps h) (.raise h _))
  | succ n ih =>
    exact .bind h (getBit_keeps h _) fun _ => .ite (.pure h _) (.next h (countPoll_keeps h) (.next h h.idle ih))

theorem powerUp_keeps : powerUp.Keeps R :=
  fun s => Cmd.Keeps.next h (setBits_keeps h s.cfg.dev.puSet)
    (.next h (clearPolls_keeps h) (powerPolls_keeps h _ _)) s

theorem calBegin_keeps : calBegin.Keeps R := fun s => setBit_keeps h s.cfg.dev.calStart s

theorem calStatus_keeps : calStatus.Keeps R := by
  intro s
  exact Cmd.Keeps.bind h (getBit_keeps h s.cfg.dev.calActive)
    (fun _ => .ite (.pure h _) (.bind h (getBit_keeps h _) fun _ => .pure h _)) s

theorem calWaitPass_keeps (timeout : Nat) : (calWaitPass timeout).Keeps R :=
  .bind h (calStatus_keeps h) fun _ =>
    .ite (.next h (.ite (.pure h _) (checkDeadline_keeps h _ _)) (.next h h.idle (.pure h _))) (.pure h _)

theorem calWaitLoop_keeps (timeout n : Nat) : (calWaitLoop timeout n).Keeps R := by
  induction n with
  | zero => exact .ite (.suspend h) (.raise h _)
  | succ n ih =>
    refine .bind h (calWaitPass_keeps h timeout) fun r => ?_
    cases r with
    | none => exact ih
    | some a => exact .pure h a

theorem calWaitRest_keeps (timeout : Nat) : (calWaitRest timeout).Keeps R := by
  intro s
  exact Cmd.Keeps.bind h (calWaitLoop_keeps h timeout (calWaitPasses s timeout))
    (fun st => (.ite (.raise h _) (.pure h _) : (calWaitEnd st).Keeps R)) s

theorem calWait_keeps (timeout : Nat) : (calWait timeout).Keeps R :=
  .next h (startClock_keeps h) (calWaitRest_keeps h timeout)

theorem calSync_keeps : calSync.Keeps R := fun s =>
  Cmd.Keeps.next h (calBegin_keeps h) (calWait_keeps h s.cfg.ticksPerSecond) s

/-- BEGIN (R152), for a relation that the stage number respects too. -/
theorem initSequence_keeps (ha : ∀ n, (setStage n).Keeps R) : initSequence.Keeps R := fun s =>
  Cmd.Keeps.next h (ha 1) (.next h (softReset_keeps h) (.next h (ha 2) (.next h (powerUp_keeps h)
    (.next h (ha 3) (.next h (setField_keeps h _ _) (.next h (ha 4) (.next h (setField_keeps h _ _)
    (.next h (ha 5) (.next h (setField_keeps h _ _) (.next h (ha 6) (.next h (memWriteDev_keeps h _ _)
    (.next h (ha 7) (.next h (setBit_keeps h _) (.next h (ha 8) (calSync_keeps h))))))))))))))) s

theorem beginSequence_keeps (ha : ∀ n, (setStage n).Keeps R) (init : Bool) : (beginSequence init).Keeps R :=
  .next h (ha 0) (.next h (probe_keeps h) (.next h (.ite (initSequence_keeps h ha) (.pure h _)) (.pure h _)))

end Procedures

/-! ### Which errors a piece of a command can raise -/

/-- Every error `c` raises is in the list. -/
def Cmd.Raises {α : Type} (es : List Err) (c : Cmd α) : Prop := ∀ s e t, c s = .stop (.raised e) t → e ∈ es

/-- `c` does not end its step at a polling loop. -/
def Cmd.Ends {α : Type} (c : Cmd α) : Prop := ∀ s t, c s ≠ .stop .suspended t

section Stops

variable {α β : Type} {es : List Err}

theorem Cmd.Raises.mono {es' : List Err} {c : Cmd α} (hc : c.Raises es) (h : es ⊆ es') : c.Raises es' :=
  fun s e t hs => h (hc s e t hs)

theorem Cmd.Raises.bind {c : Cmd α} {k : α → Cmd β} (hc : c.Raises es) (hk : ∀ a, (k a).Raises es) :
    (c.bind k).Raises es := by
  intro s e t hs
  simp only [Cmd.bind] at hs
  cases hcs : c s with
  | done a u => rw [hcs] at hs; exact hk a u e t hs
  | stop why u => rw [hcs] at hs; cases hs; exact hc s e _ hcs

theorem Cmd.Raises.next {c : Cmd α} {d : Cmd β} (hc : c.Raises es) (hd : d.Raises es) : (c.next d).Raises es :=
  .bind hc fun _ => hd

theorem Cmd.Raises.pure (a : α) : (Cmd.pure a).Raises es := fun _ _ _ h => by cases h
theorem Cmd.Raises.get (f : State → α) : (Cmd.get f).Raises es := fun _ _ _ h => by cases h
theorem Cmd.Raises.set (f : State → State) : (Cmd.set f).Raises es := fun _ _ _ h => by cases h
theorem Cmd.Raises.suspend : (Cmd.suspend : Cmd α).Raises es := fun _ _ _ h => by cases h
theorem Cmd.Raises.raise {e : Err} (h : e ∈ es) : (Cmd.raise e : Cmd α).Raises es := fun _ _ _ hs => by cases hs; exact h

theorem Cmd.Raises.ofState {c : State → Cmd α} (hc : ∀ s, (c s).Raises es) : Cmd.Raises es fun s => c s s :=
  fun s e t hs => hc s s e t hs

theorem Cmd.Raises.ite {b : Prop} [Decidable b] {c d : Cmd α} (hc : c.Raises es) (hd : d.Raises es) :
    (if b then c else d).Raises es := by split <;> assumption

theorem perform_raises (answer : State → α) (effect : State → State) : (perform answer effect).Raises es := by
  intro s e t hs
  simp only [perform] at hs
  split at hs <;> cases hs

theorem Cmd.Ends.bind {c : Cmd α} {k : α → Cmd β} (hc : c.Ends) (hk : ∀ a, (k a).Ends) : (c.bind k).Ends := by
  intro s t hs
  simp only [Cmd.bind] at hs
  cases hcs : c s with
  | done a u => rw [hcs] at hs; exact hk a u t hs
  | stop why u => rw [hcs] at hs; cases hs; exact hc s _ hcs

theorem perform_ends (answer : State → α) (effect : State → State) : (perform answer effect).Ends := by
  intro s t hs
  simp only [perform] at hs
  split at hs <;> cases hs

end Stops

/-- The communication errors a write transaction can end with (R52). -/
def writeErrors : List Err := [.dataTooLarge, .addrNack, .dataNack, .io]

/-- The communication errors of a register read (R52, R53). -/
def readErrors : List Err := [.dataTooLarge, .addrNack, .dataNack, .io, .noData]

theorem checkStatus_raises (st : BusStatus) : (checkStatus st).Raises writeErrors := by
  intro s e t hs
  cases st <;> cases hs <;> simp [writeErrors]

theorem attempt_raises (bytes : List Byte) {es : List Err} : (attempt bytes).Raises es :=
  .bind (perform_raises _ _) fun _ => .next (.set _) (.pure _)

theorem writeAttempt_raises (a v : Byte) : (writeAttempt a v).Raises writeErrors := attempt_raises _

theorem writeAttempts_raises (a v : Byte) (more : Nat) : (writeAttempts a v more).Raises writeErrors := by
  induction more with
  | zero => exact .bind (writeAttempt_raises a v) checkStatus_raises
  | succ n ih => exact .bind (writeAttempt_raises a v) fun st => .ite ih (checkStatus_raises st)

theorem memWriteDev_raises (a v : Byte) : (memWriteDev a v).Raises writeErrors :=
  .next (.set _) (writeAttempts_raises a v _)

theorem memReadDev_raises (a : Byte) (n : Nat) : (memReadDev a n).Raises readErrors :=
  .bind (perform_raises _ _) fun st => .next ((checkStatus_raises st).mono (by simp [writeErrors, readErrors])) <|
    .bind (perform_raises _ _) fun _ => .ite (.raise (by simp [readErrors])) (.pure _)

theorem readReg_raises (a : Byte) : (readReg a).Raises readErrors := .bind (memReadDev_raises a 1) fun _ => .pure _

theorem memWriteDev_raises_read (a v : Byte) : (memWriteDev a v).Raises readErrors :=
  (memWriteDev_raises a v).mono (by simp [writeErrors, readErrors])

theorem getBit_raises (r : BitRef) : (getBit r).Raises readErrors :=
  .bind (readReg_raises _) fun _ => .next (.set _) (.get _)

theorem setBit_raises (r : BitRef) : (setBit r).Raises readErrors :=
  .bind (readReg_raises _) fun _ => .next (.set _) (.ofState fun _ => memWriteDev_raises_read _ _)

theorem clearBit_raises (r : BitRef) : (clearBit r).Raises readErrors :=
  .bind (readReg_raises _) fun _ => .next (.set _) (.ofState fun _ => memWriteDev_raises_read _ _)

theorem setField_raises (f : Field) (v : Byte) : (setField f v).Raises readErrors :=
  .bind (readReg_raises _) fun _ => .next (.set _) (.ofState fun _ => memWriteDev_raises_read _ _)

theorem probe_raises : probe.Raises writeErrors :=
  .next (.set _) <| .bind (attempt_raises _) fun _ => .ite (.pure _) (.bind (attempt_raises _) checkStatus_raises)

theorem memReadNvm_raises (a : Nat) {es : List Err} : (memReadNvm a).Raises es :=
  .bind (perform_raises _ _) fun _ => .get _

theorem memWriteNvm_raises (a : Nat) (w : Word) {es : List Err} : (memWriteNvm a w).Raises es := by
  intro s e t hs
  simp only [memWriteNvm, nvmPut] at hs
  exact perform_raises _ _ s e t hs

theorem idleTick_raises {es : List Err} : idleTick.Raises es := by
  intro s e t hs
  simp only [idleTick, idle] at hs
  exact perform_raises _ _ s e t hs

theorem available_raises : available.Raises readErrors := fun s => getBit_raises s.cfg.dev.ready s

theorem reading_raises : reading.Raises readErrors := fun s =>
  Cmd.Raises.bind (memReadDev_raises s.cfg.dev.sample 3) (fun _ => .pure _) s

/-- The errors of the averaging procedure (R124). -/
def averageErrors : List Err := readErrors ++ [.timeout]

theorem checkDeadline_raises {es : List Err} (limit : Nat) {e : Err} (he : e ∈ es) :
    (checkDeadline limit e).Raises es := by
  refine .bind (perform_raises _ _) fun t s e' u hs => ?_
  split at hs <;> cases hs
  exact he

theorem averagePass_raises (count : BitVec 16) : (averagePass count).Raises averageErrors :=
  .bind (available_raises.mono (by simp [averageErrors])) fun _ =>
    .bind (.ite (.bind (reading_raises.mono (by simp [averageErrors])) fun _ => .next (.set _) (.get _)) (.pure _))
      fun _ => .ite (.get _) (.next (checkDeadline_raises _ (by simp [averageErrors]))
        (.next idleTick_raises (.pure _)))

theorem averageLoop_raises (count : BitVec 16) (n : Nat) : (averageLoop count n).Raises averageErrors := by
  induction n with
  | zero => exact .raise (by simp [averageErrors])
  | succ n ih =>
    refine .bind (averagePass_raises count) fun r => ?_
    cases r with
    | none => exact ih
    | some a => exact .pure a

theorem average_raises (count : BitVec 16) : (average count).Raises averageErrors :=
  .next (.bind (perform_raises _ _) fun _ => .set _) (.next (.set _) (.ofState fun _ => averageLoop_raises count _))

theorem setBits_raises (xs : List BitRef) : (setBits xs).Raises readErrors := by
  induction xs with
  | nil => exact .pure _
  | cons x xs ih => exact .next (setBit_raises x) ih

/-- The errors of `PowerUp` (R147). -/
def powerErrors : List Err := readErrors ++ [.powerup]

theorem powerPolls_raises (ready : BitRef) (more : Nat) : (powerPolls ready more).Raises powerErrors := by
  induction more with
  | zero =>
    exact .bind ((getBit_raises ready).mono (by simp [powerErrors])) fun _ =>
      .ite (.pure _) (.next (.set _) (.raise (by simp [powerErrors])))
  | succ n ih =>
    exact .bind ((getBit_raises ready).mono (by simp [powerErrors])) fun _ =>
      .ite (.pure _) (.next (.set _) (.next idleTick_raises ih))

theorem powerUp_raises : powerUp.Raises powerErrors := fun s =>
  Cmd.Raises.next ((setBits_raises s.cfg.dev.puSet).mono (by simp [powerErrors]))
    (.next (.set _) (powerPolls_raises s.cfg.dev.puReady _)) s

/-- The errors of `CalWait` (R150). -/
def waitErrors : List Err := readErrors ++ [.calFail, .calTimeout]

theorem calStatus_raises : calStatus.Raises readErrors := fun s =>
  Cmd.Raises.bind (getBit_raises s.cfg.dev.calActive)
    (fun _ => .ite (.pure _) (.bind (getBit_raises _) fun _ => .pure _)) s

theorem calWaitPass_raises (timeout : Nat) : (calWaitPass timeout).Raises waitErrors :=
  .bind (calStatus_raises.mono (by simp [waitErrors])) fun _ =>
    .ite (.next (.ite (.pure _) (checkDeadline_raises _ (by simp [waitErrors])))
      (.next idleTick_raises (.pure _))) (.pure _)

theorem calWaitLoop_raises (timeout n : Nat) : (calWaitLoop timeout n).Raises waitErrors := by
  induction n with
  | zero => exact .ite .suspend (.raise (by simp [waitErrors]))
  | succ n ih =>
    refine .bind (calWaitPass_raises timeout) fun r => ?_
    cases r with
    | none => exact ih
    | some a => exact .pure a

theorem calWaitRest_raises (timeout : Nat) : (calWaitRest timeout).Raises waitErrors := fun s =>
  Cmd.Raises.bind (calWaitLoop_raises timeout (calWaitPasses s timeout))
    (fun st => (.ite (.raise (by simp [waitErrors])) (.pure _) : (calWaitEnd st).Raises waitErrors)) s

theorem calWait_raises (timeout : Nat) : (calWait timeout).Raises waitErrors :=
  .next (.bind (perform_raises _ _) fun _ => .set _) (calWaitRest_raises timeout)

theorem calSync_raises : calSync.Raises waitErrors := fun s =>
  Cmd.Raises.next (c := calBegin)
    (fun s e t h => by
      have := setBit_raises s.cfg.dev.calStart s e t h
      simp [waitErrors, this])
    (calWait_raises s.cfg.ticksPerSecond) s

end Sys2Proof.Machine
end

