-- ==== Sys2Proof/Laws/Frames.lean ====
section
/-! SUPPORT. Relations that everything a command does to the sensor respects, ready to be given to the lemmas of
Laws/Keeps.lean. -/

set_option Elab.async false

namespace Sys2Proof.Machine

/-- What work on the sensor leaves alone, in every environment and whatever the host does: the configuration, the Scale
items, the response registers but `AUX`, `SEQ`, the storage, the response delivered. -/
def SensorFrame (s t : State) : Prop :=
  t.cfg = s.cfg ∧ t.zoff = s.zoff ∧ t.sfac = s.sfac ∧ t.calok = s.calok ∧ t.caldet = s.caldet ∧ t.status = s.status ∧
  t.res = s.res ∧ t.seq = s.seq ∧ t.nvm = s.nvm ∧ t.response = s.response

/-- An event keeps a relation if it does where no reset is due. -/
theorem perform_keeps {α : Type} {R : State → State → Prop} {answer : State → α} {effect : State → State}
    (hrefl : ∀ s, R s s) (h : ∀ s, R s (effect s.countEvent)) : (perform answer effect).Keeps R := by
  intro s
  unfold perform
  split
  · exact hrefl s
  · exact h s

/-- The idle wait keeps a relation if it does where no reset is due. -/
theorem idleTick_keeps {R : State → State → Prop} (hrefl : ∀ s, R s s)
    (h : ∀ s : State, R s ({ s.countEvent with clock := s.clock + s.cfg.tIdle }.record (.idle s.cfg.tIdle))) :
    Cmd.Keeps R idleTick := by
  intro s
  simp only [idleTick, idle, perform]
  split
  · exact hrefl s
  · exact h s

theorem sensorFrame_rel : SensorRel SensorFrame where
  refl s := by simp [SensorFrame]
  trans := by
    intro s t u h1 h2
    simp only [SensorFrame] at *
    simp [h2, h1]
  work s w := by simp [SensorFrame]
  write _ _ := perform_keeps (fun s => by simp [SensorFrame]) fun s => by simp [SensorFrame]
  read _ _ := perform_keeps (fun s => by simp [SensorFrame]) fun s => by simp [SensorFrame]
  now := perform_keeps (fun s => by simp [SensorFrame]) fun s => by simp [SensorFrame]
  idle := idleTick_keeps (fun s => by simp [SensorFrame]) fun s => by simp [SensorFrame]

/-- `AUX` is written by the stages of BEGIN and by nothing that works on the sensor. -/
theorem sameAux_rel : SensorRel fun s t => t.aux = s.aux where
  refl _ := rfl
  trans h1 h2 := h2.trans h1
  work _ _ := rfl
  write _ _ := perform_keeps (fun _ => rfl) fun _ => rfl
  read _ _ := perform_keeps (fun _ => rfl) fun _ => rfl
  now := perform_keeps (fun _ => rfl) fun _ => rfl
  idle := idleTick_keeps (fun _ => rfl) fun _ => rfl

/-- While the host's next move is no reset, its moves stay. -/
theorem sameHost_rel : SensorRel fun s t => s.quiet = true → t.host = s.host where
  refl _ _ := rfl
  trans := by
    intro s t u h1 h2 hq
    have h := h1 hq
    have : t.quiet = true := by unfold State.quiet at hq ⊢; rw [h]; exact hq
    rw [h2 this, h]
  work _ _ _ := rfl
  write _ _ := perform_keeps (fun _ _ => rfl) fun _ hq => countMove_of_quiet hq
  read _ _ := perform_keeps (fun _ _ => rfl) fun _ hq => countMove_of_quiet hq
  now := perform_keeps (fun _ _ => rfl) fun _ hq => countMove_of_quiet hq
  idle := idleTick_keeps (fun _ _ => rfl) fun _ hq => countMove_of_quiet hq

/-! ### The host's reset -/

/-- The events from `s` to `t` are counted off the host's reset, which does not fall behind them. -/
def CountsOff (s t : State) : Prop :=
  ∃ es, t.trace = s.trace ++ es ∧
    ∀ k rest, s.host = .reset k :: rest → es.length ≤ k ∧ t.host = .reset (k - es.length) :: rest

theorem countsOff_refl (s : State) : CountsOff s s := ⟨[], by simp, fun k rest h => by simpa using h⟩

theorem countsOff_trans {s t u : State} (h1 : CountsOff s t) (h2 : CountsOff t u) : CountsOff s u := by
  obtain ⟨es1, t1, p1⟩ := h1
  obtain ⟨es2, t2, p2⟩ := h2
  refine ⟨es1 ++ es2, by rw [t2, t1, List.append_assoc], fun k rest h => ?_⟩
  obtain ⟨l1, q1⟩ := p1 k rest h
  obtain ⟨l2, q2⟩ := p2 _ rest q1
  rw [List.length_append]
  exact ⟨by omega, by rw [q2, Nat.sub_sub]⟩

/-- An event that records itself and leaves the host's moves otherwise alone is counted off. -/
theorem perform_countsOff {α : Type} {answer : State → α} {effect : State → State}
    (ht : ∀ s, ∃ e, (effect s).trace = s.trace ++ [e]) (hh : ∀ s, (effect s).host = s.host) :
    (perform answer effect).Keeps CountsOff := by
  intro s
  unfold perform
  split
  · exact countsOff_refl s
  · rename_i hd
    obtain ⟨e, he⟩ := ht s.countEvent
    refine ⟨[e], he, fun k rest h => ?_⟩
    cases k with
    | zero => simp [State.resetDue, h] at hd
    | succ k =>
      refine ⟨by simp, ?_⟩
      simp [hh, State.countEvent, countMove, h]

theorem idleTick_countsOff : Cmd.Keeps CountsOff idleTick := fun s =>
  (perform_countsOff (fun _ => ⟨_, rfl⟩) fun _ => rfl : (Sys2Proof.Machine.idle s.cfg.tIdle).Keeps CountsOff) s

theorem countsOff_rel : SensorRel CountsOff where
  refl := countsOff_refl
  trans := countsOff_trans
  work _ _ := ⟨[], by simp, fun k rest h => by simpa using h⟩
  write _ _ := perform_countsOff (fun _ => ⟨_, rfl⟩) fun _ => rfl
  read _ _ := perform_countsOff (fun _ => ⟨_, rfl⟩) fun _ => rfl
  now := perform_countsOff (fun _ => ⟨_, rfl⟩) fun _ => rfl
  idle := idleTick_countsOff

theorem memReadNvm_countsOff (a : Nat) : (memReadNvm a).Keeps CountsOff :=
  .bind countsOff_rel (perform_countsOff (fun _ => ⟨_, rfl⟩) fun _ => rfl) fun _ => .get countsOff_rel _

theorem memWriteNvm_countsOff (a : Nat) (w : Word) : (memWriteNvm a w).Keeps CountsOff := fun s =>
  (perform_countsOff (fun _ => ⟨_, rfl⟩) fun _ => rfl : (nvmPut a (bytesOf s.cfg.nvmOrder w)).Keeps CountsOff) s

/-- The end of a command, or of a stretch of it, whose piece counts its events off (R230, log 13). -/
theorem concludeWith_cutAfter {s : State} {r : Progress Word} (h : CountsOff s r.state)
    (hc : ∀ t, r = .stop .resetCut t → t.resetDue = true) {aux : State → State}
    (ha : ∀ t, (aux t).trace = t.trace ∧ (aux t).host = t.host) {k : Nat} {rest : List HostMove}
    (hs : s.host = .reset k :: rest) : CutAfter k rest s (concludeWith aux r) := by
  obtain ⟨es, ht, hk⟩ := h
  obtain ⟨hle, hh⟩ := hk k rest hs
  by_cases hd : r.state.resetDue = true
  · rw [concludeWith_of_due hd]
    have he : es.length = k := by
      rcases Nat.lt_or_ge es.length k with hlt | hge
      · obtain ⟨n, hn⟩ : ∃ n, k - es.length = n + 1 := ⟨k - es.length - 1, by omega⟩
        rw [hn] at hh
        simp [State.resetDue, hh] at hd
      · omega
    exact ⟨es, ht, .inr ⟨he, by simp [hh, dropReset], by simp [AtReset, Config.defZoff, Config.defSfac], rfl⟩⟩
  · have hlt : es.length < k := by
      rcases Nat.lt_or_ge es.length k with hlt | hge
      · exact hlt
      · rw [Nat.sub_eq_zero_of_le hge] at hh
        simp [State.resetDue, hh] at hd
    rw [concludeWith_of_not_due (by simpa using hd)]
    refine ⟨es, ?_, .inl ⟨hlt, ?_⟩⟩ <;> rcases r with ⟨w, t⟩ | ⟨_ | _ | _, t⟩
    · exact (ha t).1.trans ht
    · exact (ha t).1.trans ht
    · exact ht
    · exact ht
    · exact (ha t).2.trans hh
    · exact (ha t).2.trans hh
    · exact absurd (hc t rfl) hd
    · exact hh

/-- The trace only grows, by events of the engine's shapes. -/
def GrowsByShapes (s t : State) : Prop :=
  t.cfg = s.cfg ∧ ∃ es, t.trace = s.trace ++ es ∧ ∀ e ∈ es, eventShape s.cfg e = true

theorem growsByShapes_refl (s : State) : GrowsByShapes s s := ⟨rfl, [], by simp, by simp⟩

theorem growsByShapes_trans {s t u : State} (h1 : GrowsByShapes s t) (h2 : GrowsByShapes t u) : GrowsByShapes s u := by
  obtain ⟨c1, es1, t1, p1⟩ := h1
  obtain ⟨c2, es2, t2, p2⟩ := h2
  refine ⟨c2.trans c1, es1 ++ es2, by rw [t2, t1, List.append_assoc], fun e he => ?_⟩
  rcases List.mem_append.1 he with he | he
  · exact p1 e he
  · rw [← c1]; exact p2 e he

theorem growsByShapes_rel : SensorRel GrowsByShapes where
  refl := growsByShapes_refl
  trans := growsByShapes_trans
  work _ _ := ⟨rfl, [], by simp, by simp⟩
  write bytes hb := perform_keeps growsByShapes_refl fun s =>
    ⟨rfl, [.busWrite s.cfg.devAddr bytes s.countEvent.nextStatus], rfl, by simp [eventShape, hb]⟩
  read n hn := perform_keeps growsByShapes_refl fun s =>
    ⟨rfl, [.busRead s.cfg.devAddr n (s.countEvent.nextBytes n)], rfl, by
      have : (s.countEvent.nextBytes n).length ≤ n := List.length_take_le ..
      rcases hn with rfl | rfl <;> simpa [eventShape] using this⟩
  now := perform_keeps growsByShapes_refl fun s =>
    ⟨rfl, [.now s.countEvent.nextTime], rfl, by simp [eventShape]⟩
  idle := idleTick_keeps growsByShapes_refl fun s => ⟨rfl, [.idle s.cfg.tIdle], rfl, by simp [eventShape]⟩

/-- The clock law over what has been observed is kept (R10 E1, E2). -/
theorem clockAfter_append (es fs : List Event) :
    ∀ c, clockAfter c (es ++ fs) = (clockAfter c es).bind fun d => clockAfter d fs := by
  induction es with
  | nil => intro c; rfl
  | cons e es ih =>
    intro c
    cases e <;> simp only [List.cons_append, clockAfter, ih]
    split <;> simp

theorem clockLawful_rel : SensorRel fun s t => ClockLawful s → ClockLawful t where
  refl _ h := h
  trans h1 h2 h := h2 (h1 h)
  work _ _ h := h
  write _ _ := perform_keeps (fun _ h => h) fun s ⟨c, h1, h2⟩ =>
    ⟨c, by
      change clockAfter 0 (s.trace ++ [_]) = _
      rw [clockAfter_append, h1]; rfl, h2⟩
  read _ _ := perform_keeps (fun _ h => h) fun s ⟨c, h1, h2⟩ =>
    ⟨c, by
      change clockAfter 0 (s.trace ++ [_]) = _
      rw [clockAfter_append, h1]; rfl, h2⟩
  now := perform_keeps (fun _ h => h) fun s ⟨c, h1, h2⟩ =>
    ⟨s.countEvent.nextTime, by
      change clockAfter 0 (s.trace ++ [.now s.countEvent.nextTime]) = _
      have : c ≤ s.countEvent.nextTime := by unfold State.nextTime; simp only [State.countEvent_clock]; omega
      rw [clockAfter_append, h1]
      simp [clockAfter, this], le_refl _⟩
  idle := idleTick_keeps (fun _ h => h) fun s ⟨c, h1, h2⟩ =>
    ⟨c + s.cfg.tIdle, by
      change clockAfter 0 (s.trace ++ [_]) = _
      rw [clockAfter_append, h1]; rfl, by
      change c + s.cfg.tIdle ≤ s.clock + s.cfg.tIdle
      omega⟩

end Sys2Proof.Machine
end

