-- ==== Sys2Proof/Laws/PerInstr.lean ====
section
/-! SUPPORT. Facts about every command as syntax, one lemma per constructor. -/

set_option Elab.async false

namespace Sys2Proof.Laws.EncodeSelectsRow

/-- The packet of a well-formed command selects the row of the opcode map with the command's mnemonic (R83, R86). -/
def Statement (i : Instr) : Prop :=
  i.wellFormed = true → ∃ r ∈ opcodeMap, r.mnemonic = i.mnemonic ∧ r.selectedBy (encode i) = true

/-- `and` of two words works on their four bytes one by one. -/
theorem bytes_and (a b c d a' b' c' d' : Byte) :
    (a ++ b ++ c ++ d : Word) &&& (a' ++ b' ++ c' ++ d' : Word) =
      (a &&& a') ++ (b &&& b') ++ (c &&& c') ++ (d &&& d') := by
  apply BitVec.eq_of_getLsbD_eq
  intro i _
  simp only [BitVec.getLsbD_and, BitVec.getLsbD_append]
  split
  · rfl
  · split
    · rfl
    · split <;> rfl

/-- A packet selects a row without an extra condition when each byte field fits the row's mask. -/
theorem selected {op a h l ma mh ml : Byte} {arg mask pattern : Word} (name : String)
    (hmask : mask = 0xFF#8 ++ ma ++ mh ++ ml) (hpat : pattern = op ++ 0#8 ++ 0#8 ++ 0#8) (ha : a &&& ma = 0#8)
    (hh : h &&& mh = 0#8) (hl : l &&& ml = 0#8) :
    OpcodeRow.selectedBy ⟨name, mask, pattern, false⟩ (packetOf op a h l arg) = true := by
  subst hmask hpat
  have hop : op &&& 0xFF#8 = op := BitVec.and_allOnes (x := op)
  simp only [OpcodeRow.selectedBy, packetOf, bytes_and, ha, hh, hl, hop]
  simp

/-- The two bytes of a count put together again. -/
theorem count_bytes (op a : Byte) (count : BitVec 16) :
    (op ++ a ++ countHigh count ++ countLow count : BitVec 32).extractLsb' 0 16 = count := by
  apply BitVec.eq_of_getLsbD_eq
  intro i hi
  simp only [BitVec.getLsbD_extractLsb', BitVec.getLsbD_append, countHigh, countLow, hi, decide_true, Bool.true_and,
    Nat.zero_add]
  by_cases h : i < 8
  · simp [h]
  · have h1 : i - 8 < 8 := by omega
    have h2 : 8 + (i - 8) = i := by omega
    simp [h, h1, h2]

/-- The same for the rows with the extra condition `count != 0`. -/
theorem selectedCounted {op a ma : Byte} {count : BitVec 16} {arg mask pattern : Word} (name : String)
    (hmask : mask = 0xFF#8 ++ ma ++ 0#8 ++ 0#8) (hpat : pattern = op ++ 0#8 ++ 0#8 ++ 0#8) (ha : a &&& ma = 0#8)
    (hc : count ≠ 0) :
    OpcodeRow.selectedBy ⟨name, mask, pattern, true⟩
      (packetOf op a (countHigh count) (countLow count) arg) = true := by
  subst hmask hpat
  have hop : op &&& 0xFF#8 = op := BitVec.and_allOnes (x := op)
  simp only [OpcodeRow.selectedBy, packetOf, bytes_and, ha, hop, BitVec.and_zero, count_bytes]
  simpa using hc

theorem flagByte_and (f : Bool) : flagByte f &&& 0xFE#8 = 0#8 := by cases f <;> rfl

theorem bitByte_and (b : BitVec 3) : bitByte b &&& 0xF8#8 = 0#8 := by revert b; decide

theorem getreg (ra : Byte) : Statement (.getreg ra) := fun _ =>
  ⟨⟨"GETREG", 0xFF00FFFF, 0x01000000, false⟩, by decide, rfl,
    selected (ma := 0x00) (mh := 0xFF) (ml := 0xFF) _ rfl rfl BitVec.and_zero rfl rfl⟩

theorem setreg (ra val : Byte) : Statement (.setreg ra val) := fun _ =>
  ⟨⟨"SETREG", 0xFF00FF00, 0x02000000, false⟩, by decide, rfl,
    selected (ma := 0x00) (mh := 0xFF) (ml := 0x00) _ rfl rfl BitVec.and_zero rfl BitVec.and_zero⟩

theorem setbit (ra : Byte) (bit : BitVec 3) : Statement (.setbit ra bit) := fun _ =>
  ⟨⟨"SETBIT", 0xFF00FFF8, 0x03000000, false⟩, by decide, rfl,
    selected (ma := 0x00) (mh := 0xFF) (ml := 0xF8) _ rfl rfl BitVec.and_zero rfl (bitByte_and bit)⟩

theorem clrbit (ra : Byte) (bit : BitVec 3) : Statement (.clrbit ra bit) := fun _ =>
  ⟨⟨"CLRBIT", 0xFF00FFF8, 0x04000000, false⟩, by decide, rfl,
    selected (ma := 0x00) (mh := 0xFF) (ml := 0xF8) _ rfl rfl BitVec.and_zero rfl (bitByte_and bit)⟩

theorem getbit (ra : Byte) (bit : BitVec 3) : Statement (.getbit ra bit) := fun _ =>
  ⟨⟨"GETBIT", 0xFF00FFF8, 0x05000000, false⟩, by decide, rfl,
    selected (ma := 0x00) (mh := 0xFF) (ml := 0xF8) _ rfl rfl BitVec.and_zero rfl (bitByte_and bit)⟩

theorem avail : Statement .avail := fun _ =>
  ⟨⟨"AVAIL", 0xFFFFFFFF, 0x10000000, false⟩, by decide, rfl,
    selected (ma := 0xFF) (mh := 0xFF) (ml := 0xFF) _ rfl rfl rfl rfl rfl⟩

theorem read : Statement .read := fun _ =>
  ⟨⟨"READ", 0xFFFFFFFF, 0x11000000, false⟩, by decide, rfl,
    selected (ma := 0xFF) (mh := 0xFF) (ml := 0xFF) _ rfl rfl rfl rfl rfl⟩

theorem getavg (count : BitVec 16) : Statement (.getavg count) := fun h =>
  ⟨⟨"GETAVG", 0xFFFF0000, 0x12000000, true⟩, by decide, rfl, selectedCounted (ma := 0xFF) _ rfl rfl rfl
    (by simpa [Instr.wellFormed] using h)⟩

theorem begin (init : Bool) : Statement (.begin init) := fun _ =>
  ⟨⟨"BEGIN", 0xFFFEFFFF, 0x20000000, false⟩, by decide, rfl,
    selected (ma := 0xFE) (mh := 0xFF) (ml := 0xFF) _ rfl rfl (flagByte_and init) rfl rfl⟩

theorem powerup : Statement .powerup := fun _ =>
  ⟨⟨"POWERUP", 0xFFFFFFFF, 0x21000000, false⟩, by decide, rfl,
    selected (ma := 0xFF) (mh := 0xFF) (ml := 0xFF) _ rfl rfl rfl rfl rfl⟩

theorem setgain (val : Byte) : Statement (.setgain val) := fun _ =>
  ⟨⟨"SETGAIN", 0xFFFFFF00, 0x22000000, false⟩, by decide, rfl,
    selected (ma := 0xFF) (mh := 0xFF) (ml := 0x00) _ rfl rfl rfl rfl BitVec.and_zero⟩

theorem setldo (val : Byte) : Statement (.setldo val) := fun _ =>
  ⟨⟨"SETLDO", 0xFFFFFF00, 0x23000000, false⟩, by decide, rfl,
    selected (ma := 0xFF) (mh := 0xFF) (ml := 0x00) _ rfl rfl rfl rfl BitVec.and_zero⟩

theorem setrate (val : Byte) : Statement (.setrate val) := fun _ =>
  ⟨⟨"SETRATE", 0xFFFFFF00, 0x24000000, false⟩, by decide, rfl,
    selected (ma := 0xFF) (mh := 0xFF) (ml := 0x00) _ rfl rfl rfl rfl BitVec.and_zero⟩

theorem setchan (val : Byte) : Statement (.setchan val) := fun _ =>
  ⟨⟨"SETCHAN", 0xFFFFFF00, 0x25000000, false⟩, by decide, rfl,
    selected (ma := 0xFF) (mh := 0xFF) (ml := 0x00) _ rfl rfl rfl rfl BitVec.and_zero⟩

theorem setintpol (val : Byte) : Statement (.setintpol val) := fun _ =>
  ⟨⟨"SETINTPOL", 0xFFFFFF00, 0x26000000, false⟩, by decide, rfl,
    selected (ma := 0xFF) (mh := 0xFF) (ml := 0x00) _ rfl rfl rfl rfl BitVec.and_zero⟩

theorem calbegin : Statement .calbegin := fun _ =>
  ⟨⟨"CALBEGIN", 0xFFFFFFFF, 0x27000000, false⟩, by decide, rfl,
    selected (ma := 0xFF) (mh := 0xFF) (ml := 0xFF) _ rfl rfl rfl rfl rfl⟩

theorem calstat : Statement .calstat := fun _ =>
  ⟨⟨"CALSTAT", 0xFFFFFFFF, 0x28000000, false⟩, by decide, rfl,
    selected (ma := 0xFF) (mh := 0xFF) (ml := 0xFF) _ rfl rfl rfl rfl rfl⟩

theorem calwait (timeout : Word) : Statement (.calwait timeout) := fun _ =>
  ⟨⟨"CALWAIT", 0xFFFFFFFF, 0x29000000, false⟩, by decide, rfl,
    selected (ma := 0xFF) (mh := 0xFF) (ml := 0xFF) _ rfl rfl rfl rfl rfl⟩

theorem calsync : Statement .calsync := fun _ =>
  ⟨⟨"CALSYNC", 0xFFFFFFFF, 0x2A000000, false⟩, by decide, rfl,
    selected (ma := 0xFF) (mh := 0xFF) (ml := 0xFF) _ rfl rfl rfl rfl rfl⟩

theorem tare (count : BitVec 16) (persist : Bool) : Statement (.tare count persist) := fun h =>
  ⟨⟨"TARE", 0xFFFE0000, 0x30000000, true⟩, by decide, rfl, selectedCounted (ma := 0xFE) _ rfl rfl (flagByte_and persist)
    (by simpa [Instr.wellFormed] using h)⟩

theorem calf (count : BitVec 16) (ref : F32) (persist : Bool) : Statement (.calf count ref persist) := fun h =>
  ⟨⟨"CALF", 0xFFFE0000, 0x31000000, true⟩, by decide, rfl, selectedCounted (ma := 0xFE) _ rfl rfl (flagByte_and persist)
    (by simpa [Instr.wellFormed] using h)⟩

theorem getw (count : BitVec 16) (neg : Bool) : Statement (.getw count neg) := fun h =>
  ⟨⟨"GETW", 0xFFFE0000, 0x32000000, true⟩, by decide, rfl, selectedCounted (ma := 0xFE) _ rfl rfl (flagByte_and neg)
    (by simpa [Instr.wellFormed] using h)⟩

theorem setzoff (value : Word) : Statement (.setzoff value) := fun _ =>
  ⟨⟨"SETZOFF", 0xFFFFFFFF, 0x33000000, false⟩, by decide, rfl,
    selected (ma := 0xFF) (mh := 0xFF) (ml := 0xFF) _ rfl rfl rfl rfl rfl⟩

theorem setsfac (value : F32) : Statement (.setsfac value) := fun _ =>
  ⟨⟨"SETSFAC", 0xFFFFFFFF, 0x34000000, false⟩, by decide, rfl,
    selected (ma := 0xFF) (mh := 0xFF) (ml := 0xFF) _ rfl rfl rfl rfl rfl⟩

theorem storecal : Statement .storecal := fun _ =>
  ⟨⟨"STORECAL", 0xFFFFFFFF, 0x35000000, false⟩, by decide, rfl,
    selected (ma := 0xFF) (mh := 0xFF) (ml := 0xFF) _ rfl rfl rfl rfl rfl⟩

theorem readcal : Statement .readcal := fun _ =>
  ⟨⟨"READCAL", 0xFFFFFFFF, 0x36000000, false⟩, by decide, rfl,
    selected (ma := 0xFF) (mh := 0xFF) (ml := 0xFF) _ rfl rfl rfl rfl rfl⟩

end Sys2Proof.Laws.EncodeSelectsRow
end

