-- ==== Sys2Proof/Tests/Slice0.lean ====
section
/-! SUPPORT. Tests: ill-formed commands, words written out from spec/30, the examples of the command rules, and witnesses
for the hypotheses of the statements. -/

set_option Elab.async false

namespace Sys2Proof.Tests

open Sys2Proof.Machine

/-! ### Helpers -/

/-- The engine after reset with scripts for the environment. -/
def bench (ws : List BusStatus) (rs : List (List Byte)) (ds : List Nat) : State :=
  { State.reset with writeAns := ws, readAns := rs, delays := ds }

/-- `n` acknowledged writes. -/
def acks (n : Nat) : List BusStatus := List.replicate n .success

/-- The command ends and `p` holds of the state. -/
def ends (o : Host.Outcome State Fault Refusal) (p : State → Bool) : Bool :=
  match o with
  | .next t => p t
  | .fault _ => false
  | .refused _ => false

/-- The command faults. -/
def faults (o : Host.Outcome State Fault Refusal) : Bool :=
  match o with
  | .next _ => false
  | .fault _ => true
  | .refused _ => false

/-- The writes observed, bytes only. -/
def writes (t : State) : List (List Byte) :=
  t.trace.filterMap fun
    | .busWrite _ bytes _ => some bytes
    | .busRead _ _ _ | .now _ | .idle _ | .nvmGet _ _ | .nvmPut _ _ => none

/-- `Done(0, res, 0)`. -/
def done (res : Word) (t : State) : Bool := t.status == 0 && t.res == res && t.aux == 0 && t.seq == .idle

/-! ### Well-formedness: a count of zero has no encoding (spec/30 R84) -/

theorem test_getavg_zero_refused : (Instr.getavg 0).wellFormed = false := by decide
theorem test_tare_zero_refused : (Instr.tare 0 true).wellFormed = false := by decide
theorem test_calf_zero_refused : (Instr.calf 0 0x42C80000 false).wellFormed = false := by decide
theorem test_getw_zero_refused : (Instr.getw 0 false).wellFormed = false := by decide

/-! ### Words written out from the formats of spec/30 R81 and the opcodes of R83 -/

theorem test_decode_register_access :
    decode ⟨0b00000001_00000010_00000000_00000000, 0⟩ = .instr (.getreg 0x02) ∧
    decode ⟨0b00000010_00000010_00000000_00110000, 7⟩ = .instr (.setreg 0x02 0x30) ∧
    decode ⟨0b00000011_00000010_00000000_00000010, 0⟩ = .instr (.setbit 0x02 2) ∧
    decode ⟨0b00000100_00000010_00000000_00000111, 0⟩ = .instr (.clrbit 0x02 7) ∧
    decode ⟨0b00000101_00000010_00000000_00000011, 0⟩ = .instr (.getbit 0x02 3) := by decide

theorem test_decode_sample_acquisition :
    decode ⟨0b00010000_00000000_00000000_00000000, 0⟩ = .instr .avail ∧
    decode ⟨0b00010001_00000000_00000000_00000000, 5⟩ = .instr .read ∧
    decode ⟨0b00010010_00000000_00000001_00000010, 0⟩ = .instr (.getavg 258) := by decide

theorem test_decode_device_control :
    decode ⟨0b00100000_00000001_00000000_00000000, 0⟩ = .instr (.begin true) ∧
    decode ⟨0b00100001_00000000_00000000_00000000, 0⟩ = .instr .powerup ∧
    decode ⟨0b00100010_00000000_00000000_11001000, 0⟩ = .instr (.setgain 200) ∧
    decode ⟨0b00100011_00000000_00000000_00000100, 0⟩ = .instr (.setldo 4) ∧
    decode ⟨0b00100100_00000000_00000000_00000011, 0⟩ = .instr (.setrate 3) ∧
    decode ⟨0b00100101_00000000_00000000_00000101, 0⟩ = .instr (.setchan 5) := by decide

theorem test_decode_device_control_rest :
    decode ⟨0b00100110_00000000_00000000_00000001, 0⟩ = .instr (.setintpol 1) ∧
    decode ⟨0b00100111_00000000_00000000_00000000, 0⟩ = .instr .calbegin ∧
    decode ⟨0b00101000_00000000_00000000_00000000, 0⟩ = .instr .calstat ∧
    decode ⟨0b00101001_00000000_00000000_00000000, 1000⟩ = .instr (.calwait 1000) ∧
    decode ⟨0b00101010_00000000_00000000_00000000, 0⟩ = .instr .calsync := by decide

theorem test_decode_calibration :
    decode ⟨0b00110000_00000001_00000000_00000010, 0⟩ = .instr (.tare 2 true) ∧
    decode ⟨0b00110001_00000000_00000000_00000010, 0x42C80000⟩ = .instr (.calf 2 0x42C80000 false) ∧
    decode ⟨0b00110010_00000001_10000000_00000001, 0⟩ = .instr (.getw 32769 true) ∧
    decode ⟨0b00110011_00000000_00000000_00000000, 0xFFFFFFFB⟩ = .instr (.setzoff 0xFFFFFFFB) ∧
    decode ⟨0b00110100_00000000_00000000_00000000, 0x40000000⟩ = .instr (.setsfac 0x40000000) ∧
    decode ⟨0b00110101_00000000_00000000_00000000, 0⟩ = .instr .storecal ∧
    decode ⟨0b00110110_00000000_00000000_00000000, 0⟩ = .instr .readcal := by decide

/-- R84: a bit in a field that must be zero, for each format, a count of zero, opcodes outside the map. -/
theorem test_decode_rejects :
    decode ⟨0x01020001, 0⟩ = .invalid .fieldNotZero ∧ decode ⟨0x02020130, 0⟩ = .invalid .fieldNotZero ∧
    decode ⟨0x03020008, 0⟩ = .invalid .fieldNotZero ∧ decode ⟨0x10010000, 0⟩ = .invalid .fieldNotZero ∧
    decode ⟨0x12010002, 0⟩ = .invalid .fieldNotZero ∧ decode ⟨0x20020000, 0⟩ = .invalid .fieldNotZero ∧
    decode ⟨0x22000100, 0⟩ = .invalid .fieldNotZero ∧ decode ⟨0x30020001, 0⟩ = .invalid .fieldNotZero ∧
    decode ⟨0x30010000, 0⟩ = .invalid .zeroCount ∧ decode ⟨0x00000000, 0⟩ = .invalid .unassignedOpcode ∧
    decode ⟨0x37000000, 0⟩ = .invalid .unassignedOpcode := by decide

theorem test_table_word : decodeTableWord 32 0x02A50030 = some (.setreg 0xA5 0x30) := by decide

/-! ### The examples of the command rules -/

/-- R100: `GETREG 0x02`, answers SUCCESS, [0xA5]. -/
theorem test_getreg :
    ends (exec (.getreg 0x02) (bench (acks 1) [[0xA5]] [])) (fun t => done 0xA5 t && writes t == [[0x02]]) = true := by
  decide +kernel

/-- R101: a NACK, then success. -/
theorem test_setreg :
    ends (exec (.setreg 0x02 0x30) (bench [.dataNack, .success] [] []))
      (fun t => done 0 t && writes t == [[0x02, 0x30], [0x02, 0x30]]) = true := by decide +kernel

/-- R101: `ADDR_NACK`, `DATA_NACK`, `ADDR_NACK` gives `E_ADDR_NACK`. -/
theorem test_setreg_nacks :
    ends (exec (.setreg 0x02 0x30) (bench [.addrNack, .dataNack, .addrNack, .success] [] []))
      (fun t => t.status == -2 && t.writeAns == [.success]) = true := by decide +kernel

/-- R102. -/
theorem test_setbit :
    ends (exec (.setbit 0x02 2) (bench (acks 2) [[0x30]] []))
      (fun t => done 0 t && writes t == [[0x02], [0x02, 0x34]]) = true := by decide +kernel

/-- R103. -/
theorem test_clrbit :
    ends (exec (.clrbit 0x02 7) (bench (acks 2) [[0xFF]] []))
      (fun t => done 0 t && writes t == [[0x02], [0x02, 0x7F]]) = true := by decide +kernel

/-- R104: the result is 0 or 1, never the masked byte. -/
theorem test_getbit :
    ends (exec (.getbit 0x02 3) (bench (acks 1) [[0x08]] [])) (done 1) = true ∧
    ends (exec (.getbit 0x02 3) (bench (acks 1) [[0xF7]] [])) (done 0) = true := by decide +kernel

/-- R121. -/
theorem test_avail :
    ends (exec .avail (bench (acks 1) [[0x2E]] [])) (done 1) = true ∧
    ends (exec .avail (bench (acks 1) [[0x0E]] [])) (done 0) = true := by decide +kernel

/-- R122. -/
theorem test_read : ends (exec .read (bench (acks 1) [[0xFF, 0xFF, 0xF9]] [])) (done 0xFFFFFFF9) = true := by
  decide +kernel

/-- R122: two bytes of three are `E_NO_DATA`. -/
theorem test_read_short :
    ends (exec .read (bench (acks 1) [[0xFF, 0xFF]] [])) (fun t => t.status == -5) = true := by decide +kernel

/-- R123: samples -3 and -4 give -3. -/
theorem test_getavg :
    ends (exec (.getavg 2)
      (bench (acks 4) [[0x20], [0xFF, 0xFF, 0xFD], [0x20], [0xFF, 0xFF, 0xFC]] [0, 0])) (done 0xFFFFFFFD) = true := by
  decide +kernel

/-- R124: a pass at exactly `count * 13` ticks continues, one tick later ends with `E_TIMEOUT`. -/
theorem test_getavg_deadline :
    ends (exec (.getavg 1) (bench (acks 3) [[0x00], [0x20], [0x00, 0x00, 0x01]] [5, 13])) (done 1) = true ∧
    ends (exec (.getavg 1) (bench (acks 3) [[0x00], [0x20], [0x00, 0x00, 0x01]] [5, 14]))
      (fun t => t.status == -6) = true := by decide +kernel

/-- R124, spec/95 V66, V68: the second poll's pointer write, or the read of a ready sample, fails. -/
theorem test_getavg_read_fails :
    ends (exec (.getavg 3) (bench [.success, .success, .addrNack] [[0x20], [0x00, 0x00, 0x01]] [0, 0]))
      (fun t => t.status == -2 && writes t == [[0x00], [0x12], [0x00]] && t.trace.length == 8) = true ∧
    ends (exec (.getavg 2) (bench (acks 2) [[0x20], [0x01, 0x02]] [0]))
      (fun t => t.status == -5 && writes t == [[0x00], [0x12]] && t.trace.length == 5) = true := by decide +kernel

/-- R152: the probe. -/
theorem test_begin_probe :
    ends (exec (.begin false) (bench [.addrNack, .success] [] [])) (done 0) = true ∧
    ends (exec (.begin false) (bench [.addrNack, .addrNack] [] [])) (fun t => t.status == -2 && t.aux == 0) = true := by
  decide +kernel

/-- R26: `ATT` counts the probe's attempts. -/
theorem test_probe_attempts :
    (probe (bench [.other, .success] [] [])).state.work.att = 2 ∧ (probe (bench [.success] [] [])).state.work.att = 1 := by
  decide +kernel

/-- R152: the soft reset's read fails: stage 1. -/
theorem test_begin_stage :
    ends (exec (.begin true) (bench [.success, .other] [] [])) (fun t => t.status == -4 && t.aux == 1) = true := by
  decide +kernel

/-- R147. -/
theorem test_powerup :
    ends (exec .powerup (bench (acks 6) [[0x00], [0x02], [0x06], [0x0E]] []))
      (fun t => done 0 t && writes t == [[0x00], [0x00, 0x02], [0x00], [0x00, 0x06], [0x00], [0x00]] &&
        t.clock == 1) = true := by decide +kernel

/-- R141: the input saturates. -/
theorem test_setgain :
    ends (exec (.setgain 200) (bench (acks 2) [[0x20]] [])) (fun t => done 0 t && writes t == [[0x01], [0x01, 0x27]]) =
      true := by decide +kernel

/-- R142. -/
theorem test_setldo :
    ends (exec (.setldo 4) (bench (acks 2) [[0x07]] [])) (fun t => done 0 t && writes t == [[0x01], [0x01, 0x27]]) =
      true := by decide +kernel

/-- R143. -/
theorem test_setrate :
    ends (exec (.setrate 3) (bench (acks 2) [[0x80]] [])) (fun t => done 0 t && writes t == [[0x02], [0x02, 0xB0]]) =
      true := by decide +kernel

/-- R144. -/
theorem test_setchan :
    ends (exec (.setchan 5) (bench (acks 2) [[0x30]] [])) (fun t => done 0 t && writes t == [[0x02], [0x02, 0xB0]]) =
      true := by decide +kernel

/-- R145. -/
theorem test_setintpol :
    ends (exec (.setintpol 1) (bench (acks 2) [[0x27]] [])) (fun t => done 0 t && writes t == [[0x01], [0x01, 0xA7]]) =
      true := by decide +kernel

/-- R148. -/
theorem test_calbegin :
    ends (exec .calbegin (bench (acks 2) [[0x30]] [])) (fun t => done 0 t && writes t == [[0x02], [0x02, 0x34]]) =
      true := by decide +kernel

/-- R149. -/
theorem test_calstat :
    ends (exec .calstat (bench (acks 1) [[0x3C]] [])) (done 1) = true ∧
    ends (exec .calstat (bench (acks 2) [[0x38], [0x38]] [])) (done 2) = true ∧
    ends (exec .calstat (bench (acks 2) [[0x30], [0x30]] [])) (done 0) = true ∧
    ends (exec .calstat (bench [.success, .other] [[0x30]] [])) (fun t => t.status == -4) = true := by decide +kernel

/-- R150: polls in-progress, in-progress, success; the clock reads 0, 0, 1. -/
theorem test_calwait :
    ends (exec (.calwait 1000) (bench (acks 4) [[0x04], [0x04], [0x00], [0x00]] [0, 0, 0]))
      (fun t => done 0 t && t.trace.filter (fun e => e == .now 0 || e == .now 1 || e == .idle 1) ==
        [.now 0, .now 0, .idle 1, .now 1, .idle 1]) = true := by decide +kernel

/-- R150, spec/95 V97: the first poll answers no byte. -/
theorem test_calwait_read_fails :
    ends (exec (.calwait 1000) (bench (acks 1) [[]] [0])) (fun t => t.status == -5 && t.trace.length == 3) = true := by
  decide +kernel

/-- R150, R240: without a timeout and still in progress, the engine stays BUSY. -/
theorem test_calwait_goes_on :
    ends (exec (.calwait 0) (bench (acks 2) [[0x04], [0x04]] [0])) (fun t => t.seq == .busy && t.response == none) =
      true := by decide +kernel

/-- R151: CALBEGIN's example, then a status of failure. -/
theorem test_calsync :
    ends (exec .calsync (bench (acks 4) [[0x30], [0x30], [0x30]] [0])) (done 0) = true ∧
    ends (exec .calsync (bench (acks 4) [[0x30], [0x38], [0x38]] [0])) (fun t => t.status == -8) = true := by
  decide +kernel

/-- `TICKS_PER_SECOND = 3`. -/
def shortSecond : Config := { Config.candidate with ticksPerSecond := 3, ticksPerSecond_pos := by decide }

/-- R151, spec/95 V100: every read is `34`, the clock answers 0, then 0 to 4. -/
theorem test_calsync_times_out :
    ends (exec .calsync
      ({ bench (acks 7) (List.replicate 6 [0x34]) (List.replicate 6 0) with cfg := shortSecond } : State))
      (fun t => t.status == -9 && t.trace.getLast? == some (.now 4) && t.trace.length == 23) = true := by decide +kernel

/-- R171: samples 1000 and 1001, persisted. -/
theorem test_tare :
    ends (exec (.tare 2 true)
      (bench (acks 4) [[0x20], [0x00, 0x03, 0xE8], [0x20], [0x00, 0x03, 0xE9]] [0, 0]))
      (fun t => done 1000 t && t.zoff == 1000 && t.calok == false &&
        t.trace.getLast? == some (.nvmPut 0x10 [0xE8, 0x03, 0x00, 0x00])) = true := by decide +kernel

/-- R172: an averaging error clears `CALOK` and leaves the factor. -/
theorem test_calf_error :
    ends (exec (.calf 1 0x42C80000 false)
      ({ bench [.addrNack] [] [0] with calok := true, sfac := 0x40000000 } : State))
      (fun t => t.status == -2 && t.calok == false && t.sfac == 0x40000000) = true := by decide +kernel

/-- R172: 20000.0 / 100.0 = 200.0. -/
theorem test_calf :
    ends (exec (.calf 2 0x42C80000 false)
      ({ bench (acks 4) [[0x20], [0x00, 0x52, 0x08], [0x20], [0x00, 0x52, 0x08]] [0, 0] with zoff := 1000 } : State))
      (fun t => done 0x43480000 t && t.sfac == 0x43480000 && t.calok) = true := by decide +kernel

/-- R172: a reference of zero of either sign, for a difference above and below zero (spec/95 V131 to V133). -/
theorem test_calf_zero_reference :
    ends (exec (.calf 1 0 false) ({ bench (acks 2) [[0x20], [0x00, 0x52, 0x08]] [0] with zoff := 1000 } : State))
      (done 0x7F800000) = true ∧
    ends (exec (.calf 1 0x80000000 false)
      ({ bench (acks 2) [[0x20], [0x00, 0x52, 0x08]] [0] with zoff := 1000 } : State)) (done 0xFF800000) = true ∧
    ends (exec (.calf 1 0 false) ({ bench (acks 2) [[0x20], [0x00, 0x01, 0xF4]] [0] with zoff := 1000 } : State))
      (done 0xFF800000) = true := by decide +kernel

/-- A calibrated scale of R173's example with one sample 3000 to come. -/
def scaleBench (sfac : F32) : State :=
  { bench (acks 2) [[0x20], [0x00, 0x0B, 0xB8]] [0] with zoff := 1000, sfac := sfac, calok := true }

/-- R173: 2000.0 / 2.0 = 1000.0. -/
theorem test_getw : ends (exec (.getw 1 false) (scaleBench 0x40000000)) (done 0x447A0000) = true := by decide +kernel

/-- R173: a numerator of zero over a negative factor is -0.0 (spec/95 V127). -/
theorem test_getw_negative_zero :
    ends (exec (.getw 1 false) ({ scaleBench 0xC0000000 with zoff := 3000 } : State)) (done 0x80000000) = true := by
  decide +kernel

/-- R173, 93 U3: a factor of exactly zero, of either sign. -/
theorem test_getw_faults :
    faults (exec (.getw 1 false) (scaleBench 0)) = true ∧ faults (exec (.getw 1 true) (scaleBench 0x80000000)) = true := by
  decide +kernel

/-- R175. -/
theorem test_setzoff :
    ends (exec (.setzoff 0xFFFFFFFB) State.reset) (fun t => done 0 t && t.zoff == 0xFFFFFFFB && t.calok == false) =
      true := by decide +kernel

/-- R176. -/
theorem test_setsfac :
    ends (exec (.setsfac 0x40000000) State.reset) (fun t => done 0 t && t.sfac == 0x40000000) = true := by
  decide +kernel

/-- R177. -/
theorem test_storecal :
    ends (exec .storecal ({ State.reset with sfac := 0x43480000, zoff := 1000 } : State))
      (fun t => done 0 t && t.trace ==
        [.nvmPut 0x14 [0x00, 0x00, 0x48, 0x43], .nvmPut 0x10 [0xE8, 0x03, 0x00, 0x00]]) = true := by decide +kernel

/-- The storage of R178's example: the factor slot erased, the offset 1000. -/
def erasedFactor : State := { State.reset with nvm := [(0x10, 0xE8), (0x11, 0x03), (0x12, 0x00), (0x13, 0x00)] }

/-- R178: the example of the document's section 8. -/
theorem test_readcal_factor :
    ends (exec .readcal erasedFactor)
      (fun t => t.status == -101 && t.sfac == 0x3F800000 && t.zoff == 1000 && t.calok == false && t.caldet == false &&
        t.trace.getLast? == some (.nvmPut 0x14 [0x00, 0x00, 0x80, 0x3F])) = true := by decide +kernel

/-- The storage with the factor 200.0 and the offset 1000. -/
def storedScale : State :=
  { State.reset with
    nvm := [(0x10, 0xE8), (0x11, 0x03), (0x12, 0x00), (0x13, 0x00), (0x14, 0x00), (0x15, 0x00), (0x16, 0x48),
      (0x17, 0x43)] }

/-- R178, R179: a clean pair. -/
theorem test_readcal :
    ends (exec .readcal storedScale)
      (fun t => done 0 t && t.sfac == 0x43480000 && t.zoff == 1000 && t.calok && t.caldet) = true := by decide +kernel

/-! ### Sequencing -/

/-- A packet fetched by one step runs in it. -/
theorem test_step_runs_packet :
    ends (step ((bench (acks 1) [[0xA5]] []).withFetchWord 32 0x01020000)) (fun t => done 0xA5 t && t.host == []) =
      true := by decide +kernel

/-- R84. -/
theorem test_step_rejects :
    ends (step ((bench [] [] []).withFetchWord 32 0x37000000))
      (fun t => t.response == some .reject && t.trace == [] && t.seq == .idle) = true := by decide +kernel

/-- R230: reset after one event of a SETBIT: the read never happens. -/
theorem test_reset_cuts :
    ends (exec (.setbit 0x02 2) ({ bench (acks 2) [[0x30]] [] with zoff := 5, host := [.reset 1] } : State))
      (fun t => t.zoff == 0 && t.response == none && t.host == [] && writes t == [[0x02]] && t.readAns == [[0x30]]) =
      true := by decide +kernel

/-- R230: reset after the last event of a GETREG comes before the response, one event later after it. -/
theorem test_reset_before_response :
    ends (exec (.getreg 2) ({ bench (acks 1) [[0x30]] [] with status := 7, host := [.reset 2] } : State))
      (fun t => t.response == none && t.status == 0 && t.res == 0 && t.host == [] && t.trace.length == 2) = true ∧
    ends (exec (.getreg 2) ({ bench (acks 1) [[0x30]] [] with status := 7, host := [.reset 3] } : State))
      (fun t => done 0x30 t && t.response == some .done && t.host == [.reset 1]) = true := by decide +kernel

/-- R230: a command without events is cut, and a storage write that was made stays made. -/
theorem test_reset_cuts_calibration :
    ends (exec (.setzoff 5) ({ State.reset with host := [.reset 0] } : State))
      (fun t => t.zoff == 0 && t.response == none) = true ∧
    ends (exec (.tare 1 true) ({ bench (acks 2) [[0x20], [0x00, 0x03, 0xE8]] [0] with host := [.reset 6] } : State))
      (fun t => t.zoff == 0 && t.response == none && t.host == [] && t.nvm.readBytes 0x10 4 == [0xE8, 0x03, 0x00, 0x00]) =
      true ∧
    ends (exec (.getw 1 false) ({ scaleBench 0 with host := [.reset 5] } : State)) (fun t => t.response == none) = true ∧
    faults (exec (.getw 1 false) ({ scaleBench 0 with host := [.reset 6] } : State)) = true := by decide +kernel

/-- R170: beyond 16777216 ties go to even. -/
theorem test_conversion :
    F32.ofInt 16777216 = 0x4B800000 ∧ F32.ofInt 16777217 = 0x4B800000 ∧ F32.ofInt 16777219 = 0x4B800002 := by
  decide +kernel

/-! ### Witnesses: states and operands that meet all hypotheses of a statement together -/

/-- The bench answers what it was given. -/
theorem feeds_bench (ws : List BusStatus) (rs : List (List Byte)) (ds : List Nat) : Feeds (bench ws rs ds) ws rs ds :=
  ⟨List.prefix_rfl, List.prefix_rfl, List.prefix_rfl⟩

/-- The bench with one host move. -/
def benchWith (m : HostMove) (ws : List BusStatus) (rs : List (List Byte)) : State :=
  { bench ws rs [] with host := [m] }

/-- The piece ended. -/
def isDone : Progress Unit → Bool
  | .done _ _ => true
  | .stop _ _ => false

/-- The piece raised `e`. -/
def raised {α : Type} (e : Err) : Progress α → Bool
  | .stop (.raised e') _ => e == e'
  | .stop .resetCut _ | .stop .suspended _ | .done _ _ => false

theorem eq_done_of_isDone {r : Progress Unit} (h : isDone r = true) : r = .done () r.state := by
  cases r with
  | done _ _ => rfl
  | stop _ _ => cases h

theorem exists_of_raised {α : Type} {r : Progress α} {e : Err} (h : raised e r = true) :
    ∃ t, r = .stop (.raised e) t := by
  rcases r with _ | ⟨_ | _ | _, t⟩ <;> simp [raised] at h
  exact ⟨t, h ▸ rfl⟩

theorem exists_of_ends {o : Host.Outcome State Fault Refusal} {p : State → Bool} (h : ends o p = true) :
    ∃ t, o = .next t ∧ p t = true := by
  cases o with
  | next t => exact ⟨t, rfl, h⟩
  | fault _ => cases h
  | refused _ => cases h

/-- The command faults at a zero factor. -/
def zeroFactor (o : Host.Outcome State Fault Refusal) : Bool :=
  match o with
  | .fault (.zeroScaleFactor _) => true
  | .fault (.differenceOutsideS32 _) | .next _ | .refused _ => false

theorem exists_of_zeroFactor {o : Host.Outcome State Fault Refusal} (h : zeroFactor o = true) :
    ∃ u, o = .fault (.zeroScaleFactor u) := by
  rcases o with _ | f | _
  · cases h
  · cases f with
    | zeroScaleFactor u => exact ⟨u, rfl⟩
    | differenceOutsideS32 _ => cases h
  · cases h

/-! Reset and sequencing -/

theorem test_witness_reset_idle :
    (benchWith (.reset 3) [] []).seq = .idle ∧ (benchWith (.reset 3) [] []).host = .reset 3 :: [] := ⟨rfl, rfl⟩

/-- Cut after 0 events, after 1, and too late. -/
theorem test_witness_reset_cuts : ∀ k ∈ [0, 1, 9],
    (benchWith (.reset k) (acks 2) [[0x30]]).host = .reset k :: [] ∧
    ∃ t, exec (.setbit 2 2) (benchWith (.reset k) (acks 2) [[0x30]]) = .next t :=
  fun _ _ => ⟨rfl, _, rfl⟩

theorem test_witness_step_decoded :
    decode ⟨0x01020000, 0⟩ = .instr (.getreg 2) ∧ decode ⟨0x32000000, 0⟩ = .invalid .zeroCount ∧
    (benchWith (.packet ⟨0x01020000, 0⟩) [] []).seq = .idle ∧
    (benchWith (.packet ⟨0x01020000, 0⟩) [] []).host = .packet ⟨0x01020000, 0⟩ :: [] ∧
    State.reset.seq = .idle ∧ State.reset.host = [] := by decide +kernel

theorem test_witness_reserved_packet :
    (∀ r ∈ opcodeMap, r.selectedBy ⟨0x37000000, 0⟩ = false) ∧
    (∀ r ∈ opcodeMap, r.selectedBy ⟨0x12000000, 0⟩ = false) ∧
    (benchWith (.packet ⟨0x37000000, 0⟩) [] []).host = .packet ⟨0x37000000, 0⟩ :: [] := by decide +kernel

/-- A suspended wait with a packet the host holds. -/
def waiting : State :=
  { bench (acks 2) [[0x04], [0x04]] [] with seq := .busy, host := [.packet ⟨0x10000000, 0⟩] }

theorem test_witness_held : waiting.seq = .busy ∧ ∃ t, step waiting = .next t := ⟨rfl, _, rfl⟩

/-- A reset in a suspended wait, after 2 events and after none. -/
theorem test_witness_reset_cuts_wait : ∀ k ∈ [0, 2],
    ({ waiting with host := [.reset k] } : State).host = .reset k :: [] ∧
    ends (step ({ waiting with host := [.reset k] } : State))
      (fun t => t.seq == .idle && t.response == none && t.host == [] && t.trace.length == k) = true := by decide +kernel

/-- A fault with a reset still to come. -/
theorem test_witness_reset_and_fault :
    ({ scaleBench 0 with host := [.reset 6] } : State).host = .reset 6 :: [] ∧
    ∃ u, exec (.getw 1 false) ({ scaleBench 0 with host := [.reset 6] } : State) = .fault (.zeroScaleFactor u) :=
  ⟨rfl, exists_of_zeroFactor (by decide +kernel)⟩

/-! Encoding -/

theorem test_witness_encode :
    (Instr.getavg 1).wellFormed = true ∧ (Instr.getavg 65535).wellFormed = true ∧
    decode ⟨0x12000001, 0⟩ = .instr (.getavg 1) ∧ (Packet.mk 0x12000001 0).op ∉ [0x29#8, 0x31#8, 0x33#8, 0x34#8] ∧
    (Packet.mk 0x12000001 7).cmd = (Packet.mk 0x12000001 0).cmd ∧
    ∃ r ∈ opcodeMap, r.selectedBy ⟨0x12000001, 0⟩ = true := by decide +kernel

/-! Register access -/

theorem test_witness_register_read :
    (bench [.success] [[0xA5]] []).quiet = true ∧ Feeds (bench [.success] [[0xA5]] []) [.success] [[0xA5]] [] :=
  ⟨rfl, feeds_bench _ _ _⟩

theorem test_witness_failed_read :
    firstRead State.reset.cfg .read = some (0x12, 3) ∧ firstRead State.reset.cfg .powerup = some (0x00, 1) ∧
    comm .other = some .io ∧ ([0xFF, 0xFF] : List Byte).length < 3 ∧
    (bench [.other] [] []).quiet = true ∧ Feeds (bench [.other] [] []) [.other] [] [] ∧
    Feeds (bench [.success] [[0xFF, 0xFF]] []) [.success] [[0xFF, 0xFF]] [] :=
  ⟨by decide +kernel, by decide +kernel, rfl, by decide, rfl, feeds_bench _ _ _, feeds_bench _ _ _⟩

/-- The third attempt is acknowledged, or answered with a third NACK; the second outcome is no NACK and no success. -/
theorem test_witness_write_attempts :
    lastAttempt .addrNack .dataNack .success = .success ∧
    attemptsUsed .addrNack .dataNack .success = [.addrNack, .dataNack, .success] ∧
    comm (lastAttempt .addrNack .dataNack .addrNack) = some .addrNack ∧
    comm (lastAttempt .dataNack .tooLarge .success) = some .dataTooLarge ∧
    (∀ ws : List BusStatus, (bench ws [] []).quiet = true ∧ Feeds (bench ws [] []) ws [] []) :=
  ⟨rfl, rfl, rfl, rfl, fun _ => ⟨rfl, feeds_bench _ _ _⟩⟩

theorem test_witness_read_modify_write :
    (∃ f, oneRmw State.reset.cfg (.setgain 200) = some (0x01, f) ∧ f 0x20 = 0x27) ∧
    (∃ f, oneRmw State.reset.cfg .calbegin = some (0x02, f) ∧ f 0x30 = 0x34) ∧
    (∀ ws : List BusStatus, (bench (.success :: ws) [[0x20]] []).quiet = true ∧
      Feeds (bench (.success :: ws) [[0x20]] []) (.success :: ws) [[0x20]] []) :=
  ⟨⟨_, rfl, by decide +kernel⟩, ⟨_, rfl, by decide +kernel⟩, fun _ => ⟨rfl, feeds_bench _ _ _⟩⟩

/-! Samples and averages -/

theorem test_witness_read :
    (bench [.success] [[0xFF, 0xFF, 0xF9]] []).quiet = true ∧
    Feeds (bench [.success] [[0xFF, 0xFF, 0xF9]] []) [.success] [[0xFF, 0xFF, 0xF9]] [] := ⟨rfl, feeds_bench _ _ _⟩

/-- Two samples: a pass that is not ready, one with a sample whose clock read is exactly 26 ticks after the first, and
the last. -/
def avgRun : AvgRun := ⟨5, [⟨0x00, none, 3⟩, ⟨0x20, some (0xFF, 0xFF, 0xFD), 22⟩], 0x20, (0xFF, 0xFF, 0xFC)⟩

/-- One sample at once. -/
def avgRunOne : AvgRun := ⟨0, [], 0x20, (0x00, 0x0B, 0xB8)⟩

/-- One sample wanted, a pass 13 ticks after the first clock read, then one 14 ticks after it. -/
def avgLate : AvgTimeout := ⟨5, [⟨0x00, none, 13⟩], ⟨0x00, none, 0⟩⟩

/-- The engine with the averaging's answers to come. -/
def avgBench (r : AvgRun) : State := bench (List.replicate r.reads.length .success) r.reads r.delays

/-- The engine with the answers of an averaging that times out. -/
def lateBench : State := bench (List.replicate avgLate.reads.length .success) avgLate.reads avgLate.delays

theorem test_witness_getavg : (avgBench avgRun).quiet = true ∧ avgRun.Answers 2 (avgBench avgRun) := by
  refine ⟨rfl, feeds_bench _ _ _, ?_, by decide +kernel, by decide +kernel, ?_⟩
  · unfold AvgPass.fits; decide +kernel
  · unfold avgRun passesInTime passesInTime passesInTime; decide +kernel

theorem test_witness_one_sample : avgRunOne.Answers 1 (avgBench avgRunOne) :=
  ⟨feeds_bench _ _ _, by simp [avgRunOne], by decide +kernel, by decide +kernel, trivial⟩

theorem test_witness_getavg_times_out : lateBench.quiet = true ∧ avgLate.Answers 1 lateBench := by
  refine ⟨rfl, feeds_bench _ _ _, ?_, ?_, by decide +kernel, ?_, by decide +kernel⟩
  · unfold AvgPass.fits; decide +kernel
  · unfold AvgPass.fits; decide +kernel
  · unfold avgLate passesInTime passesInTime; decide +kernel

theorem test_witness_never_ready :
    (∀ b ∈ List.replicate 15 (0 : Byte), testBit b State.reset.cfg.dev.ready.bit = false) ∧
    deadline 1 / State.reset.cfg.tIdle + 2 ≤ (List.replicate 15 (0 : Byte)).length ∧
    Feeds (bench (acks 15) ((List.replicate 15 (0 : Byte)).map fun b => [b]) []) (List.replicate 15 .success)
      ((List.replicate 15 (0 : Byte)).map fun b => [b]) [] :=
  ⟨by decide +kernel, by decide +kernel, feeds_bench _ _ _⟩

theorem test_witness_timeouts :
    (∃ t, average 1 lateBench = .stop (.raised .timeout) t) ∧
    ∃ t, calWait 10 (bench (acks 1) [[0x04]] [0, 11]) = .stop (.raised .calTimeout) t :=
  ⟨exists_of_raised (by decide +kernel), exists_of_raised (by decide +kernel)⟩

/-- An average that ends, and its value. -/
def averageIs (w : Word) : Progress Word → Bool
  | .done a _ => a == w
  | .stop _ _ => false

theorem test_witness_average : averageIs 0xFFFFFFFD (average 2 (avgBench avgRun)) = true := by decide +kernel

/-! Device control -/

/-- Both `PU_SET` bits, one poll that reads 0, one that reads 1. -/
def powerRun : PowerRun := ⟨[0x00, 0x02], [0x06], 0x0E⟩

theorem test_witness_powerup :
    powerRun.Lawful State.reset.cfg ∧
    Feeds (bench powerRun.statuses powerRun.reads []) powerRun.statuses powerRun.reads [] :=
  ⟨by unfold PowerRun.Lawful; decide +kernel, feeds_bench _ _ _⟩

theorem test_witness_powerup_gives_up :
    ([0x00, 0x02] : List Byte).length = State.reset.cfg.dev.puSet.length ∧
    (List.replicate 199 (6 : Byte)).length + 1 = State.reset.cfg.puMaxPolls ∧
    (∀ b ∈ List.replicate 199 (6 : Byte), testBit b State.reset.cfg.dev.puReady.bit = false) ∧
    testBit 6 State.reset.cfg.dev.puReady.bit = false :=
  ⟨rfl, by decide +kernel, fun b h => (List.eq_of_mem_replicate h) ▸ by decide +kernel, by decide +kernel⟩

/-- Both ends of `PU_SET`, a poll after the bits and after one more; the errors of POWERUP's accesses. -/
theorem test_witness_powerup_errors :
    State.reset.cfg.dev.puSet = [] ++ ⟨0x00, 1⟩ :: [⟨0x00, 2⟩] ∧
    State.reset.cfg.dev.puSet = [⟨0x00, 1⟩] ++ ⟨0x00, 2⟩ :: [] ∧
    comm .other = some .io ∧ comm (lastAttempt .dataNack .addrNack .dataNack) = some .dataNack ∧
    ([0x06] : List Byte).length < State.reset.cfg.puMaxPolls ∧
    ends (exec .powerup (bench [.success, .success, .other] [[0x00]] []))
      (fun t => t.status == -4 && writes t == [[0x00], [0x00, 0x02], [0x00]]) = true ∧
    ends (exec .powerup (bench (acks 3) [[0x00], []] [])) (fun t => t.status == -5) = true ∧
    ends (exec .powerup (bench (acks 3 ++ [.dataNack, .addrNack, .dataNack]) [[0x00], [0x02]] []))
      (fun t => t.status == -3 && t.writeAns == []) = true ∧
    ends (exec .powerup (bench (acks 5 ++ [.other]) [[0x00], [0x02], [0x06]] []))
      (fun t => t.status == -4 && t.clock == 1) = true ∧
    ends (exec .powerup (bench (acks 6) [[0x00], [0x02], [0x06], []] [])) (fun t => t.status == -5) = true ∧
    ∀ (ws : List BusStatus) (rs : List (List Byte)), (bench ws rs []).quiet = true ∧ Feeds (bench ws rs []) ws rs [] :=
  ⟨rfl, rfl, rfl, rfl, by decide +kernel, by decide +kernel, by decide +kernel, by decide +kernel, by decide +kernel,
    by decide +kernel, fun _ _ => ⟨rfl, feeds_bench _ _ _⟩⟩

/-- Each way a register read fails raises its error. -/
theorem test_witness_read_failures :
    (ReadFailure.pointer .other).Raises 1 .io ∧ (ReadFailure.short []).Raises 1 .noData ∧
    (ReadFailure.pointer .tooLarge).Raises 3 .dataTooLarge ∧ (ReadFailure.short [0x01, 0x02]).Raises 3 .noData :=
  ⟨rfl, ⟨by decide, rfl⟩, rfl, by decide, rfl⟩

theorem test_witness_calstat :
    testBit 0x3C State.reset.cfg.dev.calActive.bit = true ∧ testBit 0x38 State.reset.cfg.dev.calActive.bit = false ∧
    Feeds (bench [.success] [[0x3C]] []) [.success] [[0x3C]] [] ∧
    Feeds (bench [.success, .success] [[0x38], [0x38]] []) [.success, .success] [[0x38], [0x38]] [] ∧
    ∀ f : ReadFailure, Feeds (bench (.success :: f.statuses) ([0x38] :: f.reads) []) (.success :: f.statuses)
      ([0x38] :: f.reads) [] :=
  ⟨by decide +kernel, by decide +kernel, feeds_bench _ _ _, feeds_bench _ _ _, fun _ => feeds_bench _ _ _⟩

/-- An in-progress pass whose clock read is exactly 10 ticks after the first, then success. -/
def calRun : CalRun := ⟨2, [⟨0x04, 10⟩], 0x00, 0x00⟩

/-- The same, then failure. -/
def calRunFailed : CalRun := ⟨2, [⟨0x04, 10⟩], 0x08, 0x08⟩

theorem test_witness_calwait :
    calRun.Lawful State.reset.cfg 10 0 ∧ calRun.Lawful State.reset.cfg 0 0 ∧ calRun.failed State.reset.cfg = false ∧
    calRunFailed.Lawful State.reset.cfg 10 0 ∧ calRunFailed.failed State.reset.cfg = true ∧
    ∀ (r : CalRun) (timed : Bool),
      Feeds (bench r.statuses r.reads (r.delays timed)) r.statuses r.reads (r.delays timed) := by
  refine ⟨⟨by decide +kernel, by decide +kernel, fun _ => ?_⟩, ⟨by decide +kernel, by decide +kernel, fun h => (h rfl).elim⟩,
    by decide +kernel, ⟨by decide +kernel, by decide +kernel, fun _ => ?_⟩, by decide +kernel, fun _ _ => feeds_bench _ _ _⟩
  · unfold calRun calInTime calInTime; decide +kernel
  · unfold calRunFailed calInTime calInTime; decide +kernel

/-- An in-progress pass whose clock read is exactly 10 ticks after the first, then a read of the active bit that fails. -/
def calPollFails (f : ReadFailure) : CalFailure := ⟨2, [⟨0x04, 10⟩], none, f⟩

/-- The active bit is clear at once, and the read of the error bit fails. -/
def calErrorFails (f : ReadFailure) : CalFailure := ⟨2, [], some 0x38, f⟩

theorem test_witness_calwait_read_fails (timeout : Nat) (f : ReadFailure) (e : Err) (hf : f.Raises 1 e)
    (h : timeout = 0 ∨ timeout = 10 ∨ timeout = State.reset.cfg.ticksPerSecond) :
    (calPollFails f).Lawful State.reset.cfg timeout 0 e ∧ (calErrorFails f).Lawful State.reset.cfg timeout 0 e := by
  refine ⟨⟨(by decide +kernel : ∀ p ∈ [CalPass.mk 0x04 10], testBit p.poll Config.candidate.dev.calActive.bit = true),
    fun _ h => (by cases h), fun _ => ⟨?_, trivial⟩, hf⟩,
    (by decide +kernel : ∀ p ∈ ([] : List CalPass), testBit p.poll Config.candidate.dev.calActive.bit = true),
    (by decide +kernel : ∀ b ∈ some (0x38 : Byte), testBit b Config.candidate.dev.calActive.bit = false),
    fun _ => trivial, hf⟩
  rcases h with rfl | rfl | rfl
  · contradiction
  · exact (by decide : 0 + 2 + 10 ≤ 0 + 2 + 10)
  · exact (by decide : 0 + 2 + 10 ≤ 0 + 2 + 1000)

theorem test_witness_calwait_read_fails_feeds (r : CalFailure) (timed : Bool) :
    Feeds (bench r.statuses r.reads (r.delays timed)) r.statuses r.reads (r.delays timed) ∧
    Feeds (bench (.success :: .success :: r.statuses) ([0x30] :: r.reads) (r.delays true))
      (.success :: .success :: r.statuses) ([0x30] :: r.reads) (r.delays true) ∧
    ({ bench r.statuses r.reads [] with seq := .busy } : State).seq = .busy ∧
    ({ bench r.statuses r.reads [] with seq := .busy } : State).quiet = true ∧
    Feeds ({ bench r.statuses r.reads [] with seq := .busy } : State) r.statuses r.reads [] :=
  ⟨feeds_bench _ _ _, feeds_bench _ _ _, rfl, rfl, feeds_bench _ _ _⟩

/-- A wait of 10 ticks whose second clock read comes 11 ticks after the first. -/
def calLate : CalTimeout := ⟨2, [], ⟨0x04, 11⟩⟩

theorem test_witness_calwait_times_out :
    (10 : Word) ≠ 0 ∧ calLate.Lawful State.reset.cfg 10 0 ∧
    Feeds (bench calLate.statuses calLate.reads calLate.delays) calLate.statuses calLate.reads calLate.delays :=
  ⟨by decide, ⟨by simp [calLate], by decide +kernel, trivial, by decide +kernel⟩, feeds_bench _ _ _⟩

theorem test_witness_untimed_wait :
    (∀ p ∈ [CalPass.mk 0x04 0, CalPass.mk 0x0C 0], testBit p.poll State.reset.cfg.dev.calActive.bit = true) ∧
    (bench (acks 2) [[0x04], [0x0C]] [3]).writeAns = List.replicate [CalPass.mk 0x04 0, CalPass.mk 0x0C 0].length .success ∧
    Feeds (bench (acks 2) [[0x04], [0x0C]] [3]) [] ([CalPass.mk 0x04 0, CalPass.mk 0x0C 0].map fun p => [p.poll]) [3] :=
  ⟨by decide +kernel, rfl, List.nil_prefix, List.prefix_rfl, List.prefix_rfl⟩

/-- A suspended wait whose sensor is done after one more pass: success, and failure. -/
def resuming (error : Byte) : State := { bench (acks 3) [[0x04], [0x00], [error]] [] with seq := .busy }

theorem test_witness_resumes (error : Byte) :
    (resuming error).seq = .busy ∧ (resuming error).quiet = true ∧
    (∀ p ∈ [CalPass.mk 0x04 0], testBit p.poll (resuming error).cfg.dev.calActive.bit = true) ∧
    testBit 0x00 (resuming error).cfg.dev.calActive.bit = false ∧
    Feeds (resuming error) (List.replicate 3 .success) ([CalPass.mk 0x04 0].map (fun p => [p.poll]) ++ [[0x00], [error]])
      [] :=
  ⟨rfl, rfl, (by decide +kernel : ∀ p ∈ [CalPass.mk 0x04 0], testBit p.poll Config.candidate.dev.calActive.bit = true),
    (by decide +kernel : testBit 0x00 Config.candidate.dev.calActive.bit = false), feeds_bench _ _ _⟩

theorem test_resumed_wait :
    ends (step (resuming 0x00)) (fun t => done 0 t && t.trace.length == 7) = true ∧
    ends (step (resuming 0x08)) (fun t => t.status == -8) = true := by decide +kernel

theorem test_witness_resumed_wait_goes_on :
    waiting.seq = .busy ∧ waiting.writeAns = List.replicate [CalPass.mk 0x04 0, CalPass.mk 0x04 0].length .success ∧
    Feeds waiting [] ([CalPass.mk 0x04 0, CalPass.mk 0x04 0].map fun p => [p.poll]) [] :=
  ⟨rfl, rfl, List.nil_prefix, List.prefix_rfl, List.nil_prefix⟩

/-- A resumed wait whose next pointer write fails, and one that answers no byte for the error bit. -/
theorem test_resumed_wait_read_fails :
    ends (step ({ bench [.success, .other] [[0x04]] [] with seq := .busy } : State))
      (fun t => t.status == -4 && t.seq == .idle && t.trace.length == 4) = true ∧
    ends (step ({ bench (acks 2) [[0x00], []] [] with seq := .busy } : State))
      (fun t => t.status == -5 && t.seq == .idle) = true := by decide +kernel

theorem test_witness_ends : (Instr.getreg 2) ≠ .calwait 0 ∧ (Instr.calwait 1) ≠ .calwait 0 := by decide

theorem test_witness_stays_busy :
    ∃ t, exec (.calwait 0) (bench (acks 2) [[0x04], [0x0C]] [3]) = .next t ∧ (t.seq == .busy) = true :=
  exists_of_ends (by decide +kernel)

theorem test_witness_calsync :
    calRun.Lawful State.reset.cfg State.reset.cfg.ticksPerSecond 0 ∧
    Feeds (bench (.success :: .success :: calRun.statuses) ([0x30] :: calRun.reads) (calRun.delays true))
      (.success :: .success :: calRun.statuses) ([0x30] :: calRun.reads) (calRun.delays true) := by
  refine ⟨⟨by decide +kernel, by decide +kernel, fun _ => ?_⟩, feeds_bench _ _ _⟩
  unfold calRun calInTime calInTime; decide +kernel

/-- The last pass reads the clock one tick past the second. -/
def syncLate : CalTimeout := ⟨2, [⟨0x04, 1000⟩], ⟨0x04, 0⟩⟩

theorem test_witness_calsync_times_out :
    syncLate.Lawful State.reset.cfg State.reset.cfg.ticksPerSecond 0 ∧
    Feeds (bench (.success :: .success :: syncLate.statuses) ([0x30] :: syncLate.reads) syncLate.delays)
      (.success :: .success :: syncLate.statuses) ([0x30] :: syncLate.reads) syncLate.delays :=
  ⟨⟨by decide +kernel, by decide +kernel, ⟨by decide +kernel, trivial⟩, by decide +kernel⟩, feeds_bench _ _ _⟩

theorem test_witness_probe :
    BusStatus.addrNack ≠ .success ∧ Feeds (bench [.success] [] []) [.success] [] [] ∧
    Feeds (bench [.addrNack, .success] [] []) [.addrNack, .success] [] [] :=
  ⟨by decide, feeds_bench _ _ _, feeds_bench _ _ _⟩

/-- A sensor that does all BEGIN 1 asks. -/
def initRun : InitRun := ⟨(0x00, 0x01), powerRun, 0x00, 0x20, 0x00, 0x00, 0x30, calRun⟩

/-- The engine before that BEGIN. -/
def initBench : State := bench initRun.statuses initRun.reads (initRun.cal.delays true)

theorem test_witness_begin :
    initRun.power.Lawful initBench.cfg ∧
    initRun.cal.Lawful initBench.cfg initBench.cfg.ticksPerSecond (initRun.waitClock initBench.cfg initBench.clock) ∧
    initRun.cal.failed initBench.cfg = false ∧
    Feeds initBench initRun.statuses initRun.reads (initRun.cal.delays true) := by
  refine ⟨by unfold PowerRun.Lawful; decide +kernel, ⟨by decide +kernel, by decide +kernel, fun _ => ?_⟩,
    by decide +kernel, feeds_bench _ _ _⟩
  unfold initRun calRun calInTime calInTime; decide +kernel

/-- R152: the eight stages, field values saturated, `AUX = 8`. -/
theorem test_begin :
    ends (exec (.begin true) initBench) (fun t => t.status == 0 && t.aux == 8 && writes t ==
      [[], [0x00], [0x00, 0x01], [0x00], [0x00, 0x00], [0x00], [0x00, 0x02], [0x00], [0x00, 0x06], [0x00], [0x00],
        [0x01], [0x01, 0x20], [0x01], [0x01, 0x27], [0x02], [0x02, 0x30], [0x15, 0x30], [0x1C], [0x1C, 0x80],
        [0x02], [0x02, 0x34], [0x02], [0x02], [0x02]]) = true := by decide +kernel

/-- The probe and the soft reset work, the power-up's first read does not. -/
def stageBench : State := bench (acks 5 ++ [.other]) [[0x00], [0x01]] []

theorem test_witness_begin_stage :
    stageBench.quiet = true ∧ (bench [.other, .addrNack] [] []).quiet = true ∧
    raised .addrNack (probe ({ (bench [.other, .addrNack] [] []).accept with aux := 0 } : State)) = true ∧
    ∃ v w u, probe ({ stageBench.accept with aux := 0 } : State) = .done () v ∧
      beginStages stageBench.cfg = [softReset] ++ powerUp :: (beginStages stageBench.cfg).drop 2 ∧
      runStages 1 [softReset] v = .done () w ∧
      powerUp ({ w with aux := BitVec.ofNat 4 2 } : State) = .stop (.raised .io) u := by
  refine ⟨rfl, rfl, by decide +kernel, Progress.state (probe ({ stageBench.accept with aux := 0 } : State)),
    Progress.state (runStages 1 [softReset] (Progress.state (probe ({ stageBench.accept with aux := 0 } : State)))), ?_⟩
  obtain ⟨u, hu⟩ := exists_of_raised (e := .io) (r := powerUp ({ Progress.state (runStages 1 [softReset]
    (Progress.state (probe ({ stageBench.accept with aux := 0 } : State)))) with aux := BitVec.ofNat 4 2 } : State))
    (by decide +kernel)
  exact ⟨u, eq_done_of_isDone (by decide +kernel), rfl, eq_done_of_isDone (by decide +kernel), hu⟩

/-! Calibration and weight -/

/-- The engine with one sample of 3000 to come, and these Scale items. -/
def weighing (zoff : Word) (sfac : F32) : State := { avgBench avgRunOne with zoff := zoff, sfac := sfac, calok := true }

theorem test_witness_weighing (zoff : Word) (sfac : F32) :
    (weighing zoff sfac).quiet = true ∧ (weighing zoff sfac).nvm.wf = true ∧ (weighing zoff sfac).calok = true ∧
    avgRunOne.Answers 1 (weighing zoff sfac) :=
  ⟨rfl, rfl, rfl, test_witness_one_sample⟩

/-- The difference at both ends of the range, and one beyond each. -/
theorem test_witness_difference :
    (avgRunOne.mean 1).toInt - (weighing 0x80000BB9 0).zoff.toInt = 2147483647 ∧
    (avgRunOne.mean 1).toInt - (weighing 0x80000BB8 0).zoff.toInt = 2147483648 ∧
    (avgRunOne.mean 1).toInt - (weighing 0x7FFFFFFF 0).zoff.toInt = -2147480647 ∧
    max ((avgRunOne.mean 1).toInt - (weighing 0x7FFFFFFF 0).zoff.toInt) 0 = 0 ∧
    F32.isZero 0x80000000 = true ∧ F32.isZero 0x00000001 = false := by decide +kernel

/-- One sample of -1000000. -/
def avgRunLow : AvgRun := ⟨0, [], 0x20, (0xF0, 0xBD, 0xC0)⟩

theorem test_witness_difference_below :
    avgRunLow.Answers 1 ({ avgBench avgRunLow with zoff := 0x7FFFFFFF, calok := true } : State) ∧
    (avgRunLow.mean 1).toInt - 2147483647 < -2147483648 :=
  ⟨⟨feeds_bench _ _ _, by simp [avgRunLow], by decide +kernel, by decide +kernel, trivial⟩, by decide +kernel⟩

theorem test_witness_average_error :
    ∃ u, average 1 (State.accept { lateBench with calok := true }) = .stop (.raised .timeout) u :=
  exists_of_raised (by decide +kernel)

/-- The engine with the answers of an averaging that a register read ends. -/
def failBench (r : AvgFailure) : State := bench r.statuses r.reads r.delays

/-- A sample, then a poll that fails; both ways. -/
def avgPollFails (f : ReadFailure) : AvgFailure := ⟨5, [⟨0x20, some (0x00, 0x00, 0x01), 26⟩], none, f⟩

/-- A ready poll at once, then its sample's read fails; both ways. -/
def avgSampleFails (f : ReadFailure) : AvgFailure := ⟨0, [], some 0x20, f⟩

theorem test_witness_average_read_fails :
    (∀ r, (failBench r).quiet = true) ∧
    (avgPollFails (.pointer .addrNack)).Answers 2 .addrNack (failBench (avgPollFails (.pointer .addrNack))) ∧
    (avgPollFails (.short [])).Answers 2 .noData (failBench (avgPollFails (.short []))) ∧
    (avgSampleFails (.pointer .other)).Answers 1 .io (failBench (avgSampleFails (.pointer .other))) ∧
    (avgSampleFails (.short [0x01, 0x02])).Answers 1 .noData (failBench (avgSampleFails (.short [0x01, 0x02]))) := by
  refine ⟨fun _ => rfl, ⟨feeds_bench _ _ _, ?_, fun _ h => (by cases h), by decide +kernel, ⟨?_, trivial⟩, rfl⟩,
    ⟨feeds_bench _ _ _, ?_, fun _ h => (by cases h), by decide +kernel, ⟨?_, trivial⟩, by decide, rfl⟩,
    ⟨feeds_bench _ _ _, ?_, ?_, by decide +kernel, trivial, rfl⟩,
    ⟨feeds_bench _ _ _, ?_, ?_, by decide +kernel, trivial, by decide, rfl⟩⟩ <;>
    first | (unfold AvgPass.fits; decide +kernel) | decide +kernel

theorem test_witness_not_calibrated : State.reset.quiet = true ∧ State.reset.calok = false := ⟨rfl, rfl⟩

/-- Finite values and a divisor that is not zero: the smallest, and a quotient past the largest. -/
theorem test_witness_division :
    F32.absPattern 0x00000001 < F32.infPattern ∧ F32.absPattern 0x7F7FFFFF < F32.infPattern ∧
    F32.isZero 0x00000001 = false ∧
    (2 ^ 25 - 1) * 2 ^ 252 * F32.magnitude 0x00000001 ≤ F32.magnitude 0x7F7FFFFF * 2 ^ 149 ∧
    F32.div 0x7F7FFFFF 0x00000001 = some 0x7F800000 ∧ F32.div 0x3F800000 0x40400000 = some 0x3EAAAAAB := by
  decide +kernel

theorem test_witness_storage : storedScale.quiet = true ∧ storedScale.nvm.wf = true := by decide +kernel

theorem test_witness_readcal_heals :
    wordOf erasedFactor.cfg.nvmOrder (erasedFactor.nvm.readBytes erasedFactor.cfg.slotFac 4) = erasedFactor.cfg.nvmErased ∧
    F32.isNan 0x7F800001 = true ∧ F32.isNan 0x7F800000 = false ∧ erasedFactor.nvm.wf = true := by decide +kernel

/-- The storage with the factor 200.0 and an erased offset. -/
def erasedOffset : State :=
  { State.reset with nvm := [(0x14, 0x00), (0x15, 0x00), (0x16, 0x48), (0x17, 0x43)] }

theorem test_witness_readcal_offset :
    wordOf erasedOffset.cfg.nvmOrder (erasedOffset.nvm.readBytes erasedOffset.cfg.slotFac 4) = 0x43480000 ∧
    wordOf erasedOffset.cfg.nvmOrder (erasedOffset.nvm.readBytes erasedOffset.cfg.slotOff 4) = erasedOffset.cfg.nvmErased ∧
    (0x43480000 : Word) ≠ erasedOffset.cfg.nvmErased ∧ F32.isNan 0x43480000 = false ∧ erasedOffset.nvm.wf = true := by
  decide +kernel

theorem test_witness_readcal_clean :
    wordOf storedScale.cfg.nvmOrder (storedScale.nvm.readBytes storedScale.cfg.slotFac 4) = 0x43480000 ∧
    wordOf storedScale.cfg.nvmOrder (storedScale.nvm.readBytes storedScale.cfg.slotOff 4) = 1000 ∧
    (1000 : Word) ≠ storedScale.cfg.nvmErased := by decide +kernel

/-- R179, spec/95 V160 to V172: the threshold, one pattern below it, and 0.5. -/
theorem test_consistency :
    consistent 1 0x3F8020C5 = true ∧ consistent 1 0x3F8020C4 = false ∧ consistent 1 0x3F000000 = false ∧
    consistent 1 0x7F800000 = true ∧ consistent 0 0x43480000 = false := by decide +kernel

theorem test_witness_restores :
    ∃ t, exec .storecal ({ State.reset with sfac := 0x43480000, zoff := 1000 } : State) = .next t := ⟨_, rfl⟩

/-! Rules over all commands -/

theorem test_witness_command_ends :
    (bench (acks 1) [[0xA5]] []).quiet = true ∧
    ∃ t, exec (.getreg 2) (bench (acks 1) [[0xA5]] []) = .next t ∧ (t.seq == .idle) = true :=
  ⟨rfl, exists_of_ends (by decide +kernel)⟩

/-- A step with storage events from a state that is not the reset state. -/
theorem test_witness_invariant :
    Inv ({ storedScale with status := -101, clock := 7, trace := [.now 3, .idle 1] } : State) ∧
    ∃ t, step (({ storedScale with status := -101, clock := 7, trace := [.now 3, .idle 1] } : State).withFetchWord 32
      0x36000000) = .next t :=
  ⟨⟨by decide +kernel, .inr ⟨.readFactor, rfl⟩, by decide +kernel, 4, rfl, by decide⟩, _, rfl⟩

end Sys2Proof.Tests
end

section
/-! Proofs for the family `10_state.md`: a command is cut only where a reset is due, and which Scale items each command
leaves alone (spec/10 R33). -/

namespace Sys2Proof.Machine

/-! ### A piece of a command is cut only where a reset is due (spec/70 R230) -/

/-- `c` stops for a reset only in a state in which the host asserts one. -/
def Cmd.CutsOnlyDue {α : Type} (c : Cmd α) : Prop := ∀ s t, c s = .stop .resetCut t → t.resetDue = true

section Compose

variable {α β : Type}

theorem Cmd.CutsOnlyDue.pure (a : α) : (Cmd.pure a).CutsOnlyDue := fun _ _ h => by cases h
theorem Cmd.CutsOnlyDue.raise (e : Err) : (Cmd.raise e : Cmd α).CutsOnlyDue := fun _ _ h => by cases h
theorem Cmd.CutsOnlyDue.suspend : (Cmd.suspend : Cmd α).CutsOnlyDue := fun _ _ h => by cases h
theorem Cmd.CutsOnlyDue.get (f : State → α) : (Cmd.get f).CutsOnlyDue := fun _ _ h => by cases h
theorem Cmd.CutsOnlyDue.set (f : State → State) : (Cmd.set f).CutsOnlyDue := fun _ _ h => by cases h

theorem Cmd.CutsOnlyDue.bind {c : Cmd α} {k : α → Cmd β} (hc : c.CutsOnlyDue) (hk : ∀ a, (k a).CutsOnlyDue) :
    (c.bind k).CutsOnlyDue := by
  intro s t hs
  cases hcs : c s with
  | done a u => rw [Cmd.bind_of_done hcs] at hs; exact hk a u t hs
  | stop why u => rw [Cmd.bind_of_stop hcs] at hs; cases hs; exact hc s _ hcs

theorem Cmd.CutsOnlyDue.next {c : Cmd α} {d : Cmd β} (hc : c.CutsOnlyDue) (hd : d.CutsOnlyDue) :
    (c.next d).CutsOnlyDue := .bind hc fun _ => hd

theorem Cmd.CutsOnlyDue.ofState {c : State → Cmd α} (hc : ∀ s, (c s).CutsOnlyDue) :
    Cmd.CutsOnlyDue fun s => c s s := fun s => hc s s

theorem Cmd.CutsOnlyDue.ite {b : Prop} [Decidable b] {c d : Cmd α} (hc : c.CutsOnlyDue) (hd : d.CutsOnlyDue) :
    (if b then c else d).CutsOnlyDue := by split <;> assumption

theorem Cmd.CutsOnlyDue.onError {c : Cmd α} (hc : c.CutsOnlyDue) (f : State → State) :
    (c.onError f).CutsOnlyDue := by
  intro s t hs
  simp only [Cmd.onError] at hs
  split at hs <;> cases hs
  exact hc s _ ‹_›

theorem perform_cutsOnlyDue (answer : State → α) (effect : State → State) : (perform answer effect).CutsOnlyDue := by
  intro s t hs
  by_cases hd : s.resetDue = true
  · rw [perform_resetDue hd] at hs; cases hs; exact hd
  · simp [perform, hd] at hs

end Compose

theorem checkStatus_cutsOnlyDue (st : BusStatus) : (checkStatus st).CutsOnlyDue := by
  unfold checkStatus; cases comm st
  · exact .pure _
  · exact .raise _

theorem memReadDev_cutsOnlyDue (a : Byte) (n : Nat) : (memReadDev a n).CutsOnlyDue :=
  .bind (perform_cutsOnlyDue _ _) fun st => .next (checkStatus_cutsOnlyDue st) <|
    .bind (perform_cutsOnlyDue _ _) fun _ => .ite (.raise _) (.pure _)

theorem readReg_cutsOnlyDue (a : Byte) : (readReg a).CutsOnlyDue :=
  .bind (memReadDev_cutsOnlyDue a 1) fun _ => .pure _

theorem attempt_cutsOnlyDue (bytes : List Byte) : (attempt bytes).CutsOnlyDue :=
  .bind (perform_cutsOnlyDue _ _) fun _ => .next (.set _) (.pure _)

theorem writeAttempts_cutsOnlyDue (a v : Byte) (more : Nat) : (writeAttempts a v more).CutsOnlyDue := by
  induction more with
  | zero => exact .bind (attempt_cutsOnlyDue _) checkStatus_cutsOnlyDue
  | succ n ih => exact .bind (attempt_cutsOnlyDue _) fun st => .ite ih (checkStatus_cutsOnlyDue st)

theorem memWriteDev_cutsOnlyDue (a v : Byte) : (memWriteDev a v).CutsOnlyDue :=
  .next (.set _) (writeAttempts_cutsOnlyDue a v _)

theorem probe_cutsOnlyDue : probe.CutsOnlyDue :=
  .next (.set _) <| .bind (attempt_cutsOnlyDue _) fun _ =>
    .ite (.pure _) (.bind (attempt_cutsOnlyDue _) checkStatus_cutsOnlyDue)

theorem memWriteNvm_cutsOnlyDue (a : Nat) (w : Word) : (memWriteNvm a w).CutsOnlyDue :=
  fun s => (perform_cutsOnlyDue _ _ : (nvmPut a (bytesOf s.cfg.nvmOrder w)).CutsOnlyDue) s

theorem idleTick_cutsOnlyDue : idleTick.CutsOnlyDue :=
  fun s => (perform_cutsOnlyDue _ _ : (idle s.cfg.tIdle).CutsOnlyDue) s

theorem getBit_cutsOnlyDue (r : BitRef) : (getBit r).CutsOnlyDue :=
  .bind (readReg_cutsOnlyDue _) fun _ => .next (.set _) (.get _)

theorem setBit_cutsOnlyDue (r : BitRef) : (setBit r).CutsOnlyDue :=
  .bind (readReg_cutsOnlyDue _) fun _ => .next (.set _) (.ofState fun _ => memWriteDev_cutsOnlyDue _ _)

theorem clearBit_cutsOnlyDue (r : BitRef) : (clearBit r).CutsOnlyDue :=
  .bind (readReg_cutsOnlyDue _) fun _ => .next (.set _) (.ofState fun _ => memWriteDev_cutsOnlyDue _ _)

theorem setField_cutsOnlyDue (f : Field) (v : Byte) : (setField f v).CutsOnlyDue :=
  .bind (readReg_cutsOnlyDue _) fun _ => .next (.set _) (.ofState fun _ => memWriteDev_cutsOnlyDue _ _)

theorem available_cutsOnlyDue : available.CutsOnlyDue := fun s => getBit_cutsOnlyDue s.cfg.dev.ready s

theorem reading_cutsOnlyDue : reading.CutsOnlyDue :=
  fun s => Cmd.CutsOnlyDue.bind (memReadDev_cutsOnlyDue s.cfg.dev.sample 3) (fun _ => .pure _) s

theorem startClock_cutsOnlyDue : startClock.CutsOnlyDue := .bind (perform_cutsOnlyDue _ _) fun _ => .set _

theorem checkDeadline_cutsOnlyDue (limit : Nat) (e : Err) : (checkDeadline limit e).CutsOnlyDue := by
  refine .bind (perform_cutsOnlyDue _ _) fun t s u hs => ?_
  split at hs <;> cases hs

theorem averagePass_cutsOnlyDue (count : BitVec 16) : (averagePass count).CutsOnlyDue :=
  .bind available_cutsOnlyDue fun _ =>
    .bind (.ite (.bind reading_cutsOnlyDue fun _ => .next (.set _) (.get _)) (.pure _)) fun _ =>
      .ite (.get _) (.next (checkDeadline_cutsOnlyDue _ _) (.next idleTick_cutsOnlyDue (.pure _)))

theorem averageLoop_cutsOnlyDue (count : BitVec 16) (n : Nat) : (averageLoop count n).CutsOnlyDue := by
  induction n with
  | zero => exact .raise _
  | succ n ih =>
    refine .bind (averagePass_cutsOnlyDue count) fun r => ?_
    cases r with
    | none => exact ih
    | some a => exact .pure a

theorem average_cutsOnlyDue (count : BitVec 16) : (average count).CutsOnlyDue :=
  .next startClock_cutsOnlyDue (.next (.set _) (.ofState fun _ => averageLoop_cutsOnlyDue count _))

theorem softReset_cutsOnlyDue : softReset.CutsOnlyDue :=
  fun s => Cmd.CutsOnlyDue.next (setBit_cutsOnlyDue s.cfg.dev.rst)
    (.next idleTick_cutsOnlyDue (clearBit_cutsOnlyDue _)) s

theorem setBits_cutsOnlyDue (xs : List BitRef) : (setBits xs).CutsOnlyDue := by
  induction xs with
  | nil => exact .pure _
  | cons x xs ih => exact .next (setBit_cutsOnlyDue x) ih

theorem powerPolls_cutsOnlyDue (ready : BitRef) (more : Nat) : (powerPolls ready more).CutsOnlyDue := by
  induction more with
  | zero => exact .bind (getBit_cutsOnlyDue _) fun _ => .ite (.pure _) (.next (.set _) (.raise _))
  | succ n ih =>
    exact .bind (getBit_cutsOnlyDue _) fun _ => .ite (.pure _) (.next (.set _) (.next idleTick_cutsOnlyDue ih))

theorem powerUp_cutsOnlyDue : powerUp.CutsOnlyDue :=
  fun s => Cmd.CutsOnlyDue.next (setBits_cutsOnlyDue s.cfg.dev.puSet)
    (.next (.set _) (powerPolls_cutsOnlyDue _ _)) s

theorem calBegin_cutsOnlyDue : calBegin.CutsOnlyDue := fun s => setBit_cutsOnlyDue s.cfg.dev.calStart s

theorem calStatus_cutsOnlyDue : calStatus.CutsOnlyDue :=
  fun s => Cmd.CutsOnlyDue.bind (getBit_cutsOnlyDue s.cfg.dev.calActive)
    (fun _ => .ite (.pure _) (.bind (getBit_cutsOnlyDue _) fun _ => .pure _)) s

theorem calWaitPass_cutsOnlyDue (timeout : Nat) : (calWaitPass timeout).CutsOnlyDue :=
  .bind calStatus_cutsOnlyDue fun _ =>
    .ite (.next (.ite (.pure _) (checkDeadline_cutsOnlyDue _ _)) (.next idleTick_cutsOnlyDue (.pure _))) (.pure _)

theorem calWaitLoop_cutsOnlyDue (timeout n : Nat) : (calWaitLoop timeout n).CutsOnlyDue := by
  induction n with
  | zero => exact .ite .suspend (.raise _)
  | succ n ih =>
    refine .bind (calWaitPass_cutsOnlyDue timeout) fun r => ?_
    cases r with
    | none => exact ih
    | some st => exact .pure st

theorem calWaitRest_cutsOnlyDue (timeout : Nat) : (calWaitRest timeout).CutsOnlyDue :=
  fun s => Cmd.CutsOnlyDue.bind (calWaitLoop_cutsOnlyDue timeout (calWaitPasses s timeout))
    (fun st => (.ite (.raise _) (.pure _) : (calWaitEnd st).CutsOnlyDue)) s

theorem calWait_cutsOnlyDue (timeout : Nat) : (calWait timeout).CutsOnlyDue :=
  .next startClock_cutsOnlyDue (calWaitRest_cutsOnlyDue timeout)

theorem calSync_cutsOnlyDue : calSync.CutsOnlyDue :=
  fun s => Cmd.CutsOnlyDue.next calBegin_cutsOnlyDue (calWait_cutsOnlyDue s.cfg.ticksPerSecond) s

theorem setStage_cutsOnlyDue (n : BitVec 4) : (setStage n).CutsOnlyDue := .set _

theorem initSequence_cutsOnlyDue : initSequence.CutsOnlyDue :=
  fun s => Cmd.CutsOnlyDue.next (setStage_cutsOnlyDue 1) (.next softReset_cutsOnlyDue
    (.next (setStage_cutsOnlyDue 2) (.next powerUp_cutsOnlyDue
    (.next (setStage_cutsOnlyDue 3) (.next (setField_cutsOnlyDue _ _)
    (.next (setStage_cutsOnlyDue 4) (.next (setField_cutsOnlyDue _ _)
    (.next (setStage_cutsOnlyDue 5) (.next (setField_cutsOnlyDue _ _)
    (.next (setStage_cutsOnlyDue 6) (.next (memWriteDev_cutsOnlyDue _ _)
    (.next (setStage_cutsOnlyDue 7) (.next (setBit_cutsOnlyDue _)
    (.next (setStage_cutsOnlyDue 8) calSync_cutsOnlyDue)))))))))))))) s

theorem beginSequence_cutsOnlyDue (init : Bool) : (beginSequence init).CutsOnlyDue :=
  .next (setStage_cutsOnlyDue 0) (.next probe_cutsOnlyDue (.next (.ite initSequence_cutsOnlyDue (.pure _)) (.pure _)))

theorem averageOrInvalidate_cutsOnlyDue (count : BitVec 16) : (averageOrInvalidate count).CutsOnlyDue :=
  .onError (average_cutsOnlyDue count) _

theorem quotientOrNan_cutsOnlyDue (q : Option F32) : (quotientOrNan q).CutsOnlyDue := by
  intro s t hs
  cases q <;> cases hs

theorem persistZoff_cutsOnlyDue (persist : Bool) : (persistZoff persist).CutsOnlyDue := by
  cases persist
  · exact .pure ()
  · exact fun s => memWriteNvm_cutsOnlyDue s.cfg.slotOff s.zoff s

theorem persistSfac_cutsOnlyDue (persist : Bool) : (persistSfac persist).CutsOnlyDue := by
  cases persist
  · exact .pure ()
  · exact fun s => memWriteNvm_cutsOnlyDue s.cfg.slotFac s.sfac s

theorem calfRest_cutsOnlyDue (ref : F32) (persist : Bool) (a : Word) : (calfRest ref persist a).CutsOnlyDue :=
  .bind (.ofState fun _ => quotientOrNan_cutsOnlyDue _) fun _ =>
    .next (.set _) <| .next (.set _) <| .next (persistSfac_cutsOnlyDue persist) (.pure _)

theorem requireCalibrated_cutsOnlyDue : requireCalibrated.CutsOnlyDue := by
  intro s t hs
  unfold requireCalibrated at hs
  split at hs <;> cases hs

theorem weightCount_cutsOnlyDue (count : BitVec 16) (neg : Bool) : (weightCount count neg).CutsOnlyDue :=
  .next requireCalibrated_cutsOnlyDue (.bind (average_cutsOnlyDue count) fun _ => .get _)

theorem storeCalibration_cutsOnlyDue : storeCalibration.CutsOnlyDue :=
  fun s => Cmd.CutsOnlyDue.next (memWriteNvm_cutsOnlyDue s.cfg.slotFac s.sfac) (memWriteNvm_cutsOnlyDue _ _) s

/-! ### The Scale items a list allows to be written (spec/10 R33) -/

/-- The Scale items for which `w`, a list in the form of `writesScale`, holds no permission are unchanged. -/
def KeepsScale (w : Bool × Bool × Bool × Bool) (s t : State) : Prop :=
  (w.1 = false → t.zoff = s.zoff) ∧ (w.2.1 = false → t.sfac = s.sfac) ∧
  (w.2.2.1 = false → t.calok = s.calok) ∧ (w.2.2.2 = false → t.caldet = s.caldet)

/-- What the pieces of a command with the permissions `w` leave alone: its Scale items, and the host's moves while no
reset comes next. The second part keeps the piece that follows from being cut. -/
def ScaleFrame (w : Bool × Bool × Bool × Bool) (s t : State) : Prop :=
  KeepsScale w s t ∧ (s.quiet = true → t.host = s.host)

section Scale

variable {w : Bool × Bool × Bool × Bool} {s t u : State}

theorem KeepsScale.of_same (h : SameScale s t) : KeepsScale w s t := by
  obtain ⟨hz, hf, ho, hd⟩ := h
  exact ⟨fun _ => hz, fun _ => hf, fun _ => ho, fun _ => hd⟩

theorem KeepsScale.trans (h : KeepsScale w s t) (h' : KeepsScale w t u) : KeepsScale w s u := by
  obtain ⟨hz, hf, ho, hd⟩ := h
  obtain ⟨hz', hf', ho', hd'⟩ := h'
  exact ⟨fun hw => (hz' hw).trans (hz hw), fun hw => (hf' hw).trans (hf hw), fun hw => (ho' hw).trans (ho hw),
    fun hw => (hd' hw).trans (hd hw)⟩

theorem SensorFrame.keepsScale (h : SensorFrame s t) : KeepsScale w s t := by
  obtain ⟨-, hz, hf, ho, hd, -⟩ := h
  exact .of_same ⟨hz, hf, ho, hd⟩

theorem State.quiet_of_host_eq (hq : s.quiet = true) (h : t.host = s.host) : t.quiet = true := by
  unfold State.quiet at hq ⊢; rwa [h]

/-- An update that touches neither the Scale items nor the host's moves. -/
theorem ScaleFrame.of_same (h : SameScale s t) (hh : t.host = s.host) : ScaleFrame w s t :=
  ⟨.of_same h, fun _ => hh⟩

theorem ScaleFrame.quiet (h : ScaleFrame w s t) (hq : s.quiet = true) : t.quiet = true :=
  State.quiet_of_host_eq hq (h.2 hq)

theorem SensorRel.and {R R' : State → State → Prop} (h : SensorRel R) (h' : SensorRel R') :
    SensorRel fun s t => R s t ∧ R' s t where
  refl s := ⟨h.refl s, h'.refl s⟩
  trans a b := ⟨h.trans a.1 b.1, h'.trans a.2 b.2⟩
  work s v := ⟨h.work s v, h'.work s v⟩
  write bs hb s := ⟨h.write bs hb s, h'.write bs hb s⟩
  read n hn s := ⟨h.read n hn s, h'.read n hn s⟩
  now s := ⟨h.now s, h'.now s⟩
  idle s := ⟨h.idle s, h'.idle s⟩

/-- A transitive relation that holds wherever one respected by work on the sensor does. -/
theorem SensorRel.mono {R R' : State → State → Prop} (h : SensorRel R) (hR : ∀ {s t}, R s t → R' s t)
    (ht : ∀ {s t u}, R' s t → R' t u → R' s u) : SensorRel R' where
  refl s := hR (h.refl s)
  trans := ht
  work s v := hR (h.work s v)
  write bs hb s := hR (h.write bs hb s)
  read n hn s := hR (h.read n hn s)
  now s := hR (h.now s)
  idle s := hR (h.idle s)

/-- Work on the sensor leaves every Scale item alone, whatever the permissions. -/
theorem scaleFrame_rel (w : Bool × Bool × Bool × Bool) : SensorRel (ScaleFrame w) :=
  .and (sensorFrame_rel.mono SensorFrame.keepsScale KeepsScale.trans) sameHost_rel

/-! ### The pieces that are no work on the sensor -/

theorem setStage_keepsScale (n : BitVec 4) : (setStage n).Keeps (ScaleFrame w) :=
  fun _ => .of_same ⟨rfl, rfl, rfl, rfl⟩ rfl

theorem setZoff_keepsScale (hw : w.1 = true) (z : Word) : (setZoff z).Keeps (ScaleFrame w) :=
  fun _ => ⟨⟨by simp [hw], fun _ => rfl, fun _ => rfl, fun _ => rfl⟩, fun _ => rfl⟩

theorem setSfac_keepsScale (hw : w.2.1 = true) (f : F32) : (setSfac f).Keeps (ScaleFrame w) :=
  fun _ => ⟨⟨fun _ => rfl, by simp [hw], fun _ => rfl, fun _ => rfl⟩, fun _ => rfl⟩

theorem scaleFrame_setCalok (hw : w.2.2.1 = true) (v : Bool) (s : State) : ScaleFrame w s (s.setCalok v) :=
  ⟨⟨fun _ => rfl, fun _ => rfl, by simp [hw], fun _ => rfl⟩, fun _ => rfl⟩

theorem memWriteNvm_keepsScale (a : Nat) (v : Word) : (memWriteNvm a v).Keeps (ScaleFrame w) := fun s =>
  (perform_keeps (scaleFrame_rel w).refl fun _ => ⟨.of_same ⟨rfl, rfl, rfl, rfl⟩, countMove_of_quiet⟩ :
    (nvmPut a (bytesOf s.cfg.nvmOrder v)).Keeps (ScaleFrame w)) s

theorem persistZoff_keepsScale (persist : Bool) : (persistZoff persist).Keeps (ScaleFrame w) := by
  cases persist
  · exact (scaleFrame_rel w).refl
  · exact fun s => memWriteNvm_keepsScale s.cfg.slotOff s.zoff s

theorem persistSfac_keepsScale (persist : Bool) : (persistSfac persist).Keeps (ScaleFrame w) := by
  cases persist
  · exact (scaleFrame_rel w).refl
  · exact fun s => memWriteNvm_keepsScale s.cfg.slotFac s.sfac s

theorem storeCalibration_keepsScale : storeCalibration.Keeps (ScaleFrame w) := fun s =>
  Cmd.Keeps.next (scaleFrame_rel w) (memWriteNvm_keepsScale s.cfg.slotFac s.sfac) (memWriteNvm_keepsScale _ _) s

theorem scale_keepsScale (a z : Word) (q : F32) : (scale a z q).Keeps (ScaleFrame w) := by
  intro s
  obtain ⟨v, n, h, -⟩ := scale_cases a z q s
  rw [h]
  exact .of_same ⟨rfl, rfl, rfl, rfl⟩ rfl

theorem Cmd.Keeps.onError {α : Type} {R : State → State → Prop} (h : SensorRel R) {c : Cmd α} {f : State → State}
    (hc : c.Keeps R) (hf : ∀ s, R s (f s)) : (c.onError f).Keeps R := by
  intro s
  have := hc s
  simp only [Cmd.onError]
  rcases hcs : c s with ⟨a, t⟩ | ⟨_ | _ | _, t⟩ <;> rw [hcs] at this
  · exact this
  · exact h.trans this (hf t)
  · exact this
  · exact this

theorem averageOrInvalidate_keepsScale (hw : w.2.2.1 = true) (count : BitVec 16) :
    (averageOrInvalidate count).Keeps (ScaleFrame w) :=
  .onError (scaleFrame_rel w) (average_keeps (scaleFrame_rel w) count) (scaleFrame_setCalok hw false)

theorem calfRest_keepsScale (hf : w.2.1 = true) (ho : w.2.2.1 = true) (ref : F32) (persist : Bool) (a : Word) :
    (calfRest ref persist a).Keeps (ScaleFrame w) :=
  have h := scaleFrame_rel w
  .bind h (.ofState fun s => scale_keepsScale a s.zoff ref) fun q =>
    .next h (setSfac_keepsScale hf q) <| .next h (scaleFrame_setCalok ho true) <|
      .next h (persistSfac_keepsScale persist) (.pure h q)

theorem requireCalibrated_keepsScale : requireCalibrated.Keeps (ScaleFrame w) := by
  intro s
  unfold requireCalibrated
  split <;> exact (scaleFrame_rel w).refl s

theorem weightCount_keepsScale (count : BitVec 16) (neg : Bool) : (weightCount count neg).Keeps (ScaleFrame w) :=
  have h := scaleFrame_rel w
  .next h requireCalibrated_keepsScale <| .bind h (average_keeps h count) fun _ => .get h _

/-! ### The end of a command -/

/-- With no reset to come the end of a command writes no Scale item: it delivers a value or an error, or nothing. -/
theorem concludeWith_keepsScale {r : Progress Word} {aux : State → State} (hr : ScaleFrame w s r.state)
    (hcut : ∀ t, r = .stop .resetCut t → t.resetDue = true) (haux : ∀ t, SameScale t (aux t)) (hq : s.quiet = true) :
    KeepsScale w s (concludeWith aux r) := by
  have hdue : r.state.resetDue = false := State.resetDue_of_quiet (hr.quiet hq)
  rw [concludeWith_of_not_due hdue]
  rcases r with ⟨a, t⟩ | ⟨e | _ | _, t⟩
  · exact hr.1.trans (.of_same (haux t))
  · exact hr.1.trans (.of_same (haux t))
  · rw [Progress.state_stop, hcut t rfl] at hdue; cases hdue
  · exact hr.1

theorem conclude_keepsScale {c : Cmd Word} (hk : c.Keeps (ScaleFrame w)) (hcut : c.CutsOnlyDue)
    (hq : s.quiet = true) : KeepsScale w s (conclude (c s)) :=
  concludeWith_keepsScale (hk s) (hcut s) (fun _ => ⟨rfl, rfl, rfl, rfl⟩) hq

theorem runCommand_keepsScale {c : Cmd Word} (hk : c.Keeps (ScaleFrame w)) (hcut : c.CutsOnlyDue)
    (hq : s.quiet = true) (ht : runCommand c s = .next t) : KeepsScale w s t := by
  cases ht
  exact conclude_keepsScale (s := s.accept) hk hcut hq

/-- A command whose response carries the value 0. -/
theorem runCommand_zero_keepsScale {c : Cmd Unit} (hk : c.Keeps (ScaleFrame w)) (hcut : c.CutsOnlyDue)
    (hq : s.quiet = true) (ht : runCommand (c.next (.pure 0)) s = .next t) : KeepsScale w s t :=
  runCommand_keepsScale (.next (scaleFrame_rel w) hk (.pure (scaleFrame_rel w) 0)) (.next hcut (.pure 0)) hq ht

theorem runOrFault_keepsScale {α : Type} {c : Cmd α} {check : α → State → Option Fault} {k : α → Cmd Word}
    (hk : c.Keeps (ScaleFrame w)) (hcut : c.CutsOnlyDue) (hk' : ∀ a, (k a).Keeps (ScaleFrame w))
    (hcut' : ∀ a, (k a).CutsOnlyDue) (hq : s.quiet = true) (ht : runOrFault c check k s = .next t) :
    KeepsScale w s t := by
  have hc : ScaleFrame w s.accept (c s.accept).state := hk s.accept
  cases hcs : c s.accept with
  | stop why u =>
    simp only [runOrFault, hcs] at ht
    cases ht
    rw [hcs] at hc
    exact concludeWith_keepsScale (s := s.accept) hc (fun v hv => hcut s.accept v (by rw [hcs]; cases hv; rfl))
      (fun _ => ⟨rfl, rfl, rfl, rfl⟩) hq
  | done a u =>
    rw [hcs] at hc
    have hqu : u.quiet = true := hc.quiet hq
    rw [runOrFault_of_done hcs (State.resetDue_of_quiet hqu)] at ht
    split at ht <;> cases ht
    exact hc.1.trans (conclude_keepsScale (hk' a) (hcut' a) hqu)

end Scale

/-! ### One command at a time -/

/-- Every command leaves the Scale items alone that `writesScale` does not let it write. -/
theorem exec_keepsScale (i : Instr) {s t : State} (hq : s.quiet = true) (ht : exec i s = .next t) :
    KeepsScale (writesScale i) s t := by
  have h := scaleFrame_rel (writesScale i)
  cases i with
  | getreg ra =>
    exact runCommand_keepsScale (.bind h (readReg_keeps h ra) fun _ => .pure h _)
      (.bind (readReg_cutsOnlyDue ra) fun _ => .pure _) hq ht
  | setreg ra val => exact runCommand_zero_keepsScale (memWriteDev_keeps h ra val) (memWriteDev_cutsOnlyDue ra val) hq ht
  | setbit ra bit => exact runCommand_zero_keepsScale (setBit_keeps h _) (setBit_cutsOnlyDue _) hq ht
  | clrbit ra bit => exact runCommand_zero_keepsScale (clearBit_keeps h _) (clearBit_cutsOnlyDue _) hq ht
  | getbit ra bit =>
    exact runCommand_keepsScale (.bind h (getBit_keeps h _) fun _ => .pure h _)
      (.bind (getBit_cutsOnlyDue _) fun _ => .pure _) hq ht
  | avail =>
    exact runCommand_keepsScale (.bind h (available_keeps h) fun _ => .pure h _)
      (.bind available_cutsOnlyDue fun _ => .pure _) hq ht
  | read => exact runCommand_keepsScale (reading_keeps h) reading_cutsOnlyDue hq ht
  | getavg count => exact runCommand_keepsScale (average_keeps h count) (average_cutsOnlyDue count) hq ht
  | begin init =>
    cases ht
    exact concludeWith_keepsScale (s := s.accept) (beginSequence_keeps h setStage_keepsScale init s.accept)
      (beginSequence_cutsOnlyDue init s.accept) (fun _ => ⟨rfl, rfl, rfl, rfl⟩) hq
  | powerup => exact runCommand_zero_keepsScale (powerUp_keeps h) powerUp_cutsOnlyDue hq ht
  | setgain val => exact runCommand_zero_keepsScale (setField_keeps h _ val) (setField_cutsOnlyDue _ val) hq ht
  | setldo val => exact runCommand_zero_keepsScale (setField_keeps h _ val) (setField_cutsOnlyDue _ val) hq ht
  | setrate val => exact runCommand_zero_keepsScale (setField_keeps h _ val) (setField_cutsOnlyDue _ val) hq ht
  | setchan val => exact runCommand_zero_keepsScale (setField_keeps h _ val) (setField_cutsOnlyDue _ val) hq ht
  | setintpol val => exact runCommand_zero_keepsScale (setField_keeps h _ val) (setField_cutsOnlyDue _ val) hq ht
  | calbegin => exact runCommand_zero_keepsScale (calBegin_keeps h) calBegin_cutsOnlyDue hq ht
  | calstat =>
    exact runCommand_keepsScale (.bind h (calStatus_keeps h) fun _ => .pure h _)
      (.bind calStatus_cutsOnlyDue fun _ => .pure _) hq ht
  | calwait timeout => exact runCommand_zero_keepsScale (calWait_keeps h _) (calWait_cutsOnlyDue _) hq ht
  | calsync => exact runCommand_zero_keepsScale (calSync_keeps h) calSync_cutsOnlyDue hq ht
  | tare count persist =>
    exact runCommand_keepsScale
      (.bind h (averageOrInvalidate_keepsScale rfl count) fun a =>
        .next h (setZoff_keepsScale rfl a) (.next h (persistZoff_keepsScale persist) (.pure h a)))
      (.bind (averageOrInvalidate_cutsOnlyDue count) fun _ =>
        .next (.set _) (.next (persistZoff_cutsOnlyDue persist) (.pure _))) hq ht
  | calf count ref persist =>
    exact runOrFault_keepsScale (averageOrInvalidate_keepsScale rfl count) (averageOrInvalidate_cutsOnlyDue count)
      (calfRest_keepsScale rfl rfl ref persist) (calfRest_cutsOnlyDue ref persist) hq ht
  | getw count neg =>
    exact runOrFault_keepsScale (weightCount_keepsScale count neg) (weightCount_cutsOnlyDue count neg)
      (fun a => .ofState fun s => scale_keepsScale a s.zoff s.sfac)
      (fun _ => .ofState fun _ => quotientOrNan_cutsOnlyDue _) hq ht
  | setzoff value => exact runCommand_zero_keepsScale (setZoff_keepsScale rfl value) (.set _) hq ht
  | setsfac value => exact runCommand_zero_keepsScale (setSfac_keepsScale rfl value) (.set _) hq ht
  | storecal => exact runCommand_zero_keepsScale storeCalibration_keepsScale storeCalibration_cutsOnlyDue hq ht
  | readcal => simp [KeepsScale, writesScale] -- R33 lets READCAL write all four items

/-- Settles O52: with no reset to come every piece of a command keeps the Scale items it has no permission for, and
nothing cuts the command, so that only its response follows. -/
theorem onlyTheListedCommandsWriteTheScale : Obligations.OnlyTheListedCommandsWriteTheScale := by
  unfold Obligations.OnlyTheListedCommandsWriteTheScale
  exact ⟨⟨rfl, rfl, rfl, rfl⟩, fun i _ _ hq ht => exec_keepsScale i hq ht⟩

end Sys2Proof.Machine
end

section
/-! Proofs for the family `30_encoding.md`: a packet that decodes to a command has that command's `CMD` word and so
selects the command's row of the opcode map (spec/30 R81 to R84), and no step takes a packet while BUSY (R88). -/

namespace Sys2Proof

/-! ### A packet's `CMD` word is its four fields (spec/30 R80) -/

theorem Packet.cmd_eq_fields (p : Packet) : p.cmd = p.op ++ p.a ++ p.h ++ p.l := by
  unfold Packet.op Packet.a Packet.h Packet.l
  rw [BitVec.extractLsb'_append_extractLsb'_eq_extractLsb' (rfl : 24 = 16 + 8),
    BitVec.extractLsb'_append_extractLsb'_eq_extractLsb' (rfl : 16 = 8 + 8),
    BitVec.extractLsb'_append_extractLsb'_eq_extractLsb' (rfl : 8 = 0 + 8)]
  exact BitVec.extractLsb'_eq_self.symm

theorem flagByte_getLsbD {b : Byte} (hb : b.extractLsb' 1 7 = 0) : flagByte (b.getLsbD 0) = b := by
  revert b; decide

theorem bitByte_extractLsb' {b : Byte} (hb : b.extractLsb' 3 5 = 0) : bitByte (b.extractLsb' 0 3) = b := by
  revert b; decide

/-! ### The fields a format reads are those the encoder writes (spec/30 R81) -/

section Format

variable {p : Packet} {op : Byte} (arg : Word) (hop : p.op.toNat = op.toNat)
include hop

/-- Four bytes make the packet's `CMD` word when they are its four fields. -/
theorem packetOf_cmd {a h l : Byte} (ha : p.a = a) (hh : p.h = h) (hl : p.l = l) :
    (packetOf op a h l arg).cmd = p.cmd := by
  obtain rfl : p.op = op := BitVec.eq_of_toNat_eq hop
  subst ha hh hl
  exact p.cmd_eq_fields.symm

theorem packetOf_cmd_formatN (hf : p.formatN = true) : (packetOf op 0 0 0 arg).cmd = p.cmd := by
  simp only [Packet.formatN, Bool.and_eq_true, beq_iff_eq] at hf
  obtain ⟨⟨ha, hh⟩, hl⟩ := hf
  exact packetOf_cmd arg hop ha hh hl

theorem packetOf_cmd_formatA (hf : p.formatA = true) : (packetOf op p.a 0 0 arg).cmd = p.cmd := by
  simp only [Packet.formatA, Bool.and_eq_true, beq_iff_eq] at hf
  obtain ⟨hh, hl⟩ := hf
  exact packetOf_cmd arg hop rfl hh hl

theorem packetOf_cmd_formatR (hf : p.formatR = true) : (packetOf op p.a 0 p.l arg).cmd = p.cmd :=
  packetOf_cmd arg hop rfl (beq_iff_eq.1 hf) rfl

theorem packetOf_cmd_formatB (hf : p.formatB = true) : (packetOf op p.a 0 (bitByte p.bit) arg).cmd = p.cmd := by
  simp only [Packet.formatB, Bool.and_eq_true, beq_iff_eq] at hf
  obtain ⟨hh, hl⟩ := hf
  exact packetOf_cmd arg hop rfl hh (bitByte_extractLsb' hl).symm

theorem packetOf_cmd_formatI (hf : p.formatI = true) : (packetOf op 0 0 p.l arg).cmd = p.cmd := by
  simp only [Packet.formatI, Bool.and_eq_true, beq_iff_eq] at hf
  obtain ⟨ha, hh⟩ := hf
  exact packetOf_cmd arg hop ha hh rfl

theorem packetOf_cmd_formatF (hf : p.formatF = true) : (packetOf op (flagByte p.flag) 0 0 arg).cmd = p.cmd := by
  simp only [Packet.formatF, Bool.and_eq_true, beq_iff_eq] at hf
  obtain ⟨⟨ha, hh⟩, hl⟩ := hf
  exact packetOf_cmd arg hop (flagByte_getLsbD ha).symm hh hl

/-- A count is written back as the two bytes it was read from. -/
theorem packetOf_cmd_count {a : Byte} (ha : p.a = a) :
    (packetOf op a (countHigh p.count) (countLow p.count) arg).cmd = p.cmd :=
  packetOf_cmd arg hop ha BitVec.extractLsb'_append_eq_left.symm BitVec.extractLsb'_append_eq_right.symm

theorem packetOf_cmd_formatC (hf : p.formatC = true) :
    (packetOf op (flagByte p.flag) (countHigh p.count) (countLow p.count) arg).cmd = p.cmd :=
  packetOf_cmd_count arg hop (flagByte_getLsbD (beq_iff_eq.1 hf)).symm

theorem packetOf_cmd_formatC0 (hf : p.formatC0 = true) :
    (packetOf op 0 (countHigh p.count) (countLow p.count) arg).cmd = p.cmd :=
  packetOf_cmd_count arg hop (beq_iff_eq.1 hf)

end Format

/-! ### What a packet that decodes to a command is (spec/30 R81 to R84) -/

/-- A row without an extra condition answers its own command, so a packet of the row's format is that command's. -/
theorem encode_cmd_of_formatted {p : Packet} {ok : Bool} {i j : Instr} (h : formatted ok i = .instr j)
    (hw : i.wellFormed = true) (hcmd : ok = true → (encode i).cmd = p.cmd) :
    j.wellFormed = true ∧ (encode j).cmd = p.cmd := by
  cases ok <;> cases h
  exact ⟨hw, hcmd rfl⟩

/-- The same for a row with the condition `count != 0`, which makes its command well-formed. -/
theorem encode_cmd_of_counted {p : Packet} {ok : Bool} {count : BitVec 16} {i j : Instr}
    (h : counted ok count i = .instr j) (hw : i.wellFormed = (count != 0)) (hcmd : ok = true → (encode i).cmd = p.cmd) :
    j.wellFormed = true ∧ (encode j).cmd = p.cmd := by
  unfold counted at h
  split at h
  · split at h <;> cases h
    exact ⟨hw.trans (bne_iff_ne.2 ‹_›), hcmd ‹_›⟩
  · cases h

/-- A packet that decodes to a command has that command's `CMD` word, and the command is well-formed. -/
theorem encode_cmd_of_decode {p : Packet} {i : Instr} (h : decode p = .instr i) :
    i.wellFormed = true ∧ (encode i).cmd = p.cmd := by
  unfold decode at h
  split at h <;> rename_i hop
  -- register access
  · exact encode_cmd_of_formatted h rfl (packetOf_cmd_formatA _ hop)
  · exact encode_cmd_of_formatted h rfl (packetOf_cmd_formatR _ hop)
  · exact encode_cmd_of_formatted h rfl (packetOf_cmd_formatB _ hop)
  · exact encode_cmd_of_formatted h rfl (packetOf_cmd_formatB _ hop)
  · exact encode_cmd_of_formatted h rfl (packetOf_cmd_formatB _ hop)
  -- sample acquisition
  · exact encode_cmd_of_formatted h rfl (packetOf_cmd_formatN _ hop)
  · exact encode_cmd_of_formatted h rfl (packetOf_cmd_formatN _ hop)
  · exact encode_cmd_of_counted h rfl (packetOf_cmd_formatC0 _ hop)
  -- device control
  · exact encode_cmd_of_formatted h rfl (packetOf_cmd_formatF _ hop)
  · exact encode_cmd_of_formatted h rfl (packetOf_cmd_formatN _ hop)
  · exact encode_cmd_of_formatted h rfl (packetOf_cmd_formatI _ hop)
  · exact encode_cmd_of_formatted h rfl (packetOf_cmd_formatI _ hop)
  · exact encode_cmd_of_formatted h rfl (packetOf_cmd_formatI _ hop)
  · exact encode_cmd_of_formatted h rfl (packetOf_cmd_formatI _ hop)
  · exact encode_cmd_of_formatted h rfl (packetOf_cmd_formatI _ hop)
  · exact encode_cmd_of_formatted h rfl (packetOf_cmd_formatN _ hop)
  · exact encode_cmd_of_formatted h rfl (packetOf_cmd_formatN _ hop)
  · exact encode_cmd_of_formatted h rfl (packetOf_cmd_formatN _ hop)
  · exact encode_cmd_of_formatted h rfl (packetOf_cmd_formatN _ hop)
  -- calibration and weight
  · exact encode_cmd_of_counted h rfl (packetOf_cmd_formatC _ hop)
  · exact encode_cmd_of_counted h rfl (packetOf_cmd_formatC _ hop)
  · exact encode_cmd_of_counted h rfl (packetOf_cmd_formatC _ hop)
  · exact encode_cmd_of_formatted h rfl (packetOf_cmd_formatN _ hop)
  · exact encode_cmd_of_formatted h rfl (packetOf_cmd_formatN _ hop)
  · exact encode_cmd_of_formatted h rfl (packetOf_cmd_formatN _ hop)
  · exact encode_cmd_of_formatted h rfl (packetOf_cmd_formatN _ hop)
  · cases h -- an opcode that is not assigned

/-- Every command's row of the opcode map is selected by its packet (R83, R86). -/
theorem Laws.EncodeSelectsRow.statement_of_instr : ∀ i : Instr, Statement i
  | .getreg ra => getreg ra
  | .setreg ra val => setreg ra val
  | .setbit ra bit => setbit ra bit
  | .clrbit ra bit => clrbit ra bit
  | .getbit ra bit => getbit ra bit
  | .avail => avail
  | .read => Laws.EncodeSelectsRow.read
  | .getavg count => getavg count
  | .begin init => Laws.EncodeSelectsRow.begin init
  | .powerup => powerup
  | .setgain val => setgain val
  | .setldo val => setldo val
  | .setrate val => setrate val
  | .setchan val => setchan val
  | .setintpol val => setintpol val
  | .calbegin => calbegin
  | .calstat => calstat
  | .calwait timeout => calwait timeout
  | .calsync => calsync
  | .tare count persist => tare count persist
  | .calf count ref persist => calf count ref persist
  | .getw count neg => getw count neg
  | .setzoff value => setzoff value
  | .setsfac value => setsfac value
  | .storecal => storecal
  | .readcal => readcal

/-- A row's selection reads nothing of a packet but its `CMD` word (R83). -/
theorem OpcodeRow.selectedBy_congr (r : OpcodeRow) {p q : Packet} (h : p.cmd = q.cmd) :
    r.selectedBy p = r.selectedBy q := by
  simp only [OpcodeRow.selectedBy, h]

/-- A packet that decodes to a command selects the command's row of the opcode map (R83). -/
theorem selectsRow_of_decode {p : Packet} {i : Instr} (h : decode p = .instr i) :
    ∃ r ∈ opcodeMap, r.selectedBy p = true ∧ r.mnemonic = i.mnemonic := by
  obtain ⟨hwf, hcmd⟩ := encode_cmd_of_decode h
  obtain ⟨r, hr, hname, hsel⟩ := Laws.EncodeSelectsRow.statement_of_instr i hwf
  exact ⟨r, hr, r.selectedBy_congr hcmd ▸ hsel, hname⟩

/-- The decoder gives no command to a packet that selects no row (R84). -/
theorem decode_of_no_row {p : Packet} (h : ∀ r ∈ opcodeMap, r.selectedBy p = false) :
    ∃ why, decode p = .invalid why := by
  cases hp : decode p with
  | invalid why => exact ⟨why, rfl⟩
  | instr i =>
    obtain ⟨r, hr, hsel, -⟩ := selectsRow_of_decode hp
    rw [h r hr] at hsel
    cases hsel

end Sys2Proof

namespace Sys2Proof.Machine

/-- A reserved packet presented while IDLE (R84). -/
theorem step_of_reserved {s : State} {p : Packet} {rest : List HostMove} {why : Reserved} (hi : s.seq = .idle)
    (hs : s.host = .packet p :: rest) (hp : decode p = .invalid why) :
    step s = .next ({ s with host := rest } : State).reject := by
  simp only [step, hi, hs, takePacket, hp]

/-- Settles O4: a packet that decodes to a command selects the command's row, so one that selects no row is reserved and
the step answers it `Reject`. -/
theorem reservedPacketIsRejected : Obligations.ReservedPacketIsRejected := by
  unfold Obligations.ReservedPacketIsRejected
  intro s p rest hi hs hrows
  obtain ⟨why, hp⟩ := decode_of_no_row hrows
  exact step_of_reserved hi hs hp

/-! ### The packets the host still holds (spec/30 R88) -/

theorem waitingPackets_of_host_eq {s t : State} (h : t.host = s.host) : waitingPackets t = waitingPackets s := by
  unfold waitingPackets; rw [h]

/-- Counting an event off the host's reset takes no packet. -/
theorem waitingPackets_countEvent (s : State) : waitingPackets s.countEvent = waitingPackets s := by
  unfold waitingPackets
  rw [State.countEvent_host]
  rcases s.host with _ | ⟨_ | _ | n, rest⟩ <;> rfl

/-- A reset takes no packet: the packets behind it are still to come. -/
theorem waitingPackets_assertReset (s : State) : waitingPackets s.assertReset = waitingPackets s := by
  unfold waitingPackets
  rw [State.assertReset_host]
  rcases s.host with _ | ⟨_ | n, rest⟩ <;> rfl

/-- Work on the sensor takes no packet, whatever the host does. -/
theorem samePackets_rel : SensorRel fun s t => waitingPackets t = waitingPackets s where
  refl _ := rfl
  trans h1 h2 := h2.trans h1
  work _ _ := rfl
  write _ _ := perform_keeps (fun _ => rfl) waitingPackets_countEvent
  read _ _ := perform_keeps (fun _ => rfl) waitingPackets_countEvent
  now := perform_keeps (fun _ => rfl) waitingPackets_countEvent
  idle := idleTick_keeps (fun _ => rfl) waitingPackets_countEvent

/-- The end of a command takes no packet, be it a response, an error, a reset or a wait that goes on. -/
theorem waitingPackets_conclude (r : Progress Word) : waitingPackets (conclude r) = waitingPackets r.state := by
  by_cases hd : r.state.resetDue = true
  · rw [conclude, concludeWith_of_due hd, waitingPackets_assertReset]
  · rw [conclude, concludeWith_of_not_due (by simpa using hd)]
    rcases r with ⟨a, t⟩ | ⟨e | _ | _, t⟩
    · exact waitingPackets_of_host_eq rfl
    · exact waitingPackets_of_host_eq rfl
    · exact waitingPackets_assertReset t
    · rfl

/-- A command takes no packet beyond its own when its pieces take none. -/
theorem runCommand_keepsPackets {c : Cmd Word} (hc : c.Keeps fun s t => waitingPackets t = waitingPackets s)
    {s t : State} (ht : runCommand c s = .next t) : waitingPackets t = waitingPackets s := by
  cases ht
  exact (waitingPackets_conclude _).trans (hc s.accept)

/-- Settles O5: a step while BUSY is a stretch of the resumed wait, which is work on the sensor alone. -/
theorem packetIsHeldWhileBusy : Obligations.PacketIsHeldWhileBusy := by
  unfold Obligations.PacketIsHeldWhileBusy
  intro s t hb ht
  have h := samePackets_rel
  rw [step, hb] at ht
  exact runCommand_keepsPackets (.next h (calWaitRest_keeps h 0) (.pure h 0)) ht

end Sys2Proof.Machine
end

section
/-! Proofs for the family `41_sample_acquisition.md`: the unpacker inverts the big-endian cut of a 24-bit number into
three bytes (spec/41 R120). -/

namespace Sys2Proof.Machine

/-- The three bytes of a 24-bit word, highest first, join to that word. -/
theorem bigEndianBytes_append (u : BitVec 24) :
    (u.extractLsb' 16 8 ++ u.extractLsb' 8 8 ++ u.extractLsb' 0 8 : BitVec 24) = u := by
  rw [BitVec.extractLsb'_append_extractLsb'_eq_extractLsb' (rfl : 16 = 8 + 8),
    BitVec.extractLsb'_append_extractLsb'_eq_extractLsb' (rfl : 8 = 0 + 8)]
  exact BitVec.extractLsb'_eq_self

/-- The unpacked bytes of a 24-bit word have the word's signed value. -/
theorem unpack24_bigEndianBytes_toInt (u : BitVec 24) :
    (unpack24 [u.extractLsb' 16 8, u.extractLsb' 8 8, u.extractLsb' 0 8]).toInt = u.toInt := by
  rw [unpack24_eq_signExtend, bigEndianBytes_append, BitVec.toInt_signExtend_of_le (by omega)]

/-- Settles O20: sign extension keeps the value of the 24-bit payload, and a number of the 24-bit range is the value of
the payload that encodes it. -/
theorem unpackerSignExtends : Obligations.UnpackerSignExtends := by
  unfold Obligations.UnpackerSignExtends
  refine ⟨fun x y z => ⟨unpack24_eq_signExtend x y z, unpack24_bounds x y z⟩, fun v hlo hhi => ?_⟩
  rw [unpack24_bigEndianBytes_toInt]
  exact BitVec.toInt_ofInt_eq_self (by omega) hlo (Int.lt_add_one_of_le hhi)

end Sys2Proof.Machine
end

section
/-! Proofs for the family `43_calibration_scaler.md`: the two setters, STORECAL's two puts, and the weight of GETW. -/

/-! ### A quotient of zero (spec/00_scope.md R12) -/

namespace Sys2Proof.F32

theorem roundPattern_zero (d : Nat) : roundPattern 0 d = 0 := by
  simp [roundPattern, divNearestEven]

theorem ofInt_zero : ofInt 0 = 0 := by
  simp [ofInt, roundPattern_zero, withSign]

/-- Zero over a value that is neither a NaN nor a zero is the zero of that value's sign, infinite divisors included. -/
theorem div_zero_left {b : F32} (hn : isNan b = false) (hz : isZero b = false) :
    div 0 b = some (withSign (sign b) 0) := by
  have hs : sign 0#32 = false := by decide
  have hnan : isNan 0#32 = false := by decide
  have hinf : isInf 0#32 = false := by decide
  have hmag : magnitude 0#32 = 0 := by decide
  by_cases hi : isInf b = true
  · simp [div, hs, hnan, hinf, hn, hi]
  · simp [div, hs, hnan, hinf, hn, hi, hz, hmag, roundPattern_zero]

end Sys2Proof.F32

namespace Sys2Proof.Machine

/-! ### The packets of the commands without operands in `CMD` (spec/30 R80, R81, R83) -/

/-- The opcode and the test for format N are read from the `CMD` word alone, so that they compute for every `ARG`. -/
theorem Packet.op_formatN_of_cmd (w arg : Word) :
    Packet.op ⟨w, arg⟩ = w.extractLsb' 24 8 ∧ Packet.formatN ⟨w, arg⟩ = Packet.formatN ⟨w, 0⟩ := ⟨rfl, rfl⟩

theorem decode_setzoff_packet (v : Word) : decode ⟨0x33000000, v⟩ = .instr (.setzoff v) := by
  obtain ⟨hop, hformat⟩ := Packet.op_formatN_of_cmd 0x33000000 v
  rw [decode, hop, hformat]; rfl

theorem decode_setsfac_packet (v : Word) : decode ⟨0x34000000, v⟩ = .instr (.setsfac v) := by
  obtain ⟨hop, hformat⟩ := Packet.op_formatN_of_cmd 0x34000000 v
  rw [decode, hop, hformat]; rfl

theorem decode_storecal_packet (v : Word) : decode ⟨0x35000000, v⟩ = .instr .storecal := by
  obtain ⟨hop, hformat⟩ := Packet.op_formatN_of_cmd 0x35000000 v
  rw [decode, hop, hformat]; rfl

/-! ### SETZOFF and SETSFAC (spec/43 R175, R176) -/

/-- A command that only writes registers is answered with 0. -/
theorem runCommand_of_set {f : State → State} {s : State} (hq : (f s.accept).quiet = true) :
    runCommand ((Cmd.set f).next (.pure 0)) s = .next ((f s.accept).clearAux.respond 0 0) :=
  runCommand_of_done rfl hq

theorem exec_setzoff {s : State} (hq : s.quiet = true) (v : Word) :
    exec (.setzoff v) s = .next (State.respond { s.accept with zoff := v, aux := 0 } 0 0) :=
  runCommand_of_set (f := fun s => { s with zoff := v }) hq

theorem exec_setsfac {s : State} (hq : s.quiet = true) (v : F32) :
    exec (.setsfac v) s = .next (State.respond { s.accept with sfac := v, aux := 0 } 0 0) :=
  runCommand_of_set (f := fun s => { s with sfac := v }) hq

/-- Settles O45: the decoder hands `ARG` on whole, and each setter's end state differs from `s` in its register and the
response alone. -/
theorem settersComplete : Obligations.SettersComplete := by
  unfold Obligations.SettersComplete
  refine ⟨fun v => ⟨decode_setzoff_packet v, decode_setsfac_packet v⟩,
    fun s v hq => ⟨⟨_, exec_setzoff hq v, ?_⟩, ⟨_, exec_setsfac hq v, ?_⟩⟩⟩
  · simp [Succeeded, Observed, SameStorage, SameSurround]
  · simp [Succeeded, Observed, SameStorage, SameSurround]

/-! ### STORECAL (spec/43 R177) -/

/-- The state after STORECAL's two puts, the factor's first. -/
def State.putScale (s : State) : State :=
  (s.putNvm s.cfg.slotFac (bytesOf s.cfg.nvmOrder s.sfac)).putNvm s.cfg.slotOff (bytesOf s.cfg.nvmOrder s.zoff)

theorem exec_storecal {s : State} (hq : s.quiet = true) :
    exec .storecal s = .next (s.accept.putScale.clearAux.respond 0 0) :=
  runCommand_of_done (Cmd.next_of_done (storeCalibration_quiet (s := s.accept) hq)) hq

/-- The put of the offset leaves the factor's bytes in place, since the slots lie apart. -/
theorem State.putScale_readBytes_slotFac {s : State} (hm : s.nvm.wf = true) :
    s.putScale.nvm.readBytes s.cfg.slotFac 4 = bytesOf s.cfg.nvmOrder s.sfac :=
  (Memory.readBytes_writeBytes_outside _ _ _ _ _ (by simpa using s.cfg.slots_apart.symm)).trans
    (storedAt_putNvm hm _ (bytesOf_length _ _)).1

theorem State.putScale_readBytes_slotOff {s : State} (hm : s.nvm.wf = true) :
    s.putScale.nvm.readBytes s.cfg.slotOff 4 = bytesOf s.cfg.nvmOrder s.zoff :=
  (storedAt_putNvm (s := s.putNvm _ _) (Memory.wf_writeBytes hm _ _) _ (bytesOf_length _ _)).1

/-- The two puts change no byte outside the two slots. -/
theorem State.putScale_read_outside (s : State) {a : Nat} (hf : a < s.cfg.slotFac ∨ s.cfg.slotFac + 4 ≤ a)
    (ho : a < s.cfg.slotOff ∨ s.cfg.slotOff + 4 ≤ a) : s.putScale.nvm.read a = s.nvm.read a :=
  (Memory.read_writeBytes_outside _ _ (by rwa [bytesOf_length])).trans
    (Memory.read_writeBytes_outside _ _ (by rwa [bytesOf_length]))

/-- Settles O46: the end state's storage is that of the two puts. -/
theorem storecalWritesBothSlots : Obligations.StorecalWritesBothSlots := by
  unfold Obligations.StorecalWritesBothSlots
  refine ⟨decode_storecal_packet, fun s hq hm => ⟨_, exec_storecal hq, ?_, ?_,
    State.putScale_readBytes_slotFac (s := s.accept) hm, State.putScale_readBytes_slotOff (s := s.accept) hm,
    fun _ => State.putScale_read_outside s.accept, ?_, ?_⟩⟩
  · simp [Succeeded]
  · simp [Observed, State.putScale]
  · simp [SameScale, State.putScale]
  · simp [SameSurround, State.putScale]

/-! ### GETW (spec/43 R173, R174) -/

/-- The averaging of a command that has just been taken, when the environment answers it as `r` says. -/
theorem average_of_answers {s : State} {count : BitVec 16} {r : AvgRun} (hq : s.quiet = true)
    (h : r.Answers count s) :
    ∃ ws rs ds clk, (average count).RunsTo s.accept (r.mean count) ws rs ds clk (r.events s.cfg s.clock) := by
  obtain ⟨hfeeds, hfits, hready, hlength, hintime⟩ := h
  obtain ⟨ws, rs, ds, hw, hr, hd⟩ := hfeeds.accept
  exact ⟨ws, rs, ds, _, average_completes (s := s.accept) hq hw hr hd hfits hready hlength hintime⟩

theorem weightCount_runsTo {s : State} {count : BitVec 16} {a : Word} {ws : List BusStatus} {rs : List (List Byte)}
    {ds : List Nat} {clk : Nat} {es : List Event} (hc : s.calok = true)
    (h : (average count).RunsTo s a ws rs ds clk es) (neg : Bool) :
    (weightCount count neg).RunsTo s (clampFloor neg a s.zoff) ws rs ds clk es := by
  obtain ⟨w, hw⟩ := h
  exact ⟨w, weightCount_of_done hc hw neg⟩

/-- GETW has a result when its numerator is an `s32` and its factor is not zero (R173, R180). -/
theorem weightFault_eq_none {a : Word} {s : State} (hd : insideS32 (difference a s.zoff) = true)
    (hz : F32.isZero s.sfac = false) : weightFault a s = none := by
  simp [weightFault, differenceFault, hd, hz]

/-- A command with a place with no result that gets past it and comes to its value is answered with it. -/
theorem runOrFault_completes {α : Type} {c : Cmd α} {check : α → State → Option Fault} {k : α → Cmd Word}
    {s t u : State} {a : α} {v : Word} (hc : c s.accept = .done a t) (ht : t.quiet = true) (hn : check a t = none)
    (hk : k a t = .done v u) (hu : u.quiet = true) :
    runOrFault c check k s = .next (u.clearAux.respond 0 v) := by
  rw [runOrFault_of_done hc (State.resetDue_of_quiet ht), hn, hk]
  exact congrArg Host.Outcome.next (concludeWith_of_not_due (r := .done v u) (State.resetDue_of_quiet hu) _)

/-- GETW, once its average is `a`, ends with the scaled clamped average. -/
theorem exec_getw {s : State} {count : BitVec 16} {a : Word} {ws : List BusStatus} {rs : List (List Byte)}
    {ds : List Nat} {clk : Nat} {es : List Event} (hq : s.quiet = true) (hc : s.calok = true)
    (ha : (average count).RunsTo s.accept a ws rs ds clk es) (hz : F32.isZero s.sfac = false) (neg : Bool)
    (hd : insideS32 (difference (clampFloor neg a s.zoff) s.zoff) = true) :
    ∃ (t : State) (q : F32), exec (.getw count neg) s = .next t ∧ Succeeded t q 0 ∧
      (match F32.div (F32.ofInt (difference (clampFloor neg a s.zoff) s.zoff)) s.sfac with
        | some w => q = w
        | none => F32.isNan q = true) ∧
      Observed s t es ∧ OnlySensor s t := by
  obtain ⟨w, hw⟩ := weightCount_runsTo (s := s.accept) hc ha neg
  obtain ⟨q, n, hscale, hquot⟩ :=
    scale_cases (clampFloor neg a s.zoff) s.zoff s.sfac (s.accept.ran ws rs ds clk es w)
  refine ⟨_, q, runOrFault_completes hw hq (weightFault_eq_none hd hz) hscale hq, ?_, hquot, ?_, ?_⟩
  · simp [Succeeded]
  · simp [Observed]
  · simp [OnlySensor, SameScale, SameStorage, SameSurround]

/-- Settles O42: the numerator is the difference of the clamped average (`difference_clampFloor`), and a numerator of
zero is divided to a zero (`F32.div_zero_left`). -/
theorem getwCompletesWithTheWeight : Obligations.GetwCompletesWithTheWeight := by
  unfold Obligations.GetwCompletesWithTheWeight
  intro s count neg r d hq hc hr hz hd hlo hhi
  obtain ⟨ws, rs, ds, clk, ha⟩ := average_of_answers hq hr
  have hnum : difference (clampFloor neg (r.mean count) s.zoff) s.zoff = d := (difference_clampFloor ..).trans hd.symm
  obtain ⟨t, q, hexec, hdone, hquot, hobs, hframe⟩ :=
    exec_getw hq hc ha hz neg (by rw [hnum, insideS32_iff]; exact ⟨hlo, hhi⟩)
  rw [hnum] at hquot
  refine ⟨t, q, hexec, hdone, hquot, fun h0 hn => ?_, hobs, hframe⟩
  rw [h0, F32.ofInt_zero, F32.div_zero_left hn hz] at hquot
  rw [hquot]
  cases F32.sign s.sfac <;> rfl

end Sys2Proof.Machine
end

section
/-! Proofs about the encoding (spec/30): the decoder reads back the four fields that the encoder writes, and agrees with
the opcode map row by row. -/

namespace Sys2Proof

/-! ### The fields of an encoded packet (spec/30 R80) -/

section Fields

variable (op a h l : Byte) (arg : Word)

@[simp] theorem packetOf_op : (packetOf op a h l arg).op = op := by
  simp only [Packet.op, packetOf, BitVec.extractLsb'_append_eq_of_le (show 8 ≤ 24 by omega),
    BitVec.extractLsb'_append_eq_of_le (show 8 ≤ 24 - 8 by omega), BitVec.extractLsb'_append_eq_left]

@[simp] theorem packetOf_a : (packetOf op a h l arg).a = a := by
  simp only [Packet.a, packetOf, BitVec.extractLsb'_append_eq_of_le (show 8 ≤ 16 by omega),
    BitVec.extractLsb'_append_eq_of_le (show 8 ≤ 16 - 8 by omega), Nat.reduceSub, BitVec.extractLsb'_append_eq_right]

@[simp] theorem packetOf_h : (packetOf op a h l arg).h = h := by
  simp only [Packet.h, packetOf, BitVec.extractLsb'_append_eq_of_le (show 8 ≤ 8 by omega), Nat.sub_self,
    BitVec.extractLsb'_append_eq_right]

@[simp] theorem packetOf_l : (packetOf op a h l arg).l = l := BitVec.extractLsb'_append_eq_right

@[simp] theorem packetOf_arg : (packetOf op a h l arg).arg = arg := rfl

/-- A count is read back from its two bytes. -/
@[simp] theorem packetOf_count (c : BitVec 16) : (packetOf op a (countHigh c) (countLow c) arg).count = c := by
  rw [Packet.count, packetOf_h, packetOf_l, countHigh, countLow,
    BitVec.extractLsb'_append_extractLsb'_eq_extractLsb' (rfl : 8 = 0 + 8)]
  exact BitVec.extractLsb'_eq_self

/-- A flag is read back from its byte. -/
@[simp] theorem packetOf_flag (f : Bool) : (packetOf op (flagByte f) h l arg).flag = f := by
  rw [Packet.flag, packetOf_a]
  cases f <;> rfl

/-- A bit position is read back from its byte. -/
@[simp] theorem packetOf_bit (b : BitVec 3) : (packetOf op a h (bitByte b) arg).bit = b := by
  rw [Packet.bit, packetOf_l]
  revert b; decide

end Fields

theorem flagByte_high (f : Bool) : (flagByte f).extractLsb' 1 7 = 0 := by cases f <;> rfl

theorem bitByte_high (b : BitVec 3) : (bitByte b).extractLsb' 3 5 = 0 := by revert b; decide

/-- Settles O7: the decoder reads the opcode, the format's zero fields and the operands back as the encoder wrote
them. -/
theorem decodeOfEncode : Obligations.DecodeOfEncode := by
  unfold Obligations.DecodeOfEncode
  intro i hw
  cases i
  -- the rows with the condition `count != 0`
  case getavg count | tare count _ | calf count _ _ | getw count _ =>
    have hc : count ≠ 0#16 := by simpa [Instr.wellFormed] using hw
    simp [encode, decode, counted, Packet.formatC, Packet.formatC0, flagByte_high, hc]
  all_goals
    simp [encode, decode, formatted, Packet.formatA, Packet.formatB, Packet.formatF, Packet.formatI, Packet.formatN,
      Packet.formatR, flagByte_high, bitByte_high]

/-! ### `ARG` (spec/30 R80, R81) -/

/-- A packet whose opcode is not one of the four that use `ARG` decodes as its `CMD` word says. -/
theorem decode_congr {p q : Packet} (h : p.cmd = q.cmd) (hop : p.op ∉ [0x29#8, 0x31#8, 0x33#8, 0x34#8]) :
    decode p = decode q := by
  obtain ⟨cmd, arg⟩ := p
  obtain ⟨cmd', arg'⟩ := q
  obtain rfl : cmd = cmd' := h
  have hne : ∀ b ∈ [0x29#8, 0x31#8, 0x33#8, 0x34#8], Packet.op ⟨cmd, arg⟩ ≠ b := fun b hb he => hop (he ▸ hb)
  have hop' : Packet.op ⟨cmd, arg'⟩ = Packet.op ⟨cmd, arg⟩ := rfl
  simp only [decode, hop']
  split
  case h_18 he => exact absurd (BitVec.eq_of_toNat_eq he) (hne 0x29 (by simp))
  case h_21 he => exact absurd (BitVec.eq_of_toNat_eq he) (hne 0x31 (by simp))
  case h_23 he => exact absurd (BitVec.eq_of_toNat_eq he) (hne 0x33 (by simp))
  case h_24 he => exact absurd (BitVec.eq_of_toNat_eq he) (hne 0x34 (by simp))
  all_goals rfl

theorem formatted_eq_instr {ok : Bool} {i j : Instr} : formatted ok i = .instr j ↔ ok = true ∧ i = j := by
  cases ok <;> simp [formatted]

theorem counted_eq_instr {ok : Bool} {count : BitVec 16} {i j : Instr} :
    counted ok count i = .instr j ↔ ok = true ∧ count ≠ 0 ∧ i = j := by
  cases ok
  · simp [counted]
  · by_cases hc : count = 0#16 <;> simp [counted, hc]

/-- A packet with one of the four opcodes that use `ARG` decodes to a command that holds it. -/
theorem encode_arg_of_decode {p : Packet} {i : Instr} (h : decode p = .instr i)
    (hop : p.op ∈ [0x29#8, 0x31#8, 0x33#8, 0x34#8]) : (encode i).arg = p.arg := by
  simp only [List.mem_cons, List.not_mem_nil, or_false] at hop
  rcases hop with hop | hop | hop | hop <;> rw [decode, hop] at h
  · obtain ⟨-, rfl⟩ := formatted_eq_instr.1 h; rfl
  · obtain ⟨-, -, rfl⟩ := counted_eq_instr.1 h; rfl
  · obtain ⟨-, rfl⟩ := formatted_eq_instr.1 h; rfl
  · obtain ⟨-, rfl⟩ := formatted_eq_instr.1 h; rfl

/-- Settles O8: `encode_cmd_of_decode` gives the `CMD` word, the two lemmas before this one say what becomes of
`ARG`. -/
theorem encodeOfDecode : Obligations.EncodeOfDecode := by
  unfold Obligations.EncodeOfDecode
  refine ⟨fun p i h => ?_, fun p q => decode_congr⟩
  obtain ⟨hw, hcmd⟩ := encode_cmd_of_decode h
  exact ⟨hw, hcmd, encode_arg_of_decode h⟩

/-! ### The opcode map (spec/30 R83) -/

theorem and_mask_of_selectedBy {p : Packet} {r : OpcodeRow} (h : r.selectedBy p = true) :
    p.cmd &&& r.mask = r.pattern := by
  simp only [OpcodeRow.selectedBy, Bool.and_eq_true, beq_iff_eq] at h
  exact h.1

/-- The opcode of a packet that selects a row is the row's: every mask covers it. -/
theorem op_of_selectedBy {p : Packet} {r : OpcodeRow} (hr : r ∈ opcodeMap) (h : r.selectedBy p = true) :
    p.op = r.pattern.extractLsb' 24 8 := by
  have hmask : ∀ r ∈ opcodeMap, r.mask.extractLsb' 24 8 = 0xFF#8 := by decide
  rw [← and_mask_of_selectedBy h, BitVec.extractLsb'_and, hmask r hr]
  exact (BitVec.and_allOnes (x := p.op)).symm

/-- The three byte fields below the opcode are zero under the byte masks `ma`, `mh`, `ml`. -/
def ZeroUnder (p : Packet) (ma mh ml : Byte) : Prop := p.a &&& ma = 0#8 ∧ p.h &&& mh = 0#8 ∧ p.l &&& ml = 0#8

/-- A row's pattern is zero but for the opcode, so a packet that selects the row is zero under the row's mask. -/
theorem zeroUnder_of_selectedBy {p : Packet} {r : OpcodeRow} (hr : r ∈ opcodeMap) (h : r.selectedBy p = true) :
    ZeroUnder p (r.mask.extractLsb' 16 8) (r.mask.extractLsb' 8 8) (r.mask.extractLsb' 0 8) := by
  have hzero : ∀ r ∈ opcodeMap, r.pattern.extractLsb' 16 8 = 0#8 ∧ r.pattern.extractLsb' 8 8 = 0#8 ∧
      r.pattern.extractLsb' 0 8 = 0#8 := by decide
  have hz := hzero r hr
  rw [← and_mask_of_selectedBy h] at hz
  simp only [BitVec.extractLsb'_and] at hz
  exact hz

/-- The extra condition of a row is that of the count (R83). -/
theorem count_of_selectedBy {p : Packet} {r : OpcodeRow} (h : r.selectedBy p = true) (hc : r.countNotZero = true) :
    p.count ≠ 0 := by
  simp only [OpcodeRow.selectedBy, hc, Bool.not_true, Bool.false_or, Bool.and_eq_true, bne_iff_ne] at h
  rw [Packet.count, Packet.h, Packet.l, BitVec.extractLsb'_append_extractLsb'_eq_extractLsb' (rfl : 8 = 0 + 8)]
  exact h.2

theorem and_0xFF_eq_zero {b : Byte} : b &&& 0xFF#8 = 0#8 ↔ b = 0#8 := by
  rw [show b &&& 0xFF#8 = b from BitVec.and_allOnes (x := b)]

theorem and_0xFE_eq_zero {b : Byte} : b &&& 0xFE#8 = 0#8 ↔ b.extractLsb' 1 7 = 0 := by revert b; decide

theorem and_0xF8_eq_zero {b : Byte} : b &&& 0xF8#8 = 0#8 ↔ b.extractLsb' 3 5 = 0 := by revert b; decide

section Masks

/-! The mask of each format covers the format's zero fields (R81, R83). -/

variable {p : Packet}

theorem formatN_of_mask (h : ZeroUnder p 0xFF 0xFF 0xFF) : p.formatN = true := by
  simpa [Packet.formatN, ZeroUnder, and_assoc, and_0xFF_eq_zero] using h

theorem formatA_of_mask (h : ZeroUnder p 0x00 0xFF 0xFF) : p.formatA = true := by
  simpa [Packet.formatA, ZeroUnder, and_assoc, and_0xFF_eq_zero] using h

theorem formatR_of_mask (h : ZeroUnder p 0x00 0xFF 0x00) : p.formatR = true := by
  simpa [Packet.formatR, ZeroUnder, and_assoc, and_0xFF_eq_zero] using h

theorem formatB_of_mask (h : ZeroUnder p 0x00 0xFF 0xF8) : p.formatB = true := by
  simpa [Packet.formatB, ZeroUnder, and_assoc, and_0xFF_eq_zero, and_0xF8_eq_zero] using h

theorem formatI_of_mask (h : ZeroUnder p 0xFF 0xFF 0x00) : p.formatI = true := by
  simpa [Packet.formatI, ZeroUnder, and_assoc, and_0xFF_eq_zero] using h

theorem formatF_of_mask (h : ZeroUnder p 0xFE 0xFF 0xFF) : p.formatF = true := by
  simpa [Packet.formatF, ZeroUnder, and_assoc, and_0xFF_eq_zero, and_0xFE_eq_zero] using h

theorem formatC_of_mask (h : ZeroUnder p 0xFE 0x00 0x00) : p.formatC = true := by
  simpa [Packet.formatC, ZeroUnder, and_assoc, and_0xFE_eq_zero] using h

theorem formatC0_of_mask (h : ZeroUnder p 0xFF 0x00 0x00) : p.formatC0 = true := by
  simpa [Packet.formatC0, ZeroUnder, and_assoc, and_0xFF_eq_zero] using h

end Masks

/-- A packet that selects a row has the row's opcode and format, so it decodes to a command of the row. -/
theorem decode_of_selectedBy {p : Packet} {r : OpcodeRow} (hr : r ∈ opcodeMap) (h : r.selectedBy p = true) :
    ∃ i, decode p = .instr i ∧ i.mnemonic = r.mnemonic := by
  have hz := zeroUnder_of_selectedBy hr h
  have hc := count_of_selectedBy h
  rw [decode, op_of_selectedBy hr h]
  simp only [opcodeMap, List.mem_append, List.mem_cons, List.not_mem_nil, or_false] at hr
  rcases hr with (rfl | rfl | rfl | rfl | rfl | rfl | rfl | rfl | rfl | rfl | rfl | rfl | rfl) |
    rfl | rfl | rfl | rfl | rfl | rfl | rfl | rfl | rfl | rfl | rfl | rfl | rfl
  -- register access
  · exact ⟨_, formatted_eq_instr.2 ⟨formatA_of_mask hz, rfl⟩, rfl⟩
  · exact ⟨_, formatted_eq_instr.2 ⟨formatR_of_mask hz, rfl⟩, rfl⟩
  · exact ⟨_, formatted_eq_instr.2 ⟨formatB_of_mask hz, rfl⟩, rfl⟩
  · exact ⟨_, formatted_eq_instr.2 ⟨formatB_of_mask hz, rfl⟩, rfl⟩
  · exact ⟨_, formatted_eq_instr.2 ⟨formatB_of_mask hz, rfl⟩, rfl⟩
  -- sample acquisition
  · exact ⟨_, formatted_eq_instr.2 ⟨formatN_of_mask hz, rfl⟩, rfl⟩
  · exact ⟨_, formatted_eq_instr.2 ⟨formatN_of_mask hz, rfl⟩, rfl⟩
  · exact ⟨_, counted_eq_instr.2 ⟨formatC0_of_mask hz, hc rfl, rfl⟩, rfl⟩
  -- device control
  · exact ⟨_, formatted_eq_instr.2 ⟨formatF_of_mask hz, rfl⟩, rfl⟩
  · exact ⟨_, formatted_eq_instr.2 ⟨formatN_of_mask hz, rfl⟩, rfl⟩
  · exact ⟨_, formatted_eq_instr.2 ⟨formatI_of_mask hz, rfl⟩, rfl⟩
  · exact ⟨_, formatted_eq_instr.2 ⟨formatI_of_mask hz, rfl⟩, rfl⟩
  · exact ⟨_, formatted_eq_instr.2 ⟨formatI_of_mask hz, rfl⟩, rfl⟩
  · exact ⟨_, formatted_eq_instr.2 ⟨formatI_of_mask hz, rfl⟩, rfl⟩
  · exact ⟨_, formatted_eq_instr.2 ⟨formatI_of_mask hz, rfl⟩, rfl⟩
  · exact ⟨_, formatted_eq_instr.2 ⟨formatN_of_mask hz, rfl⟩, rfl⟩
  · exact ⟨_, formatted_eq_instr.2 ⟨formatN_of_mask hz, rfl⟩, rfl⟩
  · exact ⟨_, formatted_eq_instr.2 ⟨formatN_of_mask hz, rfl⟩, rfl⟩
  · exact ⟨_, formatted_eq_instr.2 ⟨formatN_of_mask hz, rfl⟩, rfl⟩
  -- calibration and weight
  · exact ⟨_, counted_eq_instr.2 ⟨formatC_of_mask hz, hc rfl, rfl⟩, rfl⟩
  · exact ⟨_, counted_eq_instr.2 ⟨formatC_of_mask hz, hc rfl, rfl⟩, rfl⟩
  · exact ⟨_, counted_eq_instr.2 ⟨formatC_of_mask hz, hc rfl, rfl⟩, rfl⟩
  · exact ⟨_, formatted_eq_instr.2 ⟨formatN_of_mask hz, rfl⟩, rfl⟩
  · exact ⟨_, formatted_eq_instr.2 ⟨formatN_of_mask hz, rfl⟩, rfl⟩
  · exact ⟨_, formatted_eq_instr.2 ⟨formatN_of_mask hz, rfl⟩, rfl⟩
  · exact ⟨_, formatted_eq_instr.2 ⟨formatN_of_mask hz, rfl⟩, rfl⟩

/-- Settles O9: the rows one by one, `selectsRow_of_decode`, and the opcodes, which no two rows share. -/
theorem opcodeMapIsTheDecoder : Obligations.OpcodeMapIsTheDecoder := by
  unfold Obligations.OpcodeMapIsTheDecoder
  refine ⟨fun p r => decode_of_selectedBy, fun p i => selectsRow_of_decode, fun p r r' hr hr' h h' => ?_⟩
  have hdistinct : ∀ r ∈ opcodeMap, ∀ r' ∈ opcodeMap,
      r.pattern.extractLsb' 24 8 = r'.pattern.extractLsb' 24 8 → r = r' := by decide
  exact hdistinct r hr r' hr' ((op_of_selectedBy hr h).symm.trans (op_of_selectedBy hr' h'))

/-- Settles O10: the decoder computes on the words. -/
theorem sampleWordsDecode : Obligations.SampleWordsDecode := by
  unfold Obligations.SampleWordsDecode
  decide

end Sys2Proof
end

section
/-! Proofs about what a command forgets (spec/10 R23, R26; spec/60 R208): run from two states that differ only in the
response registers, the working registers and the events observed, a command comes to the same end. A working register
is read only after it has been written, which the index of `Cmd.Forgets` records. -/

namespace Sys2Proof.Machine

/-! ### Two runs of one command -/

/-- `s` and `s'` differ at most in what a command forgets: `p` relates their working registers, `aux` says whether their
stage numbers agree, and after the traces `T` and `T'` they have observed the same events. -/
def Alike (aux : Prop) (T T' : List Event) (p : Work → Work → Prop) (s s' : State) : Prop :=
  ∃ (st : BitVec 16) (res : Word) (n : BitVec 4) (w : Work) (resp : Option Response) (es : List Event),
    s.trace = T ++ es ∧ (aux → n = s.aux) ∧ p s.work w ∧
    s' = { s with status := st, res := res, aux := n, work := w, response := resp, trace := T' ++ es }

/-- Two runs end alike: with the same value, or stopped for the same reason, which is no suspended wait unless
`waits`. -/
inductive EndAlike {α : Type} (aux : Prop) (T T' : List Event) (waits : Prop) (q : Work → Work → Prop) :
    Progress α → Progress α → Prop
  | done {s s' : State} (a : α) : Alike aux T T' q s s' → EndAlike aux T T' waits q (.done a s) (.done a s')
  | stop {s s' : State} (why : Stop) : (why = .suspended → waits) → Alike aux T T' (fun _ _ => True) s s' →
      EndAlike aux T T' waits q (.stop why s) (.stop why s')

/-- From working registers related by `p`, `c` comes to the same end and leaves working registers related by `q`. -/
def Cmd.Forgets {α : Type} (waits : Prop) (p q : Work → Work → Prop) (c : Cmd α) : Prop :=
  ∀ aux T T' s s', Alike aux T T' p s s' → EndAlike aux T T' waits q (c s) (c s')

/-- `p` says nothing of `TB`, `ATT` and `PK`, which every procedure writes before it reads them. -/
def Stable (p : Work → Work → Prop) : Prop :=
  ∀ {w w'} tb tb' att att' pk pk', p w w' →
    p { w with tb := tb, att := att, pk := pk } { w' with tb := tb', att := att', pk := pk' }

/-- Nothing is known of the working registers. -/
def NothingKnown (_ _ : Work) : Prop := True

/-- `T0` has been written (R124, R150). -/
def StartKnown (w w' : Work) : Prop := w.t0 = w'.t0

/-- `T0`, `ACC` and `NS` have been written (R124). -/
def SumKnown (w w' : Work) : Prop := w.t0 = w'.t0 ∧ w.acc = w'.acc ∧ w.ns = w'.ns

theorem stable_nothingKnown : Stable NothingKnown := fun _ _ _ _ _ _ _ => trivial
theorem stable_startKnown : Stable StartKnown := fun _ _ _ _ _ _ h => h
theorem stable_sumKnown : Stable SumKnown := fun _ _ _ _ _ _ h => h

section Compose

variable {α β : Type} {aux : Prop} {T T' : List Event} {waits : Prop} {p q r : Work → Work → Prop} {s s' : State}

theorem Alike.cfg (h : Alike aux T T' p s s') : s'.cfg = s.cfg := by
  obtain ⟨_, _, _, _, _, _, _, _, _, rfl⟩ := h; rfl

theorem Alike.mono (h : Alike aux T T' p s s') (hp : ∀ {w w'}, p w w' → q w w') : Alike aux T T' q s s' := by
  obtain ⟨st, res, n, w, resp, es, ht, ha, hw, hs⟩ := h
  exact ⟨st, res, n, w, resp, es, ht, ha, hp hw, hs⟩

theorem Cmd.Forgets.mono {waits' : Prop} {c : Cmd α} (hc : c.Forgets waits p q) (hw : waits → waits')
    (hq : ∀ {w w'}, q w w' → r w w') : c.Forgets waits' p r := by
  intro aux T T' s s' h
  have hcs := hc aux T T' s s' h
  generalize c s = x at hcs ⊢
  generalize c s' = x' at hcs ⊢
  cases hcs with
  | done a ht => exact .done a (ht.mono hq)
  | stop why h' ht => exact .stop why (fun e => hw (h' e)) ht

theorem Cmd.Forgets.pure (a : α) : (Cmd.pure a).Forgets waits p p := fun _ _ _ _ _ h => .done a h

theorem Cmd.Forgets.raise (e : Err) : (Cmd.raise e : Cmd α).Forgets waits p q :=
  fun _ _ _ _ _ h => .stop _ (by simp) (h.mono fun _ => trivial)

theorem Cmd.Forgets.suspend (h : waits) : (Cmd.suspend : Cmd α).Forgets waits p q :=
  fun _ _ _ _ _ hs => .stop _ (fun _ => h) (hs.mono fun _ => trivial)

theorem Cmd.Forgets.bind {c : Cmd α} {k : α → Cmd β} (hc : c.Forgets waits p q) (hk : ∀ a, (k a).Forgets waits q r) :
    (c.bind k).Forgets waits p r := by
  intro aux T T' s s' h
  have hcs := hc aux T T' s s' h
  unfold Cmd.bind
  generalize c s = x at hcs ⊢
  generalize c s' = x' at hcs ⊢
  cases hcs with
  | done a ht => exact hk a _ _ _ _ _ ht
  | stop why hw ht => exact .stop why hw ht

theorem Cmd.Forgets.next {c : Cmd α} {d : Cmd β} (hc : c.Forgets waits p q) (hd : d.Forgets waits q r) :
    (c.next d).Forgets waits p r := .bind hc fun _ => hd

theorem Cmd.Forgets.ite {b : Prop} [Decidable b] {c d : Cmd α} (hc : c.Forgets waits p q) (hd : d.Forgets waits p q) :
    (if b then c else d).Forgets waits p q := by split <;> assumption

/-- A piece that reads of the state what two alike states share. -/
theorem Cmd.Forgets.ofState {c : State → Cmd α}
    (hc : ∀ {aux T T' s s'}, Alike aux T T' p s s' → c s' = c s) (hf : ∀ s, (c s).Forgets waits p q) :
    Cmd.Forgets waits p q fun s => c s s := by
  intro aux T T' s s' h
  change EndAlike aux T T' waits q (c s s) (c s' s')
  rw [hc h]
  exact hf s aux T T' s s' h

theorem Cmd.Forgets.ofCfg {c : Config → Cmd α} (hf : ∀ g, (c g).Forgets waits p q) :
    Cmd.Forgets waits p q fun s => c s.cfg s :=
  .ofState (c := fun s => c s.cfg) (fun h => by rw [h.cfg]) fun s => hf s.cfg

/-- A value that two alike states share. -/
theorem Cmd.Forgets.get {f : State → α} (hf : ∀ {aux T T' s s'}, Alike aux T T' p s s' → f s' = f s) :
    (Cmd.get f).Forgets waits p p := by
  intro aux T T' s s' h
  rw [Cmd.get_apply, Cmd.get_apply, hf h]
  exact .done _ h

/-- A write of working registers. -/
theorem Cmd.Forgets.setWork {f : Work → Work} (hf : ∀ {w w'}, p w w' → q (f w) (f w')) :
    (Cmd.set fun s => { s with work := f s.work }).Forgets waits p q := by
  intro aux T T' s s' h
  obtain ⟨st, res, n, w, resp, es, ht, ha, hw, rfl⟩ := h
  exact .done _ ⟨st, res, n, f w, resp, es, ht, ha, hf hw, rfl⟩

/-- A write of registers that two alike states share. -/
theorem Cmd.Forgets.set {f : State → State}
    (hf : ∀ {aux T T' s s'}, Alike aux T T' p s s' → Alike aux T T' q (f s) (f s')) :
    (Cmd.set f).Forgets waits p q := fun _ _ _ _ _ h => .done _ (hf h)

/-- An event whose answer and effect are those of what two alike states share. -/
theorem perform_forgets {answer : State → α} {effect : State → State}
    (hr : ∀ {aux T T' s s'}, Alike aux T T' p s s' →
      answer s' = answer s ∧ Alike aux T T' p (effect s) (effect s')) :
    (perform answer effect).Forgets waits p p := by
  intro aux T T' s s' h
  have hcount : Alike aux T T' p s.countEvent s'.countEvent := by
    obtain ⟨st, res, n, w, resp, es, ht, ha, hw, rfl⟩ := h
    exact ⟨st, res, n, w, resp, es, ht, ha, hw, rfl⟩
  have hdue : s'.resetDue = s.resetDue := by
    obtain ⟨_, _, _, _, _, _, _, _, _, rfl⟩ := h; rfl
  obtain ⟨hans, heff⟩ := hr hcount
  unfold perform
  rw [hdue, hans]
  split
  · exact .stop _ (by simp) (h.mono fun _ => trivial)
  · exact .done _ heff

/-- `s'` records what `s` does. -/
theorem Alike.record (h : Alike aux T T' p s s') (e : Event) : Alike aux T T' p (s.record e) (s'.record e) := by
  obtain ⟨st, res, n, w, resp, es, ht, ha, hw, rfl⟩ := h
  exact ⟨st, res, n, w, resp, es ++ [e], by simp [ht], ha, hw, by simp [State.record]⟩

end Compose

section Procedures

variable {waits : Prop} {p : Work → Work → Prop}

theorem busWrite_forgets (bytes : List Byte) : (busWrite bytes).Forgets waits p p := by
  refine perform_forgets fun {aux T T' s s'} h => ?_
  obtain ⟨st, res, n, w, resp, es, ht, ha, hw, rfl⟩ := h
  exact ⟨rfl, Alike.record (s := s.dropStatus) ⟨st, res, n, w, resp, es, ht, ha, hw, rfl⟩ _⟩

theorem busRead_forgets (n : Nat) : (busRead n).Forgets waits p p := by
  refine perform_forgets fun {aux T T' s s'} h => ?_
  obtain ⟨st, res, n, w, resp, es, ht, ha, hw, rfl⟩ := h
  exact ⟨rfl, Alike.record (s := s.dropBytes) ⟨st, res, n, w, resp, es, ht, ha, hw, rfl⟩ _⟩

theorem now_forgets : now.Forgets waits p p := by
  refine perform_forgets fun {aux T T' s s'} h => ?_
  obtain ⟨st, res, n, w, resp, es, ht, ha, hw, rfl⟩ := h
  exact ⟨rfl, Alike.record (s := { s.dropDelay with clock := s.nextTime }) ⟨st, res, n, w, resp, es, ht, ha, hw, rfl⟩ _⟩

theorem idle_forgets (d : Nat) : (idle d).Forgets waits p p := by
  refine perform_forgets fun {aux T T' s s'} h => ?_
  obtain ⟨st, res, n, w, resp, es, ht, ha, hw, rfl⟩ := h
  exact ⟨rfl, Alike.record (s := { s with clock := s.clock + d }) ⟨st, res, n, w, resp, es, ht, ha, hw, rfl⟩ _⟩

theorem nvmGet_forgets (a : Nat) : (nvmGet a).Forgets waits p p := by
  refine perform_forgets fun {aux T T' s s'} h => ?_
  obtain ⟨st, res, n, w, resp, es, ht, ha, hw, rfl⟩ := h
  exact ⟨rfl, Alike.record ⟨st, res, n, w, resp, es, ht, ha, hw, rfl⟩ _⟩

theorem nvmPut_forgets (a : Nat) (bytes : List Byte) : (nvmPut a bytes).Forgets waits p p := by
  refine perform_forgets fun {aux T T' s s'} h => ?_
  obtain ⟨st, res, n, w, resp, es, ht, ha, hw, rfl⟩ := h
  exact ⟨rfl, Alike.record (s := { s with nvm := s.nvm.writeBytes a bytes })
    ⟨st, res, n, w, resp, es, ht, ha, hw, rfl⟩ _⟩

theorem idleTick_forgets : idleTick.Forgets waits p p := .ofCfg fun g => idle_forgets g.tIdle

theorem memReadNvm_forgets (a : Nat) : (memReadNvm a).Forgets waits p p :=
  .bind (nvmGet_forgets a) fun bs => .get (f := fun s => wordOf s.cfg.nvmOrder bs) fun h => by rw [h.cfg]

theorem memWriteNvm_forgets (a : Nat) (w : Word) : (memWriteNvm a w).Forgets waits p p :=
  .ofCfg (c := fun g => nvmPut a (bytesOf g.nvmOrder w)) fun _ => nvmPut_forgets a _

theorem checkStatus_forgets (st : BusStatus) : (checkStatus st).Forgets waits p p := by
  unfold checkStatus; cases comm st
  · exact .pure _
  · exact .raise _

theorem memReadDev_forgets (a : Byte) (n : Nat) : (memReadDev a n).Forgets waits p p :=
  .bind (busWrite_forgets _) fun st => .next (checkStatus_forgets st) <|
    .bind (busRead_forgets n) fun _ => .ite (.raise _) (.pure _)

theorem readReg_forgets (a : Byte) : (readReg a).Forgets waits p p := .bind (memReadDev_forgets a 1) fun _ => .pure _

theorem reading_forgets : reading.Forgets waits p p :=
  .ofCfg (c := fun g => (memReadDev g.dev.sample 3).bind fun bs => .pure (unpack24 bs)) fun g =>
    .bind (memReadDev_forgets g.dev.sample 3) fun _ => .pure _

theorem setStage_forgets (n : BitVec 4) : (setStage n).Forgets waits p p := by
  refine .set fun {aux T T' s s'} h => ?_
  obtain ⟨st, res, n', w, resp, es, ht, ha, hw, rfl⟩ := h
  exact ⟨st, res, n, w, resp, es, ht, fun _ => rfl, hw, rfl⟩

/-- The clock read that writes `T0`. -/
theorem startClock_forgets : startClock.Forgets waits p StartKnown :=
  .bind now_forgets fun t => .setWork (f := fun w => { w with t0 := t }) fun _ => rfl

/-- The deadline is counted from `T0`. -/
theorem checkDeadline_forgets (hp : ∀ {w w'}, p w w' → w.t0 = w'.t0) (limit : Nat) (e : Err) :
    (checkDeadline limit e).Forgets waits p p := by
  refine .bind now_forgets fun t aux T T' s s' h => ?_
  have ht : s.work.t0 = s'.work.t0 := by
    obtain ⟨_, _, _, _, _, _, _, _, hw, rfl⟩ := h
    exact hp hw
  simp only [ht]
  split
  · exact .stop _ (by simp) (h.mono fun _ => trivial)
  · exact .done () h

section Stable

variable (hp : Stable p)

include hp

theorem setTb_forgets (b : Byte) : (setTb b).Forgets waits p p :=
  .setWork (f := fun w => { w with tb := b }) fun h => hp _ _ _ _ _ _ h

theorem countAttempt_forgets : countAttempt.Forgets waits p p :=
  .setWork (f := fun w => { w with att := w.att + 1 }) fun h => hp _ _ _ _ _ _ h

theorem clearAttempts_forgets : clearAttempts.Forgets waits p p :=
  .setWork (f := fun w => { w with att := 0 }) fun h => hp _ _ _ _ _ _ h

theorem clearPolls_forgets : clearPolls.Forgets waits p p :=
  .setWork (f := fun w => { w with pk := 0 }) fun h => hp _ _ _ _ _ _ h

theorem countPoll_forgets : countPoll.Forgets waits p p :=
  .setWork (f := fun w => { w with pk := w.pk + 1 }) fun h => hp _ _ _ _ _ _ h

theorem attempt_forgets (bytes : List Byte) : (attempt bytes).Forgets waits p p :=
  .bind (busWrite_forgets bytes) fun _ => .next (countAttempt_forgets hp) (.pure _)

theorem writeAttempts_forgets (a v : Byte) (more : Nat) : (writeAttempts a v more).Forgets waits p p := by
  induction more with
  | zero => exact .bind (attempt_forgets hp _) checkStatus_forgets
  | succ n ih => exact .bind (attempt_forgets hp _) fun st => .ite ih (checkStatus_forgets st)

theorem memWriteDev_forgets (a v : Byte) : (memWriteDev a v).Forgets waits p p :=
  .next (clearAttempts_forgets hp) (writeAttempts_forgets hp a v _)

theorem probe_forgets : probe.Forgets waits p p :=
  .next (clearAttempts_forgets hp) <| .bind (attempt_forgets hp _) fun _ =>
    .ite (.pure _) (.bind (attempt_forgets hp _) checkStatus_forgets)

/-- `TB` holds the byte just written, so that what follows depends on that byte. -/
theorem tb_forgets {α : Type} {q : Work → Work → Prop} {b : Byte} {c : Byte → Cmd α} (hc : (c b).Forgets waits p q) :
    ((setTb b).next fun s => c s.work.tb s).Forgets waits p q := by
  have h : ((setTb b).next (c b)).Forgets waits p q := .next (setTb_forgets hp b) hc
  exact h

theorem getBit_forgets (r : BitRef) : (getBit r).Forgets waits p p :=
  .bind (readReg_forgets r.reg) fun _ => tb_forgets hp (c := fun tb => .pure (testBit tb r.bit)) (.pure _)

theorem rmw_forgets (a : Byte) (f : Byte → Byte) :
    ((readReg a).bind fun b => (setTb b).next fun s => memWriteDev a (f s.work.tb) s).Forgets waits p p :=
  .bind (readReg_forgets a) fun _ => tb_forgets hp (c := fun tb => memWriteDev a (f tb)) (memWriteDev_forgets hp a _)

theorem setBit_forgets (r : BitRef) : (setBit r).Forgets waits p p := rmw_forgets hp r.reg fun b => withBit b r.bit

theorem clearBit_forgets (r : BitRef) : (clearBit r).Forgets waits p p :=
  rmw_forgets hp r.reg fun b => withoutBit b r.bit

theorem setField_forgets (f : Field) (v : Byte) : (setField f v).Forgets waits p p :=
  rmw_forgets hp f.reg fun b => mergeField f b (clampField f v)

theorem available_forgets : available.Forgets waits p p := .ofCfg fun g => getBit_forgets hp g.dev.ready

theorem softReset_forgets : softReset.Forgets waits p p :=
  .ofCfg (c := fun g => (setBit g.dev.rst).next <| idleTick.next <| clearBit g.dev.rst) fun _ =>
    .next (setBit_forgets hp _) (.next idleTick_forgets (clearBit_forgets hp _))

theorem setBits_forgets (xs : List BitRef) : (setBits xs).Forgets waits p p := by
  induction xs with
  | nil => exact .pure _
  | cons x xs ih => exact .next (setBit_forgets hp x) ih

theorem powerPolls_forgets (ready : BitRef) (more : Nat) : (powerPolls ready more).Forgets waits p p := by
  induction more with
  | zero =>
    exact .bind (getBit_forgets hp ready) fun _ => .ite (.pure _) (.next (countPoll_forgets hp) (.raise _))
  | succ n ih =>
    exact .bind (getBit_forgets hp ready) fun _ =>
      .ite (.pure _) (.next (countPoll_forgets hp) (.next idleTick_forgets ih))

theorem powerUp_forgets : powerUp.Forgets waits p p :=
  .ofCfg (c := fun g => (setBits g.dev.puSet).next <| clearPolls.next <| powerPolls g.dev.puReady (g.puMaxPolls - 1))
    fun _ => .next (setBits_forgets hp _) (.next (clearPolls_forgets hp) (powerPolls_forgets hp _ _))

theorem calBegin_forgets : calBegin.Forgets waits p p := .ofCfg fun g => setBit_forgets hp g.dev.calStart

theorem calStatus_forgets : calStatus.Forgets waits p p :=
  .ofCfg (c := fun g => (getBit g.dev.calActive).bind fun active => if active then .pure CalStatus.inProgress
      else (getBit g.dev.calError).bind fun err => .pure (if err then .failure else .success)) fun _ =>
    .bind (getBit_forgets hp _) fun _ => .ite (.pure _) (.bind (getBit_forgets hp _) fun _ => .pure _)

end Stable

/-! ### The averaging (spec/41 R124) -/

theorem addSample_forgets (v : Word) : (addSample v).Forgets waits SumKnown SumKnown :=
  .setWork (f := fun w => { w with acc := w.acc + v.signExtend 64, ns := w.ns + 1 }) fun ⟨h0, ha, hn⟩ =>
    ⟨h0, congrArg (· + v.signExtend 64) ha, congrArg (· + 1) hn⟩

theorem takeSample_forgets (count : BitVec 16) : (takeSample count).Forgets waits SumKnown SumKnown := by
  refine .bind reading_forgets fun v => .next (addSample_forgets v) (.get fun h => ?_)
  obtain ⟨_, _, _, _, _, _, _, _, ⟨-, -, hn⟩, rfl⟩ := h
  simp only [hn]

theorem averagePass_forgets (count : BitVec 16) : (averagePass count).Forgets waits SumKnown SumKnown := by
  refine .bind (available_forgets stable_sumKnown) fun _ =>
    .bind (.ite (takeSample_forgets count) (.pure _)) fun _ => .ite (.get fun h => ?_)
      (.next (checkDeadline_forgets (fun h => h.1) _ _) (.next idleTick_forgets (.pure _)))
  obtain ⟨_, _, _, _, _, _, _, _, ⟨-, ha, -⟩, rfl⟩ := h
  simp only [ha]

theorem averageLoop_forgets (count : BitVec 16) (n : Nat) : (averageLoop count n).Forgets waits SumKnown SumKnown := by
  induction n with
  | zero => exact .raise _
  | succ n ih =>
    refine .bind (averagePass_forgets count) fun r => ?_
    cases r with
    | none => exact ih
    | some a => exact .pure a

theorem average_forgets (count : BitVec 16) : (average count).Forgets waits p SumKnown :=
  .next startClock_forgets <|
    .next (.setWork (f := fun w => { w with acc := 0, ns := 0 }) fun h => ⟨h, rfl, rfl⟩) <|
      .ofCfg (c := fun g => averageLoop count (averagePasses g count)) fun _ => averageLoop_forgets count _

/-! ### The AFE wait (spec/42 R150): only a wait without a timeout is suspended -/

theorem calWaitPass_forgets (timeout : Nat) : (calWaitPass timeout).Forgets waits StartKnown StartKnown :=
  .bind (calStatus_forgets stable_startKnown) fun _ =>
    .ite (.next (.ite (.pure _) (checkDeadline_forgets id _ _)) (.next idleTick_forgets (.pure _))) (.pure _)

theorem calWaitLoop_forgets (timeout n : Nat) :
    (calWaitLoop timeout n).Forgets (timeout = 0) StartKnown StartKnown := by
  induction n with
  | zero =>
    unfold calWaitLoop
    split
    · exact .suspend ‹_›
    · exact .raise _
  | succ n ih =>
    refine .bind (calWaitPass_forgets timeout) fun r => ?_
    cases r with
    | none => exact ih
    | some st => exact .pure st

theorem calWaitRest_forgets (timeout : Nat) : (calWaitRest timeout).Forgets (timeout = 0) StartKnown StartKnown := by
  refine .ofState (c := fun s => (calWaitLoop timeout (calWaitPasses s timeout)).bind calWaitEnd) (fun h => ?_) fun s =>
    .bind (calWaitLoop_forgets timeout _) fun st =>
      (.ite (.raise _) (.pure _) : (calWaitEnd st).Forgets (timeout = 0) StartKnown StartKnown)
  obtain ⟨_, _, _, _, _, _, _, _, _, rfl⟩ := h
  rfl

theorem calWait_forgets (timeout : Nat) : (calWait timeout).Forgets (timeout = 0) p StartKnown :=
  .next startClock_forgets (calWaitRest_forgets timeout)

theorem calSync_forgets (hp : Stable p) : calSync.Forgets waits p StartKnown :=
  .ofCfg (c := fun g => calBegin.next (calWait g.ticksPerSecond)) fun g =>
    .next (calBegin_forgets hp)
      ((calWait_forgets g.ticksPerSecond).mono (fun h => absurd h (Nat.ne_of_gt g.ticksPerSecond_pos)) id)

/-! ### BEGIN (spec/42 R152) -/

theorem initSequence_forgets (hp : Stable p) : initSequence.Forgets waits p StartKnown :=
  .ofCfg (c := fun g =>
    (setStage 1).next <| softReset.next <|
    (setStage 2).next <| powerUp.next <|
    (setStage 3).next <| (setField g.dev.ldo g.initLdo).next <|
    (setStage 4).next <| (setField g.dev.gain (fmax g.dev.gain)).next <|
    (setStage 5).next <| (setField g.dev.rate g.initRate).next <|
    (setStage 6).next <| (memWriteDev g.dev.chop g.chopVal).next <|
    (setStage 7).next <| (setBit g.dev.capEn).next <|
    (setStage 8).next calSync) fun _ =>
    .next (setStage_forgets 1) <| .next (softReset_forgets hp) <|
    .next (setStage_forgets 2) <| .next (powerUp_forgets hp) <|
    .next (setStage_forgets 3) <| .next (setField_forgets hp _ _) <|
    .next (setStage_forgets 4) <| .next (setField_forgets hp _ _) <|
    .next (setStage_forgets 5) <| .next (setField_forgets hp _ _) <|
    .next (setStage_forgets 6) <| .next (memWriteDev_forgets hp _ _) <|
    .next (setStage_forgets 7) <| .next (setBit_forgets hp _) <|
    .next (setStage_forgets 8) (calSync_forgets hp)

end Procedures

end Sys2Proof.Machine
end

section
/-! What a command is made of, said once for all commands: how its pieces end, what they forget, and which relations
they keep. The claims over all commands below are read off `exec_form`. -/

namespace Sys2Proof.Machine

/-! ### The pieces of the calibration and weight commands -/

section Forgets

variable {α : Type} {waits : Prop} {p q : Work → Work → Prop}

theorem setZoff_forgets (z : Word) : (setZoff z).Forgets waits p p := by
  refine .set fun {aux T T' s s'} h => ?_
  obtain ⟨st, res, n, w, resp, es, ht, ha, hw, rfl⟩ := h
  exact ⟨st, res, n, w, resp, es, ht, ha, hw, rfl⟩

theorem setSfac_forgets (f : F32) : (setSfac f).Forgets waits p p := by
  refine .set fun {aux T T' s s'} h => ?_
  obtain ⟨st, res, n, w, resp, es, ht, ha, hw, rfl⟩ := h
  exact ⟨st, res, n, w, resp, es, ht, ha, hw, rfl⟩

theorem Alike.setCalok {aux : Prop} {T T' : List Event} {s s' : State} (h : Alike aux T T' p s s') (v : Bool) :
    Alike aux T T' p (s.setCalok v) (s'.setCalok v) := by
  obtain ⟨st, res, n, w, resp, es, ht, ha, hw, rfl⟩ := h
  exact ⟨st, res, n, w, resp, es, ht, ha, hw, rfl⟩

theorem Alike.setCaldet {aux : Prop} {T T' : List Event} {s s' : State} (h : Alike aux T T' p s s') (v : Bool) :
    Alike aux T T' p (s.setCaldet v) (s'.setCaldet v) := by
  obtain ⟨st, res, n, w, resp, es, ht, ha, hw, rfl⟩ := h
  exact ⟨st, res, n, w, resp, es, ht, ha, hw, rfl⟩

/-- What two alike states share. -/
theorem Alike.scale {aux : Prop} {T T' : List Event} {s s' : State} (h : Alike aux T T' p s s') :
    s'.zoff = s.zoff ∧ s'.sfac = s.sfac ∧ s'.calok = s.calok := by
  obtain ⟨st, res, n, w, resp, es, ht, ha, hw, rfl⟩ := h
  exact ⟨rfl, rfl, rfl⟩

theorem quotientOrNan_forgets (v : Option F32) : (quotientOrNan v).Forgets waits p p := by
  intro aux T T' s s' h
  obtain ⟨st, res, n, w, resp, es, ht, ha, hw, rfl⟩ := h
  cases v with
  | some w' => exact .done w' ⟨st, res, n, w, resp, es, ht, ha, hw, rfl⟩
  | none => exact .done _ ⟨st, res, n, w, resp, es, ht, ha, hw, rfl⟩

theorem Cmd.Forgets.onError {c : Cmd α} (hc : c.Forgets waits p q) {f : State → State}
    (hf : ∀ {aux T T' s s'}, Alike aux T T' NothingKnown s s' → Alike aux T T' NothingKnown (f s) (f s')) :
    (c.onError f).Forgets waits p q := by
  intro aux T T' s s' h
  have hcs := hc aux T T' s s' h
  unfold Cmd.onError
  generalize c s = x at hcs ⊢
  generalize c s' = x' at hcs ⊢
  cases hcs with
  | done a ht => exact .done a ht
  | stop why hw ht =>
    cases why with
    | raised e => exact .stop _ hw (hf ht)
    | resetCut => exact .stop _ hw ht
    | suspended => exact .stop _ hw ht

theorem averageOrInvalidate_forgets (count : BitVec 16) : (averageOrInvalidate count).Forgets waits p SumKnown :=
  .onError (average_forgets count) fun h => h.setCalok false

theorem persistZoff_forgets (persist : Bool) : (persistZoff persist).Forgets waits p p := by
  cases persist
  · exact .pure ()
  · exact .ofState (c := fun s => memWriteNvm s.cfg.slotOff s.zoff) (fun h => by rw [h.cfg, h.scale.1])
      fun _ => memWriteNvm_forgets _ _

theorem persistSfac_forgets (persist : Bool) : (persistSfac persist).Forgets waits p p := by
  cases persist
  · exact .pure ()
  · exact .ofState (c := fun s => memWriteNvm s.cfg.slotFac s.sfac) (fun h => by rw [h.cfg, h.scale.2.1])
      fun _ => memWriteNvm_forgets _ _

theorem calfRest_forgets (ref : F32) (persist : Bool) (a : Word) : (calfRest ref persist a).Forgets waits p p :=
  .bind (.ofState (c := fun s => scale a s.zoff ref) (fun h => by rw [h.scale.1]) fun _ => quotientOrNan_forgets _)
    fun q => .next (setSfac_forgets q) <| .next (.set fun h => h.setCalok true) <|
      .next (persistSfac_forgets persist) (.pure q)

theorem requireCalibrated_forgets : requireCalibrated.Forgets waits p p := by
  intro aux T T' s s' h
  obtain ⟨-, -, hc⟩ := h.scale
  unfold requireCalibrated
  rw [hc]
  split
  · exact .done () h
  · exact .stop _ (by simp) (h.mono fun _ => trivial)

theorem weightCount_forgets (count : BitVec 16) (neg : Bool) : (weightCount count neg).Forgets waits p SumKnown :=
  .next requireCalibrated_forgets <| .bind (average_forgets count) fun a => .get fun h => by rw [h.scale.1]

theorem weigh_forgets (a : Word) : Cmd.Forgets waits p p fun s => scale a s.zoff s.sfac s :=
  .ofState (c := fun s => scale a s.zoff s.sfac) (fun h => by rw [h.scale.1, h.scale.2.1])
    fun _ => quotientOrNan_forgets _

theorem storeCalibration_forgets : storeCalibration.Forgets waits p p :=
  .ofState (c := fun s => (memWriteNvm s.cfg.slotFac s.sfac).next (memWriteNvm s.cfg.slotOff s.zoff))
    (fun h => by rw [h.cfg, h.scale.1, h.scale.2.1]) fun _ => .next (memWriteNvm_forgets _ _) (memWriteNvm_forgets _ _)

theorem forgetCalibration_forgets : (Cmd.set State.forgetCalibration).Forgets waits p p :=
  .set fun h => (h.setCalok false).setCaldet false

theorem judgeCalibration_forgets : (Cmd.set State.judgeCalibration).Forgets waits p p := by
  refine .set fun h => ?_
  obtain ⟨hz, hf, -⟩ := h.scale
  rw [State.judgeCalibration_eq, State.judgeCalibration_eq, hz, hf]
  exact (h.setCaldet true).setCalok _

theorem healFactor_forgets : healFactor.Forgets waits p p :=
  .ofCfg (c := fun g => (setSfac Config.defSfac).next <| (memWriteNvm g.slotFac Config.defSfac).next <|
      (Cmd.set State.forgetCalibration).next (.raise .readFactor)) fun _ =>
    .next (setSfac_forgets _) <| .next (memWriteNvm_forgets _ _) <| .next forgetCalibration_forgets (.raise _)

theorem healOffset_forgets : healOffset.Forgets waits p p :=
  .ofCfg (c := fun g => (setZoff Config.defZoff).next <| (memWriteNvm g.slotOff Config.defZoff).next <|
      (Cmd.set State.forgetCalibration).next (.raise .readOffset)) fun _ =>
    .next (setZoff_forgets _) <| .next (memWriteNvm_forgets _ _) <| .next forgetCalibration_forgets (.raise _)

theorem judgeStored_forgets (wf wo : Word) : (judgeStored wf wo).Forgets waits p p := by
  intro aux T T' s s' h
  unfold judgeStored
  rw [h.cfg]
  split
  · exact healFactor_forgets _ _ _ _ _ h
  · split
    · exact healOffset_forgets _ _ _ _ _ h
    · exact Cmd.Forgets.next judgeCalibration_forgets (.pure 0) _ _ _ _ _ h

theorem readCalibration_forgets : readCalibration.Forgets waits p p :=
  .ofCfg (c := fun g => (memReadNvm g.slotFac).bind fun wf => (memReadNvm g.slotOff).bind fun wo =>
      (setSfac wf).next <| (setZoff wo).next <| judgeStored wf wo) fun _ =>
    .bind (memReadNvm_forgets _) fun wf => .bind (memReadNvm_forgets _) fun wo =>
      .next (setSfac_forgets wf) <| .next (setZoff_forgets wo) (judgeStored_forgets wf wo)

end Forgets

section Stops

variable {α : Type} {es : List Err}

theorem Cmd.Raises.onError {c : Cmd α} (hc : c.Raises es) (f : State → State) : (c.onError f).Raises es := by
  intro s e t hs
  simp only [Cmd.onError] at hs
  split at hs <;> cases hs
  exact hc s _ _ ‹_›

theorem quotientOrNan_raises (q : Option F32) : (quotientOrNan q).Raises es := by
  intro s e t hs
  cases q <;> cases hs

theorem persistZoff_raises (persist : Bool) : (persistZoff persist).Raises es := by
  cases persist
  · exact .pure ()
  · exact fun s => memWriteNvm_raises s.cfg.slotOff s.zoff s

theorem persistSfac_raises (persist : Bool) : (persistSfac persist).Raises es := by
  cases persist
  · exact .pure ()
  · exact fun s => memWriteNvm_raises s.cfg.slotFac s.sfac s

theorem calfRest_raises (ref : F32) (persist : Bool) (a : Word) : (calfRest ref persist a).Raises es :=
  .bind (.ofState fun _ => quotientOrNan_raises _) fun q =>
    .next (.set _) <| .next (.set _) <| .next (persistSfac_raises persist) (.pure q)

theorem requireCalibrated_raises (h : Err.notCalibrated ∈ es) : requireCalibrated.Raises es := by
  intro s e t hs
  unfold requireCalibrated at hs
  split at hs <;> cases hs
  exact h

theorem weightCount_raises (count : BitVec 16) (neg : Bool) :
    (weightCount count neg).Raises (averageErrors ++ [.notCalibrated]) :=
  .next (requireCalibrated_raises (by simp)) <| .bind ((average_raises count).mono (by simp)) fun _ => .get _

theorem calBegin_raises : calBegin.Raises readErrors := fun s => setBit_raises s.cfg.dev.calStart s

theorem softReset_raises : softReset.Raises readErrors := fun s =>
  Cmd.Raises.next (setBit_raises s.cfg.dev.rst) (.next idleTick_raises (clearBit_raises _)) s

theorem storeCalibration_raises : storeCalibration.Raises es := fun s =>
  Cmd.Raises.next (memWriteNvm_raises s.cfg.slotFac s.sfac) (memWriteNvm_raises _ _) s

theorem healFactor_raises (h : Err.readFactor ∈ es) : healFactor.Raises es := fun s =>
  Cmd.Raises.next (.set _) (.next (memWriteNvm_raises s.cfg.slotFac _) (.next (.set _) (.raise h))) s

theorem healOffset_raises (h : Err.readOffset ∈ es) : healOffset.Raises es := fun s =>
  Cmd.Raises.next (.set _) (.next (memWriteNvm_raises s.cfg.slotOff _) (.next (.set _) (.raise h))) s

theorem judgeStored_raises (hf : Err.readFactor ∈ es) (ho : Err.readOffset ∈ es) (wf wo : Word) :
    (judgeStored wf wo).Raises es := by
  intro s e t hs
  unfold judgeStored at hs
  split at hs
  · exact healFactor_raises hf s e t hs
  · split at hs
    · exact healOffset_raises ho s e t hs
    · cases hs

theorem readCalibration_raises (hf : Err.readFactor ∈ es) (ho : Err.readOffset ∈ es) : readCalibration.Raises es :=
  fun s => Cmd.Raises.bind (memReadNvm_raises s.cfg.slotFac) (fun wf => .bind (memReadNvm_raises _) fun wo =>
    .next (.set _) (.next (.set _) (judgeStored_raises hf ho wf wo))) s

theorem healFactor_cutsOnlyDue : healFactor.CutsOnlyDue := fun s =>
  Cmd.CutsOnlyDue.next (.set _) (.next (memWriteNvm_cutsOnlyDue s.cfg.slotFac _) (.next (.set _) (.raise _))) s

theorem healOffset_cutsOnlyDue : healOffset.CutsOnlyDue := fun s =>
  Cmd.CutsOnlyDue.next (.set _) (.next (memWriteNvm_cutsOnlyDue s.cfg.slotOff _) (.next (.set _) (.raise _))) s

theorem judgeStored_cutsOnlyDue (wf wo : Word) : (judgeStored wf wo).CutsOnlyDue := by
  intro s t hs
  unfold judgeStored at hs
  split at hs
  · exact healFactor_cutsOnlyDue s t hs
  · split at hs
    · exact healOffset_cutsOnlyDue s t hs
    · cases hs

theorem memReadNvm_cutsOnlyDue (a : Nat) : (memReadNvm a).CutsOnlyDue :=
  .bind (perform_cutsOnlyDue _ _) fun _ => .get _

theorem readCalibration_cutsOnlyDue : readCalibration.CutsOnlyDue := fun s =>
  Cmd.CutsOnlyDue.bind (memReadNvm_cutsOnlyDue s.cfg.slotFac) (fun wf => .bind (memReadNvm_cutsOnlyDue _) fun wo =>
    .next (.set _) (.next (.set _) (judgeStored_cutsOnlyDue wf wo))) s

end Stops

/-! ### Relations that everything a command does respects -/

/-- The two storage slots of a configuration (spec/20 R57). -/
def Config.isSlot (c : Config) (a : Nat) : Prop := a = c.slotOff ∨ a = c.slotFac

/-- A relation that everything a command does respects: work on the sensor, writes of the engine's registers, the two
storage events at the slots, the puts only where `puts` allows them. -/
structure EngineRel (R : State → State → Prop) (puts : Bool) : Prop extends SensorRel R where
  cfg : ∀ {s t}, R s t → t.cfg = s.cfg
  zoff : ∀ s z, R s { s with zoff := z }
  sfac : ∀ s f, R s { s with sfac := f }
  calok : ∀ s v, R s (s.setCalok v)
  caldet : ∀ s v, R s (s.setCaldet v)
  draws : ∀ s n, R s { s with draws := n }
  stage : ∀ (s : State) (n : BitVec 4), n ≤ 8 → R s { s with aux := n }
  get : ∀ (s : State) a, Config.isSlot s.cfg a → R s (nvmGet a s).state
  put : puts = true → ∀ (s : State) a w, Config.isSlot s.cfg a → R s (memWriteNvm a w s).state

/-- From `s` on, `c` keeps the relation. -/
def Cmd.KeepsAt {α : Type} (R : State → State → Prop) (c : Cmd α) (s : State) : Prop := R s (c s).state

section Keeps

variable {α β : Type} {R : State → State → Prop} {puts : Bool} (h : EngineRel R puts)

include h

theorem Cmd.KeepsAt.bind {c : Cmd α} {k : α → Cmd β} {s : State} (hc : c.KeepsAt R s)
    (hk : ∀ a t, t.cfg = s.cfg → (k a).KeepsAt R t) : (c.bind k).KeepsAt R s := by
  unfold Cmd.KeepsAt at hc
  cases hcs : c s with
  | done a t =>
    rw [hcs] at hc
    rw [Cmd.KeepsAt, Cmd.bind_of_done hcs]
    exact h.trans hc (hk a t (h.cfg hc))
  | stop why t =>
    rw [hcs] at hc
    rw [Cmd.KeepsAt, Cmd.bind_of_stop hcs]
    exact hc

theorem Cmd.KeepsAt.next {c : Cmd α} {d : Cmd β} {s : State} (hc : c.KeepsAt R s)
    (hd : ∀ t, t.cfg = s.cfg → d.KeepsAt R t) : (c.next d).KeepsAt R s := .bind h hc fun _ => hd

theorem memReadNvm_keepsAt {s : State} {a : Nat} (ha : Config.isSlot s.cfg a) : (memReadNvm a).KeepsAt R s :=
  .bind h (h.get s a ha) fun _ _ _ => h.refl _

/-- The stages of BEGIN: `AUX` takes the values 0 to 8 (R152). -/
theorem setStage_keeps {n : BitVec 4} (hn : n ≤ 8) : (setStage n).Keeps R := fun s => h.stage s n hn

theorem initSequence_keepsEngine : initSequence.Keeps R := fun s =>
  have hs := h.toSensorRel
  Cmd.Keeps.next hs (setStage_keeps h (n := 1) (by decide)) (.next hs (softReset_keeps hs)
    (.next hs (setStage_keeps h (n := 2) (by decide)) (.next hs (powerUp_keeps hs)
    (.next hs (setStage_keeps h (n := 3) (by decide)) (.next hs (setField_keeps hs _ _)
    (.next hs (setStage_keeps h (n := 4) (by decide)) (.next hs (setField_keeps hs _ _)
    (.next hs (setStage_keeps h (n := 5) (by decide)) (.next hs (setField_keeps hs _ _)
    (.next hs (setStage_keeps h (n := 6) (by decide)) (.next hs (memWriteDev_keeps hs _ _)
    (.next hs (setStage_keeps h (n := 7) (by decide)) (.next hs (setBit_keeps hs _)
    (.next hs (setStage_keeps h (n := 8) (by decide)) (calSync_keeps hs))))))))))))))) s

theorem beginSequence_keepsEngine (init : Bool) : (beginSequence init).Keeps R :=
  have hs := h.toSensorRel
  .next hs (setStage_keeps h (n := 0) (by decide)) <| .next hs (probe_keeps hs) <|
    .next hs (.ite (initSequence_keepsEngine h) (.pure hs _)) (.pure hs _)

theorem averageOrInvalidate_keeps (count : BitVec 16) : (averageOrInvalidate count).Keeps R :=
  .onError h.toSensorRel (average_keeps h.toSensorRel count) fun s => h.calok s false

theorem scale_keeps (a z : Word) (q : F32) : (scale a z q).Keeps R := by
  intro s
  obtain ⟨v, n, hv, -⟩ := scale_cases a z q s
  rw [hv]
  exact h.draws s n

theorem persistZoff_keeps {persist : Bool} (hp : persist = puts) : (persistZoff persist).Keeps R := by
  subst hp
  cases persist
  · exact h.refl
  · exact fun s => h.put rfl s _ s.zoff (.inl rfl)

theorem persistSfac_keeps {persist : Bool} (hp : persist = puts) : (persistSfac persist).Keeps R := by
  subst hp
  cases persist
  · exact h.refl
  · exact fun s => h.put rfl s _ s.sfac (.inr rfl)

theorem calfRest_keeps (ref : F32) {persist : Bool} (hp : persist = puts) (a : Word) :
    (calfRest ref persist a).Keeps R :=
  have hs := h.toSensorRel
  .bind hs (.ofState fun s => scale_keeps h a s.zoff ref) fun q =>
    .next hs (fun s => h.sfac s q) <| .next hs (fun s => h.calok s true) <|
      .next hs (persistSfac_keeps h hp) (.pure hs q)

theorem requireCalibrated_keeps : requireCalibrated.Keeps R := by
  intro s
  unfold requireCalibrated
  split <;> exact h.refl s

theorem weightCount_keeps (count : BitVec 16) (neg : Bool) : (weightCount count neg).Keeps R :=
  have hs := h.toSensorRel
  .next hs (requireCalibrated_keeps h) <| .bind hs (average_keeps hs count) fun _ => .get hs _

variable (hp : puts = true)

include hp

theorem storeCalibration_keeps : storeCalibration.Keeps R := fun s =>
  Cmd.KeepsAt.next h (c := memWriteNvm s.cfg.slotFac s.sfac) (h.put hp s _ _ (.inr rfl))
    fun t ht => h.put hp t _ _ (.inl (by rw [ht]))

theorem healFactor_keeps : healFactor.Keeps R := fun s =>
  Cmd.KeepsAt.next h (c := setSfac Config.defSfac) (h.sfac s _) fun t ht =>
    Cmd.KeepsAt.next h (h.put hp t _ _ (.inr (by rw [ht]))) fun u _ =>
      Cmd.Keeps.next h.toSensorRel (fun v => h.trans (h.calok v false) (h.caldet _ false)) (.raise h.toSensorRel _) u

theorem healOffset_keeps : healOffset.Keeps R := fun s =>
  Cmd.KeepsAt.next h (c := setZoff Config.defZoff) (h.zoff s _) fun t ht =>
    Cmd.KeepsAt.next h (h.put hp t _ _ (.inl (by rw [ht]))) fun u _ =>
      Cmd.Keeps.next h.toSensorRel (fun v => h.trans (h.calok v false) (h.caldet _ false)) (.raise h.toSensorRel _) u

theorem judgeStored_keeps (wf wo : Word) : (judgeStored wf wo).Keeps R := by
  intro s
  unfold judgeStored
  split
  · exact healFactor_keeps h hp s
  · split
    · exact healOffset_keeps h hp s
    · exact h.trans (h.caldet s true) (h.calok _ _)

theorem readCalibration_keeps : readCalibration.Keeps R := fun s =>
  Cmd.KeepsAt.bind h (memReadNvm_keepsAt h (.inr rfl)) fun wf t ht =>
    Cmd.KeepsAt.bind h (memReadNvm_keepsAt h (.inl (by rw [ht]))) fun wo u _ =>
      Cmd.Keeps.next h.toSensorRel (c := setSfac wf) (fun v => h.sfac v wf)
        (.next h.toSensorRel (c := setZoff wo) (fun v => h.zoff v wo) (judgeStored_keeps h hp wf wo)) u

end Keeps

/-! ### One command at a time -/

/-- What is known of every piece of the command `i`. -/
structure Piece (i : Instr) {α : Type} (c : Cmd α) : Prop where
  forgets : c.Forgets (i = .calwait 0) NothingKnown NothingKnown
  raises : c.Raises (errorsOf i)
  cuts : c.CutsOnlyDue
  keeps : ∀ {R}, EngineRel R (writesStorage i) → c.Keeps R

/-- A command whose response carries the value 0. -/
theorem Piece.zero {i : Instr} {c : Cmd Unit} {p : Work → Work → Prop}
    (hf : c.Forgets (i = .calwait 0) NothingKnown p) (hr : c.Raises (errorsOf i)) (hc : c.CutsOnlyDue)
    (hk : ∀ {R}, EngineRel R (writesStorage i) → c.Keeps R) : Piece i (c.next (.pure (0 : Word))) where
  forgets := .next (hf.mono id fun _ => trivial) (.pure 0)
  raises := .next hr (.pure 0)
  cuts := .next hc (.pure 0)
  keeps h := .next h.toSensorRel (hk h) (.pure h.toSensorRel 0)

/-- The fault `f` is one that the command `i` reports in the state `s` (spec/60 R214). -/
def FaultOf (i : Instr) (s : State) (f : Fault) : Prop :=
  (∃ count neg, i = .getw count neg ∧ (f = .zeroScaleFactor s ∨ f = .differenceOutsideS32 s)) ∨
    ∃ count ref persist, i = .calf count ref persist ∧ f = .differenceOutsideS32 s

/-- What a command is, read off its definition. -/
inductive Form (i : Instr) (g : Config) : Prop
  /-- a command other than BEGIN, with a result on every path -/
  | plain (c : Cmd Word) (hc : Piece i c) (h : ∀ s, s.cfg = g → exec i s = runCommand c s)
  /-- BEGIN -/
  | stages (init : Bool) (hi : i = .begin init) (hc : Piece i (beginSequence init))
  /-- a command with a place with no result: the check there reads `ZOFF` and `SFAC` -/
  | faulting {α : Type} (c : Cmd α) (check : α → State → Option Fault) (k : α → Cmd Word) (hc : Piece i c)
      (hk : ∀ a, Piece i (k a))
      (hcheck : ∀ {a s s'}, s'.zoff = s.zoff → s'.sfac = s.sfac → check a s = none → check a s' = none)
      (hfault : ∀ {a s f}, check a s = some f → FaultOf i s f)
      (h : ∀ s, exec i s = runOrFault c check k s)

theorem differenceFault_congr {a : Word} {s s' : State} (hz : s'.zoff = s.zoff) (h : differenceFault a s = none) :
    differenceFault a s' = none := by
  unfold differenceFault at h ⊢
  rw [hz]
  split at h
  · exact if_pos ‹_›
  · cases h

theorem weightFault_congr {a : Word} {s s' : State} (hz : s'.zoff = s.zoff) (hf : s'.sfac = s.sfac)
    (h : weightFault a s = none) : weightFault a s' = none := by
  unfold weightFault at h ⊢
  cases hd : differenceFault a s with
  | some f => rw [hd] at h; cases h
  | none =>
    rw [hd] at h
    dsimp only at h
    rw [differenceFault_congr hz hd, hf]
    split at h
    · cases h
    · exact if_neg ‹_›

theorem differenceFault_eq_some {a : Word} {s : State} {f : Fault} (h : differenceFault a s = some f) :
    f = .differenceOutsideS32 s := by
  unfold differenceFault at h
  split at h <;> cases h
  rfl

theorem weightFault_eq_some {a : Word} {s : State} {f : Fault} (h : weightFault a s = some f) :
    f = .zeroScaleFactor s ∨ f = .differenceOutsideS32 s := by
  unfold weightFault at h
  cases hd : differenceFault a s with
  | some f' => rw [hd] at h; cases h; exact .inr (differenceFault_eq_some hd)
  | none =>
    rw [hd] at h
    dsimp only at h
    split at h <;> cases h
    exact .inl rfl

/-- A command that is one setter of a field. -/
theorem setField_form {i : Instr} {g : Config} (f : Field) (v : Byte) (hi : errorsOf i = readErrors)
    (h : ∀ s, s.cfg = g → exec i s = runCommand ((setField f v).next (.pure 0)) s) : Form i g :=
  .plain _ (.zero (setField_forgets stable_nothingKnown f v) (hi ▸ setField_raises f v) (setField_cutsOnlyDue f v)
    fun h => setField_keeps h.toSensorRel f v) h

theorem beginSequence_forgets {waits : Prop} (init : Bool) :
    (beginSequence init).Forgets waits NothingKnown NothingKnown :=
  have hn : Stable NothingKnown := stable_nothingKnown
  .next (setStage_forgets 0) <| .next (probe_forgets hn) <|
    .next (.ite ((initSequence_forgets hn).mono id fun _ => trivial) (.pure ())) (.pure 0)

theorem initSequence_raises : initSequence.Raises (errorsOf (.begin true)) := fun s =>
  have hread {α : Type} {c : Cmd α} (hc : c.Raises readErrors) : c.Raises (errorsOf (.begin true)) :=
    hc.mono (by decide)
  Cmd.Raises.next (.set _) (.next (hread softReset_raises)
    (.next (.set _) (.next (powerUp_raises.mono (by decide))
    (.next (.set _) (.next (hread (setField_raises _ _))
    (.next (.set _) (.next (hread (setField_raises _ _))
    (.next (.set _) (.next (hread (setField_raises _ _))
    (.next (.set _) (.next (hread (memWriteDev_raises_read _ _))
    (.next (.set _) (.next (hread (setBit_raises _))
    (.next (.set _) (calSync_raises.mono (by decide)))))))))))))))) s

theorem beginSequence_raises (init : Bool) : (beginSequence init).Raises (errorsOf (.begin init)) := by
  cases init with
  | false => exact .next (.set _) (.next probe_raises (.next (.pure ()) (.pure 0)))
  | true => exact .next (.set _) (.next (probe_raises.mono (by decide)) (.next initSequence_raises (.pure 0)))

theorem exec_form (i : Instr) (g : Config) : Form i g := by
  have hn : Stable NothingKnown := stable_nothingKnown
  cases i with
  | getreg ra =>
    exact .plain ((readReg ra).bind fun b => .pure (zext32 b))
      ⟨.bind (readReg_forgets ra) fun _ => .pure _, .bind (readReg_raises ra) fun _ => .pure _,
        .bind (readReg_cutsOnlyDue ra) fun _ => .pure _,
        fun h => .bind h.toSensorRel (readReg_keeps h.toSensorRel ra) fun _ => .pure h.toSensorRel _⟩ fun _ _ => rfl
  | setreg ra val =>
    exact .plain _ (.zero (memWriteDev_forgets hn ra val) (memWriteDev_raises ra val) (memWriteDev_cutsOnlyDue ra val)
      fun h => memWriteDev_keeps h.toSensorRel ra val) fun _ _ => rfl
  | setbit ra bit =>
    exact .plain _ (.zero (setBit_forgets hn ⟨ra, bit⟩) (setBit_raises _) (setBit_cutsOnlyDue _)
      fun h => setBit_keeps h.toSensorRel _) fun _ _ => rfl
  | clrbit ra bit =>
    exact .plain _ (.zero (clearBit_forgets hn ⟨ra, bit⟩) (clearBit_raises _) (clearBit_cutsOnlyDue _)
      fun h => clearBit_keeps h.toSensorRel _) fun _ _ => rfl
  | getbit ra bit =>
    exact .plain ((getBit ⟨ra, bit⟩).bind fun r => .pure (boolWord r))
      ⟨.bind (getBit_forgets hn _) fun _ => .pure _, .bind (getBit_raises _) fun _ => .pure _,
        .bind (getBit_cutsOnlyDue _) fun _ => .pure _,
        fun h => .bind h.toSensorRel (getBit_keeps h.toSensorRel _) fun _ => .pure h.toSensorRel _⟩ fun _ _ => rfl
  | avail =>
    exact .plain (available.bind fun r => .pure (boolWord r))
      ⟨.bind (available_forgets hn) fun _ => .pure _, .bind available_raises fun _ => .pure _,
        .bind available_cutsOnlyDue fun _ => .pure _,
        fun h => .bind h.toSensorRel (available_keeps h.toSensorRel) fun _ => .pure h.toSensorRel _⟩ fun _ _ => rfl
  | read =>
    exact .plain reading ⟨reading_forgets, reading_raises, reading_cutsOnlyDue, fun h => reading_keeps h.toSensorRel⟩
      fun _ _ => rfl
  | getavg count =>
    exact .plain (average count)
      ⟨(average_forgets count).mono id fun _ => trivial, average_raises count, average_cutsOnlyDue count,
        fun h => average_keeps h.toSensorRel count⟩ fun _ _ => rfl
  | begin init =>
    exact .stages init rfl ⟨beginSequence_forgets init, beginSequence_raises init, beginSequence_cutsOnlyDue init,
      fun h => beginSequence_keepsEngine h init⟩
  | powerup =>
    exact .plain _ (.zero (powerUp_forgets hn) powerUp_raises powerUp_cutsOnlyDue fun h => powerUp_keeps h.toSensorRel)
      fun _ _ => rfl
  | setgain val => exact setField_form g.dev.gain val rfl fun s hs => by subst hs; rfl
  | setldo val => exact setField_form g.dev.ldo val rfl fun s hs => by subst hs; rfl
  | setrate val => exact setField_form g.dev.rate val rfl fun s hs => by subst hs; rfl
  | setchan val => exact setField_form g.dev.chan val rfl fun s hs => by subst hs; rfl
  | setintpol val => exact setField_form g.dev.intpol val rfl fun s hs => by subst hs; rfl
  | calbegin =>
    exact .plain _ (.zero (calBegin_forgets hn) calBegin_raises calBegin_cutsOnlyDue
      fun h => calBegin_keeps h.toSensorRel) fun _ _ => rfl
  | calstat =>
    exact .plain (calStatus.bind fun st => .pure (calCode st))
      ⟨.bind (calStatus_forgets hn) fun _ => .pure _, .bind calStatus_raises fun _ => .pure _,
        .bind calStatus_cutsOnlyDue fun _ => .pure _,
        fun h => .bind h.toSensorRel (calStatus_keeps h.toSensorRel) fun _ => .pure h.toSensorRel _⟩ fun _ _ => rfl
  | calwait timeout =>
    have hzero : timeout.toNat = 0 → Instr.calwait timeout = .calwait 0 := fun h =>
      congrArg Instr.calwait (BitVec.eq_of_toNat_eq h)
    exact .plain _ (.zero ((calWait_forgets timeout.toNat).mono hzero id) (calWait_raises _) (calWait_cutsOnlyDue _)
      fun h => calWait_keeps h.toSensorRel _) fun _ _ => rfl
  | calsync =>
    exact .plain _ (.zero (calSync_forgets hn) calSync_raises calSync_cutsOnlyDue fun h => calSync_keeps h.toSensorRel)
      fun _ _ => rfl
  | tare count persist =>
    exact .plain ((averageOrInvalidate count).bind fun a => (setZoff a).next <| (persistZoff persist).next (.pure a))
      ⟨.bind (averageOrInvalidate_forgets count) fun a => .next (setZoff_forgets a) <|
          .next (persistZoff_forgets persist) ((Cmd.Forgets.pure (p := SumKnown) a).mono id fun _ => trivial),
        .bind (.onError (average_raises count) _) fun a =>
          .next (.set _) (.next (persistZoff_raises persist) (.pure a)),
        .bind (averageOrInvalidate_cutsOnlyDue count) fun a =>
          .next (.set _) (.next (persistZoff_cutsOnlyDue persist) (.pure a)),
        fun h => .bind h.toSensorRel (averageOrInvalidate_keeps h count) fun a =>
          .next h.toSensorRel (c := setZoff a) (fun s => h.zoff s a) <|
            .next h.toSensorRel (persistZoff_keeps h rfl) (.pure h.toSensorRel a)⟩ fun _ _ => rfl
  | calf count ref persist =>
    exact .faulting (averageOrInvalidate count) differenceFault (calfRest ref persist)
      ⟨(averageOrInvalidate_forgets count).mono id fun _ => trivial, .onError (average_raises count) _,
        averageOrInvalidate_cutsOnlyDue count, fun h => averageOrInvalidate_keeps h count⟩
      (fun a => ⟨calfRest_forgets ref persist a, calfRest_raises ref persist a, calfRest_cutsOnlyDue ref persist a,
        fun h => calfRest_keeps h ref rfl a⟩)
      (fun hz _ => differenceFault_congr hz)
      (fun hf => .inr ⟨count, ref, persist, rfl, differenceFault_eq_some hf⟩) fun _ => rfl
  | getw count neg =>
    exact .faulting (weightCount count neg) weightFault (fun a s => scale a s.zoff s.sfac s)
      ⟨(weightCount_forgets count neg).mono id fun _ => trivial, weightCount_raises count neg,
        weightCount_cutsOnlyDue count neg, fun h => weightCount_keeps h count neg⟩
      (fun a => ⟨weigh_forgets a, .ofState fun _ => quotientOrNan_raises _,
        .ofState fun _ => quotientOrNan_cutsOnlyDue _,
        fun h => .ofState fun s => scale_keeps h a s.zoff s.sfac⟩)
      weightFault_congr (fun hf => .inl ⟨count, neg, rfl, weightFault_eq_some hf⟩) fun _ => rfl
  | setzoff value =>
    exact .plain _ (.zero (setZoff_forgets value) (.set _) (.set _) fun h s => h.zoff s value) fun _ _ => rfl
  | setsfac value =>
    exact .plain _ (.zero (setSfac_forgets value) (.set _) (.set _) fun h s => h.sfac s value) fun _ _ => rfl
  | storecal =>
    exact .plain _ (.zero storeCalibration_forgets storeCalibration_raises storeCalibration_cutsOnlyDue
      fun h => storeCalibration_keeps h rfl) fun _ _ => rfl
  | readcal =>
    exact .plain readCalibration ⟨readCalibration_forgets, readCalibration_raises (by decide) (by decide),
      readCalibration_cutsOnlyDue, fun h => readCalibration_keeps h rfl⟩ fun _ _ => rfl

end Sys2Proof.Machine
end

section
/-! How a step ends, said once for all commands; the claims over all commands whose reason is a relation that everything
a command does respects (spec/10 R33, R152; spec/20 R50 to R60; spec/60 R200, R203; spec/70 R230, R240). -/

namespace Sys2Proof.Machine

/-! ### The end of a command -/

/-- The piece of the command `i` that began in `s` has come to the progress `r`. -/
structure EndOf (i : Instr) (s : State) {α : Type} (r : Progress α) : Prop where
  keeps : ∀ {R}, EngineRel R (writesStorage i) → R s r.state
  cut : ∀ {u}, r = .stop .resetCut u → u.resetDue = true
  raised : ∀ {e u}, r = .stop (.raised e) u → e ∈ errorsOf i
  suspended : ∀ {u}, r = .stop .suspended u → i = .calwait 0

/-- A command that forgets is suspended only where it may wait. -/
theorem Cmd.Forgets.waits_of_suspended {α : Type} {waits : Prop} {q : Work → Work → Prop} {c : Cmd α}
    (hc : c.Forgets waits NothingKnown q) {s u : State} (h : c s = .stop .suspended u) : waits := by
  have hs := hc True s.trace s.trace s s ⟨_, _, _, _, _, [], by simp, fun _ => rfl, trivial, by simp; rfl⟩
  rw [h] at hs
  cases hs with
  | stop _ hw _ => exact hw rfl

theorem Piece.endOf {i : Instr} {α : Type} {c : Cmd α} (hc : Piece i c) {s u : State}
    (hu : ∀ {R}, EngineRel R (writesStorage i) → R s u) : EndOf i s (c u) where
  keeps h := h.trans (hu h) (hc.keeps h u)
  cut h := hc.cuts _ _ h
  raised h := hc.raises _ _ _ h
  suspended h := hc.forgets.waits_of_suspended h

/-- What a command that began in `s` comes to. -/
inductive Comes (i : Instr) (s : State) : Prop
  | next (r : Progress Word) (aux : State → State) (ha : aux = State.clearAux ∨ aux = id) (hr : EndOf i s.accept r)
      (h : exec i s = .next (concludeWith aux r))
  | fault (u : State) (f : Fault) (hf : FaultOf i u f) (hd : u.resetDue = false)
      (hu : ∀ {R}, EngineRel R (writesStorage i) → R s.accept u) (h : exec i s = .fault f)

theorem exec_comes (i : Instr) (s : State) : Comes i s := by
  cases exec_form i s.cfg with
  | plain c hc h => exact .next _ _ (.inl rfl) (hc.endOf fun hR => hR.refl _) (h s rfl)
  | stages init hi hc => subst hi; exact .next _ _ (.inr rfl) (hc.endOf fun hR => hR.refl _) rfl
  | faulting c check k hc hk _ hfault h =>
    have hend := hc.endOf (u := s.accept) fun hR => hR.refl _
    have hrun := h s
    unfold runOrFault at hrun
    cases hcs : c s.accept with
    | stop why u =>
      rw [hcs] at hrun hend
      exact .next (.stop why u) _ (.inl rfl) ⟨hend.keeps, fun h => hend.cut (by cases h; rfl),
        fun h => hend.raised (by cases h; rfl), fun h => hend.suspended (by cases h; rfl)⟩ hrun
    | done a u =>
      rw [hcs] at hrun hend
      by_cases hd : u.resetDue = true
      · refine .next (.stop .resetCut u) _ (.inl rfl) ⟨hend.keeps, fun h => by cases h; exact hd, ?_, ?_⟩ ?_
        · intro e v h; cases h
        · intro v h; cases h
        · rw [concludeWith_of_due (r := .stop .resetCut u) hd, hrun]; exact if_pos hd
      · simp only [if_neg hd] at hrun
        cases hf : check a u with
        | some f => rw [hf] at hrun; exact .fault u f (hfault hf) (by simpa using hd) hend.keeps hrun
        | none => rw [hf] at hrun; exact .next _ _ (.inl rfl) ((hk a).endOf hend.keeps) hrun

/-- A command that answers a next state. -/
theorem exec_next {i : Instr} {s t : State} (h : exec i s = .next t) :
    ∃ (r : Progress Word) (aux : State → State), (aux = State.clearAux ∨ aux = id) ∧ EndOf i s.accept r ∧
      t = concludeWith aux r := by
  cases exec_comes i s with
  | next r aux ha hr h' => rw [h] at h'; cases h'; exact ⟨r, aux, ha, hr, rfl⟩
  | fault u f _ _ _ h' => rw [h] at h'; cases h'

/-- A step of a BUSY engine ends as a stretch of CALWAIT 0 does. -/
theorem resumeWait_next {s t : State} (h : resumeWait s = .next t) :
    ∃ r : Progress Word, EndOf (.calwait 0) s.accept r ∧ t = concludeWith State.clearAux r := by
  cases h
  exact ⟨_, ⟨fun hR => Cmd.Keeps.next hR.toSensorRel (calWaitRest_keeps hR.toSensorRel 0) (.pure hR.toSensorRel 0) _,
    fun h => Cmd.CutsOnlyDue.next (calWaitRest_cutsOnlyDue 0) (.pure 0) _ _ h,
    fun h => Cmd.Raises.next (calWaitRest_raises 0) (.pure 0) _ _ _ h, fun _ => rfl⟩, rfl⟩

/-- How the piece of `i` that came to `u` is answered. -/
inductive Answer (i : Instr) (u : State) : State → Prop
  | reset : Answer i u u.assertReset
  | answered (aux : BitVec 4) (status : BitVec 16) (res : Word) (ha : aux = 0 ∨ aux = u.aux)
      (hs : status = 0 ∨ ∃ e ∈ errorsOf i, status = e.code) :
      Answer i u (State.respond { u with aux := aux } status res)
  | goesOn (h : i = .calwait 0) : Answer i u u

theorem EndOf.answer {i : Instr} {s : State} {r : Progress Word} (h : EndOf i s r) {aux : State → State}
    (ha : aux = State.clearAux ∨ aux = id) : Answer i r.state (concludeWith aux r) := by
  have haux (u : State) : ∃ n, aux u = { u with aux := n } ∧ (n = 0 ∨ n = u.aux) := by
    rcases ha with rfl | rfl
    · exact ⟨0, rfl, .inl rfl⟩
    · exact ⟨u.aux, rfl, .inr rfl⟩
  by_cases hd : r.state.resetDue = true
  · rw [concludeWith_of_due hd]; exact .reset
  · rw [concludeWith_of_not_due (by simpa using hd)]
    rcases r with ⟨a, u⟩ | ⟨e | _ | _, u⟩
    · obtain ⟨n, hn, hn'⟩ := haux u
      rw [deliver, hn]; exact .answered n 0 a hn' (.inl rfl)
    · obtain ⟨n, hn, hn'⟩ := haux u
      rw [deliver, hn, State.takeError]; exact .answered n _ _ hn' (.inr ⟨e, h.raised rfl, rfl⟩)
    · exact absurd (h.cut rfl) hd
    · exact .goesOn (h.suspended rfl)

/-- What one step does: nothing, a reset, a rejection, a command, or a stretch of the wait. -/
inductive Stepped (s : State) : State → Prop
  | waits : Stepped s s
  | reset : Stepped s s.assertReset
  | rejected (rest : List HostMove) : Stepped s { s with host := rest, response := some .reject }
  | ran (i : Instr) (host : List HostMove) (r : Progress Word) (aux : State → State)
      (ha : aux = State.clearAux ∨ aux = id) (hr : EndOf i (State.accept { s with host := host }) r) :
      Stepped s (concludeWith aux r)

theorem step_next {s t : State} (h : step s = .next t) : Stepped s t := by
  cases hseq : s.seq with
  | busy =>
    simp only [step, hseq] at h
    obtain ⟨r, hr, rfl⟩ := resumeWait_next h
    exact .ran _ s.host r _ (.inl rfl) hr
  | idle =>
    simp only [step, hseq] at h
    split at h
    · cases h; exact .waits
    · cases h; exact .reset
    · next p rest _ =>
      simp only [takePacket] at h
      split at h
      · obtain ⟨r, aux, ha, hr, rfl⟩ := exec_next h
        exact .ran _ rest r aux ha hr
      · cases h; rw [← hseq]; exact .rejected rest

end Sys2Proof.Machine
end

section
/-! The claims over all commands and over every step: each is a relation that everything a command does respects, given
to `exec_next` or `step_next`, and the few ways in which a command is answered. -/

namespace Sys2Proof.Machine

/-- An `EngineRel` for the part of the state that the engine's own registers do not reach: `R` reads the configuration,
the storage, the clock, the trace and the host's moves. -/
theorem EngineRel.ofSensor {R : State → State → Prop} {puts : Bool} (h : SensorRel R)
    (hcfg : ∀ {s t}, R s t → t.cfg = s.cfg)
    (hown : ∀ (s t : State), t.cfg = s.cfg → t.nvm = s.nvm → t.clock = s.clock → t.trace = s.trace → t.host = s.host →
      t.seq = s.seq → t.status = s.status → (s.aux ≤ 8 → t.aux ≤ 8) → R s t)
    (hget : ∀ (s : State) a, s.resetDue = false → Config.isSlot s.cfg a →
      R s (s.countEvent.record (.nvmGet a (s.nvm.readBytes a 4))))
    (hput : puts = true → ∀ (s : State) a bytes, s.resetDue = false → Config.isSlot s.cfg a → bytes.length = 4 →
      R s ({ s.countEvent with nvm := s.nvm.writeBytes a bytes }.record (.nvmPut a bytes))) : EngineRel R puts where
  toSensorRel := h
  cfg := hcfg
  zoff _ _ := hown _ _ rfl rfl rfl rfl rfl rfl rfl id
  sfac _ _ := hown _ _ rfl rfl rfl rfl rfl rfl rfl id
  calok _ _ := hown _ _ rfl rfl rfl rfl rfl rfl rfl id
  caldet _ _ := hown _ _ rfl rfl rfl rfl rfl rfl rfl id
  draws _ _ := hown _ _ rfl rfl rfl rfl rfl rfl rfl id
  stage _ _ hn := hown _ _ rfl rfl rfl rfl rfl rfl rfl fun _ => hn
  get s a ha := by
    unfold nvmGet perform
    split
    · exact h.refl s
    · next hd => exact hget s a (Bool.eq_false_iff.2 hd) ha
  put hp s a w ha := by
    unfold memWriteNvm nvmPut perform
    split
    · exact h.refl s
    · next hd => exact hput hp s a _ (Bool.eq_false_iff.2 hd) ha (bytesOf_length _ _)

/-! ### The invariant (spec/00 R10, spec/42 R152, spec/60 R200) -/

/-- What keeps the invariant, while no response is delivered. -/
def KeepsInv (s t : State) : Prop :=
  t.cfg = s.cfg ∧ t.status = s.status ∧ (s.nvm.wf = true → t.nvm.wf = true) ∧ (s.aux ≤ 8 → t.aux ≤ 8) ∧
  (ClockLawful s → ClockLawful t)

theorem KeepsInv.trans {s t u : State} (h : KeepsInv s t) (h' : KeepsInv t u) : KeepsInv s u := by
  obtain ⟨hc, hs, hm, ha, hk⟩ := h
  obtain ⟨hc', hs', hm', ha', hk'⟩ := h'
  exact ⟨hc'.trans hc, hs'.trans hs, hm' ∘ hm, ha' ∘ ha, hk' ∘ hk⟩

/-- An event that says nothing of the clock. -/
theorem ClockLawful.record {s t : State} (h : ClockLawful s) {e : Event} (ht : t.trace = s.trace ++ [e])
    (hc : t.clock = s.clock) (he : ∀ c, clockAfter c [e] = some c) : ClockLawful t := by
  obtain ⟨c, h1, h2⟩ := h
  exact ⟨c, by rw [ht, clockAfter_append, h1]; exact he c, by rw [hc]; exact h2⟩

theorem keepsInv_rel (puts : Bool) : EngineRel KeepsInv puts :=
  .ofSensor
    ((sensorFrame_rel.and (sameAux_rel.and clockLawful_rel)).mono
      (fun ⟨⟨hc, _, _, _, _, hs, _, _, hm, _⟩, ha, hk⟩ => ⟨hc, hs, by rw [hm]; exact id, by rw [ha]; exact id, hk⟩)
      KeepsInv.trans)
    (fun h => h.1)
    (fun s t hc hm hk ht _ _ hs ha => ⟨hc, hs, by rw [hm]; exact id, ha, by unfold ClockLawful; rw [hk, ht]; exact id⟩)
    (fun s a _ _ => ⟨rfl, rfl, id, id, fun h => h.record rfl rfl fun _ => rfl⟩)
    (fun _ s a bytes _ _ _ => ⟨rfl, rfl, fun h => Memory.wf_writeBytes h a bytes, id,
      fun h => h.record rfl rfl fun _ => rfl⟩)

/-- The answer to a command keeps the invariant. -/
theorem Answer.keepsInv {i : Instr} {u t : State} (h : Answer i u t) (hu : Inv u) : Inv t := by
  obtain ⟨hm, hs, ha, hk⟩ := hu
  cases h with
  | reset => exact ⟨hm, .inl rfl, (by decide : (0 : BitVec 4) ≤ 8), hk⟩
  | answered n st res hn hst =>
    refine ⟨hm, hst.imp id fun ⟨e, _, he⟩ => ⟨e, he⟩, ?_, hk⟩
    rcases hn with rfl | rfl
    · exact (by decide : (0 : BitVec 4) ≤ 8)
    · exact ha
  | goesOn _ => exact ⟨hm, hs, ha, hk⟩

/-- Settles O57: everything a command does keeps the storage canonical, `AUX` at most 8 and the clock lawful; only the
answer writes `STATUS`, and it writes 0 or an error code. -/
theorem stepKeepsTheInvariant : Obligations.StepKeepsTheInvariant := by
  unfold Obligations.StepKeepsTheInvariant
  intro s t hs ht
  cases step_next ht with
  | waits => exact hs
  | reset => exact (Answer.reset (i := .read)).keepsInv hs
  | rejected rest => exact hs
  | ran i host r aux ha hr =>
    obtain ⟨-, hst, hm, haux, hk⟩ := hr.keeps (keepsInv_rel _)
    obtain ⟨hm0, hst0, haux0, hk0⟩ := hs
    exact (hr.answer ha).keepsInv ⟨hm hm0, by unfold StatusLegal; rw [hst]; exact hst0, haux haux0, hk hk0⟩

/-- Settles O58: at reset nothing has been observed and every register is 0. -/
theorem resetHasTheInvariant : Obligations.ResetHasTheInvariant :=
  ⟨Memory.wf_reset, .inl rfl, by decide, 0, rfl, le_refl _⟩

/-! ### The host's reset (spec/70 R230) -/

/-- One event is counted off the host's reset. -/
theorem CountsOff.event {s t : State} (hd : s.resetDue = false) {e : Event} (ht : t.trace = s.trace ++ [e])
    (hh : t.host = countMove s.host) : CountsOff s t := by
  refine ⟨[e], ht, fun k rest h => ?_⟩
  cases k with
  | zero => simp [State.resetDue, h] at hd
  | succ k => exact ⟨by simp, by simp [hh, countMove, h]⟩

/-- Every event is counted off the host's reset, and the configuration stays. -/
theorem countsOff_engineRel (puts : Bool) : EngineRel (fun s t => t.cfg = s.cfg ∧ CountsOff s t) puts :=
  .ofSensor
    ((sensorFrame_rel.and countsOff_rel).mono (fun ⟨⟨hc, _⟩, h⟩ => ⟨hc, h⟩)
      fun ⟨hc, h⟩ ⟨hc', h'⟩ => ⟨hc'.trans hc, countsOff_trans h h'⟩)
    (fun h => h.1)
    (fun s t hc _ _ ht hh _ _ _ => ⟨hc, [], by simp [ht], fun k rest h => ⟨Nat.zero_le k, hh.trans h⟩⟩)
    (fun s a hd _ => ⟨rfl, .event hd rfl rfl⟩)
    (fun _ s a bytes hd _ _ => ⟨rfl, .event hd rfl rfl⟩)

/-- Where the events are counted off and no reset is due, fewer have happened than the host's reset waits for. -/
theorem CountsOff.lt_of_not_due {s u : State} (h : CountsOff s u) (hd : u.resetDue = false) {k : Nat}
    {rest : List HostMove} (hs : s.host = .reset k :: rest) : ∃ es, Observed s u es ∧ es.length < k := by
  obtain ⟨es, ht, hk⟩ := h
  obtain ⟨hle, hh⟩ := hk k rest hs
  refine ⟨es, ht, lt_of_le_of_ne hle fun he => ?_⟩
  rw [he, Nat.sub_self] at hh
  simp [State.resetDue, hh] at hd

theorem EndOf.cutAfter {i : Instr} {s : State} {r : Progress Word} (hr : EndOf i s.accept r) {aux : State → State}
    (ha : aux = State.clearAux ∨ aux = id) {k : Nat} {rest : List HostMove} (hs : s.host = .reset k :: rest) :
    CutAfter k rest s (concludeWith aux r) :=
  concludeWith_cutAfter (hr.keeps (countsOff_engineRel _)).2 (fun _ h => hr.cut h)
    (fun _ => by rcases ha with rfl | rfl <;> exact ⟨rfl, rfl⟩) hs

/-- Settles O2: every event is counted off the host's reset, so that a command is cut exactly where none is left. -/
theorem resetCutsACommand : Obligations.ResetCutsACommand := by
  unfold Obligations.ResetCutsACommand
  intro s k rest hs
  refine ⟨fun i t ht => ?_, fun i u hf => ?_, fun t hb ht => ?_⟩
  · obtain ⟨r, aux, ha, hr, rfl⟩ := exec_next ht
    exact hr.cutAfter ha hs
  · cases exec_comes i s with
    | next r aux ha hr h => rw [h] at hf; simp at hf
    | fault v f hfault hd hv h =>
      have hvu : v = u := by
        rw [h] at hf
        rcases hfault with ⟨_, _, _, rfl | rfl⟩ | ⟨_, _, _, _, rfl⟩ <;> simpa using hf
      exact hvu ▸ CountsOff.lt_of_not_due (s := s) (hv (countsOff_engineRel _)).2 hd hs
  · rw [step, hb] at ht
    obtain ⟨r, hr, rfl⟩ := resumeWait_next ht
    exact hr.cutAfter (.inl rfl) hs

/-! ### The response (spec/60 R203) -/

/-- `SEQ` stays BUSY until the command is answered (spec/10 R27). -/
theorem sameSeq_rel (puts : Bool) : EngineRel (fun s t => t.cfg = s.cfg ∧ t.seq = s.seq) puts :=
  .ofSensor
    (sensorFrame_rel.mono (fun ⟨hc, _, _, _, _, _, _, hq, _⟩ => ⟨hc, hq⟩)
      fun ⟨hc, h⟩ ⟨hc', h'⟩ => ⟨hc'.trans hc, h'.trans h⟩)
    (fun h => h.1) (fun _ _ hc _ _ _ _ hq _ _ => ⟨hc, hq⟩) (fun _ _ _ _ => ⟨rfl, rfl⟩) (fun _ _ _ _ _ _ _ => ⟨rfl, rfl⟩)

theorem EndOf.busy {i : Instr} {s : State} {r : Progress Word} (hr : EndOf i s.accept r) : r.state.seq = .busy :=
  (hr.keeps (sameSeq_rel _)).2

/-- Settles O51: a command that ends IDLE is reset, or answered with 0 or with an error it raises. -/
theorem eachCommandRaisesItsErrorsOnly : Obligations.EachCommandRaisesItsErrorsOnly := by
  unfold Obligations.EachCommandRaisesItsErrorsOnly
  intro i s t ht hidle
  obtain ⟨r, aux, ha, hr, rfl⟩ := exec_next ht
  have h := hr.answer ha
  generalize concludeWith aux r = t at h hidle
  cases h with
  | reset => exact .inl rfl
  | answered n st res hn hst => exact hst
  | goesOn h => rw [hr.busy] at hidle; cases hidle

/-- Settles O33: only CALWAIT 0 is suspended, every other answer is IDLE; the faults are those of the two places with no
result. -/
theorem onlyTheUntimedWaitStaysBusy : Obligations.OnlyTheUntimedWaitStaysBusy := by
  unfold Obligations.OnlyTheUntimedWaitStaysBusy
  refine ⟨fun i s hi => ?_, fun s => ⟨_, rfl⟩⟩
  cases exec_comes i s with
  | next r aux ha hr h =>
    refine .inl ⟨_, h, ?_⟩
    have h := hr.answer ha
    generalize concludeWith aux r = t at h
    cases h with
    | reset => rfl
    | answered n st res hn hst => rfl
    | goesOn h => exact absurd h hi
  | fault u f hf hd hu h =>
    rcases hf with ⟨count, neg, rfl, rfl | rfl⟩ | ⟨count, ref, persist, rfl, rfl⟩
    · exact .inr (.inl ⟨u, count, neg, rfl, .inl h⟩)
    · exact .inr (.inl ⟨u, count, neg, rfl, .inr h⟩)
    · exact .inr (.inr ⟨u, count, ref, persist, rfl, h⟩)

/-! ### The storage (spec/10 R24, spec/20 R50, R57; spec/00 R10 E3) -/

/-- A command that writes no storage leaves it whole. -/
theorem sameNvm_rel : EngineRel (fun s t => t.cfg = s.cfg ∧ t.nvm = s.nvm) false :=
  .ofSensor
    (sensorFrame_rel.mono (fun ⟨hc, _, _, _, _, _, _, _, hm, _⟩ => ⟨hc, hm⟩)
      fun ⟨hc, h⟩ ⟨hc', h'⟩ => ⟨hc'.trans hc, h'.trans h⟩)
    (fun h => h.1) (fun _ _ hc hm _ _ _ _ _ _ => ⟨hc, hm⟩) (fun _ _ _ _ => ⟨rfl, rfl⟩) (fun h => by cases h)

/-- The storage bytes outside the two slots are as before. -/
def SameOutsideSlots (s t : State) : Prop :=
  ∀ a, (a < s.cfg.slotFac ∨ s.cfg.slotFac + 4 ≤ a) → (a < s.cfg.slotOff ∨ s.cfg.slotOff + 4 ≤ a) →
    t.nvm.read a = s.nvm.read a

theorem sameOutsideSlots_rel (puts : Bool) : EngineRel (fun s t => t.cfg = s.cfg ∧ SameOutsideSlots s t) puts :=
  .ofSensor
    (sensorFrame_rel.mono (fun ⟨hc, _, _, _, _, _, _, _, hm, _⟩ => ⟨hc, fun a _ _ => by rw [hm]⟩)
      fun ⟨hc, h⟩ ⟨hc', h'⟩ => ⟨hc'.trans hc, fun a hf ho => (h' a (by rwa [hc]) (by rwa [hc])).trans (h a hf ho)⟩)
    (fun h => h.1)
    (fun _ _ hc hm _ _ _ _ _ _ => ⟨hc, fun a _ _ => by rw [hm]⟩)
    (fun _ _ _ _ => ⟨rfl, fun _ _ _ => rfl⟩)
    (fun _ s a bytes _ ha hb => ⟨rfl, fun b hf ho => Memory.read_writeBytes_outside s.nvm bytes (by
      rw [hb]; rcases ha with rfl | rfl <;> assumption)⟩)

/-- What is kept of the storage and the configuration while a command runs is kept by its answer. -/
theorem Answer.sameStore {i : Instr} {u t : State} (h : Answer i u t) :
    t.cfg = u.cfg ∧ t.nvm = u.nvm ∧ t.trace = u.trace := by
  cases h <;> exact ⟨rfl, rfl, rfl⟩

/-- Settles O53: a put goes to a slot, and only four commands put. -/
theorem storageFrame : Obligations.StorageFrame := by
  unfold Obligations.StorageFrame
  intro i s t ht
  obtain ⟨r, aux, ha, hr, rfl⟩ := exec_next ht
  obtain ⟨hcfg, hnvm, -⟩ := (hr.answer ha).sameStore
  obtain ⟨hc, hout⟩ := hr.keeps (sameOutsideSlots_rel _)
  refine ⟨hcfg.trans hc, fun hw a => ?_, fun a hf ho => ?_⟩
  · have hsame : EngineRel (fun s t => t.cfg = s.cfg ∧ t.nvm = s.nvm) (writesStorage i) := hw ▸ sameNvm_rel
    rw [hnvm, (hr.keeps hsame).2]; rfl
  · rw [hnvm]; exact hout a hf ho

theorem growsByShapes_engineRel (puts : Bool) : EngineRel GrowsByShapes puts :=
  .ofSensor growsByShapes_rel (fun h => h.1) (fun s t hc _ _ ht _ _ _ _ => ⟨hc, [], by simp [ht], by simp⟩)
    (fun s a _ ha => ⟨rfl, [.nvmGet a (s.nvm.readBytes a 4)], rfl, by
      simpa [eventShape, Memory.readBytes, Config.isSlot] using ha⟩)
    (fun _ s a bytes _ ha hb => ⟨rfl, [.nvmPut a bytes], rfl, by simpa [eventShape, hb, Config.isSlot] using ha⟩)

/-- Settles O54: every event a command adds has one of the engine's shapes, and no answer adds one. -/
theorem eventsHaveTheEnginesShapes : Obligations.EventsHaveTheEnginesShapes := by
  unfold Obligations.EventsHaveTheEnginesShapes
  intro s t ht
  cases step_next ht with
  | waits => exact ⟨[], by simp [Observed], by simp⟩
  | reset => exact ⟨[], by simp [Observed], by simp⟩
  | rejected rest => exact ⟨[], by simp [Observed], by simp⟩
  | ran i host r aux ha hr =>
    obtain ⟨-, es, hes, hshape⟩ := hr.keeps (growsByShapes_engineRel _)
    exact ⟨es, (hr.answer ha).sameStore.2.2.trans hes, hshape⟩

theorem storageAfter_append (es fs : List Event) :
    ∀ m, storageAfter m (es ++ fs) = (storageAfter m es).bind fun n => storageAfter n fs := by
  induction es with
  | nil => intro m; rfl
  | cons e es ih =>
    intro m
    cases e <;> simp only [List.cons_append, storageAfter, ih]
    split <;> simp

/-- The events from `s` to `t` make the storage of `t` out of that of `s` (R10 E3). -/
def MakesStorage (s t : State) : Prop := ∃ es, Observed s t es ∧ storageAfter s.nvm es = some t.nvm

theorem MakesStorage.trans {s t u : State} (h : MakesStorage s t) (h' : MakesStorage t u) : MakesStorage s u := by
  obtain ⟨es, ht, hm⟩ := h
  obtain ⟨fs, hu, hn⟩ := h'
  exact ⟨es ++ fs, by rw [Observed, hu, ht, List.append_assoc], by rw [storageAfter_append, hm]; exact hn⟩

/-- One event. -/
theorem MakesStorage.event {s t : State} (e : Event) (ht : t.trace = s.trace ++ [e])
    (hm : storageAfter s.nvm [e] = some t.nvm) : MakesStorage s t := ⟨[e], ht, hm⟩

theorem makesStorage_rel : SensorRel fun s t => t.cfg = s.cfg ∧ MakesStorage s t where
  refl s := ⟨rfl, [], by simp [Observed], rfl⟩
  trans := fun ⟨hc, h⟩ ⟨hc', h'⟩ => ⟨hc'.trans hc, h.trans h'⟩
  work s w := ⟨rfl, [], by simp [Observed], rfl⟩
  write bytes _ := perform_keeps (fun s => ⟨rfl, [], by simp [Observed], rfl⟩) fun s => ⟨rfl, .event _ rfl rfl⟩
  read n _ := perform_keeps (fun s => ⟨rfl, [], by simp [Observed], rfl⟩) fun s => ⟨rfl, .event _ rfl rfl⟩
  now := perform_keeps (fun s => ⟨rfl, [], by simp [Observed], rfl⟩) fun s => ⟨rfl, .event _ rfl rfl⟩
  idle := idleTick_keeps (fun s => ⟨rfl, [], by simp [Observed], rfl⟩) fun s => ⟨rfl, .event _ rfl rfl⟩

theorem makesStorage_engineRel (puts : Bool) : EngineRel (fun s t => t.cfg = s.cfg ∧ MakesStorage s t) puts :=
  .ofSensor makesStorage_rel (fun h => h.1)
    (fun s t hc hm _ ht _ _ _ _ => ⟨hc, [], by simp [Observed, ht], by rw [hm]; rfl⟩)
    (fun s a _ _ => ⟨rfl, .event _ rfl (if_pos rfl)⟩)
    (fun _ s a bytes _ _ _ => ⟨rfl, .event _ rfl rfl⟩)

/-- Settles O55: a get answers what the storage holds, a put is what changes it, and no answer touches it. -/
theorem storageAnswersTheLatestPut : Obligations.StorageAnswersTheLatestPut := by
  unfold Obligations.StorageAnswersTheLatestPut
  intro s t ht
  cases step_next ht with
  | waits => exact ⟨[], by simp [Observed], rfl⟩
  | reset => exact ⟨[], by simp [Observed], rfl⟩
  | rejected rest => exact ⟨[], by simp [Observed], rfl⟩
  | ran i host r aux ha hr =>
    obtain ⟨-, es, hes, hm⟩ := hr.keeps (makesStorage_engineRel _)
    obtain ⟨-, hnvm, htrace⟩ := (hr.answer ha).sameStore
    exact ⟨es, htrace.trans hes, by rw [hnvm]; exact hm⟩

end Sys2Proof.Machine
end

section
/-! Proofs about two runs of one command (spec/10 R23, R26; spec/60 R208): both are answered alike. -/

namespace Sys2Proof.Machine

/-- The same answer, after other earlier events. -/
def State.behind (t : State) (T : List Event) (es : List Event) : State := { t with trace := T ++ es }

/-- Two progresses that are alike are answered alike, unless they wait on. -/
theorem EndAlike.conclude {aux : Prop} {T T' : List Event} {waits : Prop} {q : Work → Work → Prop}
    {r r' : Progress Word} (h : EndAlike aux T T' waits q r r') (hbusy : r.state.seq = .busy) {f : State → State}
    (hf : f = State.clearAux ∨ f = id ∧ aux) (hidle : (concludeWith f r).seq = .idle) :
    ∃ es, (concludeWith f r).trace = T ++ es ∧ concludeWith f r' = (concludeWith f r).behind T' es := by
  have hdue {p : Work → Work → Prop} {s s' : State} (hs : Alike aux T T' p s s') : s'.resetDue = s.resetDue := by
    obtain ⟨_, _, _, _, _, _, _, _, _, rfl⟩ := hs; rfl
  have hreset {p : Work → Work → Prop} {s s' : State} (hs : Alike aux T T' p s s') :
      ∃ es, s.assertReset.trace = T ++ es ∧ s'.assertReset = s.assertReset.behind T' es := by
    obtain ⟨_, _, _, _, _, es, ht, _, _, rfl⟩ := hs; exact ⟨es, ht, rfl⟩
  have hrespond {p : Work → Work → Prop} {s s' : State} (hs : Alike aux T T' p s s') (st : BitVec 16) (res : Word) :
      ∃ es, ((f s).respond st res).trace = T ++ es ∧
        (f s').respond st res = ((f s).respond st res).behind T' es := by
    obtain ⟨_, _, n, _, _, es, ht, hn, _, rfl⟩ := hs
    rcases hf with rfl | ⟨rfl, ha⟩
    · exact ⟨es, ht, rfl⟩
    · rw [hn ha]; exact ⟨es, ht, rfl⟩
  by_cases hd : r.state.resetDue = true
  · rw [concludeWith_of_due hd] at hidle ⊢
    cases h with
    | done a hs => rw [concludeWith_of_due (r := .done _ _) ((hdue hs).trans hd)]; exact hreset hs
    | stop why hw hs => rw [concludeWith_of_due (r := .stop _ _) ((hdue hs).trans hd)]; exact hreset hs
  · have hd : r.state.resetDue = false := Bool.eq_false_iff.2 hd
    rw [concludeWith_of_not_due hd] at hidle ⊢
    cases h with
    | done a hs =>
      rw [concludeWith_of_not_due (r := .done _ _) ((hdue hs).trans hd)]
      exact hrespond hs 0 a
    | @stop s s' why hw hs =>
      rw [concludeWith_of_not_due (r := .stop _ _) ((hdue hs).trans hd)]
      cases why with
      | raised e =>
        have hdraws : (f s').draws = (f s).draws := by
          obtain ⟨_, _, n, _, _, es, ht, hn, _, rfl⟩ := hs
          rcases hf with rfl | ⟨rfl, ha⟩ <;> rfl
        simp only [deliver, State.takeError, hdraws]
        exact hrespond hs _ _
      | resetCut => exact hreset hs
      | suspended => cases hbusy.symm.trans hidle

/-- BEGIN writes `AUX` before anything else (spec/42 R152). -/
theorem beginSequence_withAux (init : Bool) (s : State) (n : BitVec 4) :
    beginSequence init { s with aux := n } = beginSequence init s := rfl

theorem Alike.withAux {aux : Prop} {T T' : List Event} {p : Work → Work → Prop} {s s' : State}
    (h : Alike aux T T' p s s') : Alike True T T' p s { s' with aux := s.aux } := by
  obtain ⟨st, res, n, w, resp, es, ht, -, hw, rfl⟩ := h
  exact ⟨st, res, s.aux, w, resp, es, ht, fun _ => rfl, hw, rfl⟩

/-- A command that ends IDLE is answered alike from two states that are alike. -/
theorem exec_alike {i : Instr} {s s' t : State} {T T' : List Event} (hcfg : s'.cfg = s.cfg)
    (hs : Alike False T T' NothingKnown s.accept s'.accept) (ht : exec i s = .next t) (hidle : t.seq = .idle) :
    ∃ es, t.trace = T ++ es ∧ exec i s' = .next (t.behind T' es) := by
  have answered {r r' : Progress Word} {q : Work → Work → Prop} {waits : Prop} (h : EndAlike False T T' waits q r r')
      (hr : r.state.seq = .busy) (hidle : (conclude r).seq = .idle) :
      ∃ es, (conclude r).trace = T ++ es ∧
        (.next (conclude r') : Host.Outcome State Fault Refusal) = .next ((conclude r).behind T' es) :=
    let ⟨es, hes, heq⟩ := h.conclude hr (.inl rfl) hidle
    ⟨es, hes, congrArg _ heq⟩
  cases exec_form i s.cfg with
  | plain c hc h =>
    rw [h s rfl] at ht
    rw [h s' hcfg]
    cases ht
    exact answered (hc.forgets _ _ _ _ _ hs) (hc.endOf fun hR => hR.refl _).busy hidle
  | stages init hi hc =>
    subst hi
    cases ht
    obtain ⟨es, hes, heq⟩ := (hc.forgets _ _ _ _ _ hs.withAux).conclude
      (hc.endOf (s := s.accept) fun hR => hR.refl _).busy (f := id) (.inr ⟨rfl, trivial⟩) hidle
    exact ⟨es, hes, congrArg Host.Outcome.next heq⟩
  | faulting c check k hc hk hcheck _ h =>
    have hkeeps {R} (hR : EngineRel R (writesStorage i)) : R s.accept (c s.accept).state := hc.keeps hR _
    have hrun := hc.forgets _ _ _ _ _ hs
    rw [h] at ht ⊢
    unfold runOrFault at ht ⊢
    generalize c s.accept = x at hrun hkeeps ht
    generalize c s'.accept = x' at hrun ⊢
    cases hrun with
    | stop why hw hu =>
      cases ht
      exact answered (q := NothingKnown) (.stop why hw hu) (hkeeps (sameSeq_rel _)).2 hidle
    | @done u u' a hu =>
      obtain ⟨hz, hf, -⟩ := hu.scale
      have hdue : u'.resetDue = u.resetDue := by obtain ⟨_, _, _, _, _, _, _, _, _, rfl⟩ := hu; rfl
      simp only [hdue] at ht ⊢
      by_cases hd : u.resetDue = true
      · simp only [if_pos hd] at ht ⊢
        cases ht
        obtain ⟨_, _, _, _, _, es, htr, _, _, rfl⟩ := hu
        exact ⟨es, htr, rfl⟩
      · simp only [if_neg hd] at ht ⊢
        cases hnone : check a u with
        | some f => rw [hnone] at ht; cases ht
        | none =>
          rw [hnone] at ht
          rw [hcheck hz hf hnone]
          cases ht
          exact answered ((hk a).forgets _ _ _ _ _ hu) ((hk a).endOf hkeeps).busy hidle

/-- Settles O56: the two runs are alike up to their answer, by what each piece of the command forgets. -/
theorem commandsForgetEarlierOnes : Obligations.CommandsForgetEarlierOnes := by
  unfold Obligations.CommandsForgetEarlierOnes
  intro i s t status res aux work response trace ht hidle
  have hs : Alike False s.trace trace NothingKnown s.accept (State.accept { s with
      status := status, res := res, aux := aux, work := work, response := response, trace := trace }) :=
    ⟨status, res, aux, work, response, [], by simp, False.elim, trivial, by simp [State.accept]⟩
  exact exec_alike (s := s) rfl hs ht hidle

end Sys2Proof.Machine
end

section
/-! Proofs about reset, sequencing and the commands on one register (spec/10 R27 to R32; spec/30 R80 to R87; spec/40;
spec/20 R52 to R58; spec/41 R122). -/

namespace Sys2Proof.Machine

/-! ### Reset, sequencing, the read port -/

theorem atReset_assertReset (s : State) : AtReset s.assertReset := ⟨rfl, rfl, rfl, rfl, rfl, rfl, rfl, rfl⟩

/-- Settles O1: reset writes exactly the registers it names. -/
theorem resetGivesTheResetState : Obligations.ResetGivesTheResetState := by
  unfold Obligations.ResetGivesTheResetState
  refine ⟨⟨rfl, rfl, rfl, rfl, rfl, rfl, rfl, rfl⟩,
    fun s => ⟨atReset_assertReset s, rfl, rfl, rfl, rfl⟩, fun s n rest hi hh => ?_⟩
  simp only [step, hi, hh]

/-- Settles O3: the three moves of the host that an IDLE engine answers. -/
theorem stepRunsTheDecodedCommand : Obligations.StepRunsTheDecodedCommand := by
  unfold Obligations.StepRunsTheDecodedCommand
  refine ⟨fun s p rest i hi hh hd => ?_, fun s p rest why hi hh hd => step_of_reserved hi hh hd, fun s hi hh => ?_⟩
  · unfold step
    rw [hh]
    split
    · next hb => rw [hi] at hb; cases hb
    · simp only [takePacket, hd]
  · unfold step
    rw [hh]
    split
    · next hb => rw [hi] at hb; cases hb
    · rfl

/-- Settles O6: the read port answers each item while IDLE. -/
theorem readPortShowsTheRegisters : Obligations.ReadPortShowsTheRegisters := by
  unfold Obligations.ReadPortShowsTheRegisters
  intro s hi
  simp [State.readPort, hi]

/-! ### Bits and fields of one byte -/

theorem bitMask_getLsbD (b : BitVec 3) {k : Nat} (hk : k < 8) : (bitMask b).getLsbD k = (k == b.toNat) := by
  simp only [bitMask, BitVec.getLsbD_shiftLeft, hk, decide_true, Bool.true_and, BitVec.getLsbD_one]
  rcases Nat.lt_trichotomy k b.toNat with h | h | h
  · simp [h, h.ne]
  · simp [h]
  · have : k - b.toNat ≠ 0 := by omega
    simp [this, h.ne']

theorem testBit_eq_getLsbD (tb : Byte) (b : BitVec 3) : testBit tb b = tb.getLsbD b.toNat := by
  rw [testBit, BitVec.and_one_eq_setWidth_ofBool_getLsbD, BitVec.getLsbD_ushiftRight, Nat.add_zero]
  cases tb.getLsbD b.toNat <;> rfl

/-- Settles O16: the mask of a bit has that bit alone set. -/
theorem bitMasksTouchOneBit : Obligations.BitMasksTouchOneBit := by
  unfold Obligations.BitMasksTouchOneBit
  intro tb b
  refine ⟨testBit_eq_getLsbD tb b, fun k hk => ⟨?_, ?_⟩⟩
  · rw [withBit, BitVec.getLsbD_or, bitMask_getLsbD b hk]
  · rw [withoutBit, BitVec.getLsbD_and, BitVec.getLsbD_not, bitMask_getLsbD b hk]
    simp [hk, bne]

theorem fmax_toNat (f : Field) : (fmax f).toNat = 2 ^ f.w - 1 := by
  have hw : 2 ^ f.w ≤ 2 ^ 8 := Nat.pow_le_pow_right (by norm_num) (by have := f.fits; omega)
  rw [fmax, BitVec.toNat_ofNat, Nat.mod_eq_of_lt (by omega)]

theorem clampField_toNat (f : Field) (v : Byte) : (clampField f v).toNat = min v.toNat (2 ^ f.w - 1) := by
  rw [clampField, ← fmax_toNat f]
  split
  · next h => exact (Nat.min_eq_left h).symm
  · next h => exact (Nat.min_eq_right (Nat.le_of_lt (Nat.lt_of_not_le h))).symm

/-- The mask of a field has the field's bits set. -/
theorem fmask_getLsbD (f : Field) {k : Nat} (hk : k < 8) :
    (fmask f).getLsbD k = decide (f.lsb ≤ k ∧ k < f.lsb + f.w) := by
  rw [fmask, BitVec.getLsbD_shiftLeft, BitVec.getLsbD, fmax_toNat, Nat.testBit_two_pow_sub_one]
  by_cases h : f.lsb ≤ k
  · have : k - f.lsb < f.w ↔ k < f.lsb + f.w := by omega
    simp [hk, h, this]
  · simp [h, Nat.lt_of_not_le h]

/-- Settles O17: inside the field the mask clears the byte read, outside it the saturated value has no bit. -/
theorem setterSaturatesAndKeepsOtherBits : Obligations.SetterSaturatesAndKeepsOtherBits := by
  unfold Obligations.SetterSaturatesAndKeepsOtherBits
  intro f tb v k hk
  rw [mergeField, BitVec.getLsbD_or, BitVec.getLsbD_and, BitVec.getLsbD_not, fmask_getLsbD f hk,
    BitVec.getLsbD_shiftLeft, BitVec.getLsbD, BitVec.getLsbD, clampField_toNat]
  by_cases hl : f.lsb ≤ k
  · by_cases hw : k < f.lsb + f.w
    · simp [hl, hw, hk]
    · have hlt : min v.toNat (2 ^ f.w - 1) < 2 ^ (k - f.lsb) := by
        have : 2 ^ f.w ≤ 2 ^ (k - f.lsb) := Nat.pow_le_pow_right (by norm_num) (by omega)
        have := Nat.two_pow_pos f.w
        omega
      simp [hl, hw, hk, Nat.testBit_lt_two_pow hlt]
  · simp [hl, hk, Nat.lt_of_not_le hl]

/-! ### Equivalent commands, codes, byte lists -/

/-- Settles O18: AVAIL and CALBEGIN call the same procedures; a pseudo-command is the packet of its command. -/
theorem equivalentCommands : Obligations.EquivalentCommands := by
  unfold Obligations.EquivalentCommands
  exact ⟨fun _ => rfl, fun _ => rfl, decodeOfEncode _ rfl, decodeOfEncode _ rfl⟩

/-- The four bytes of a word put together again. -/
theorem bytes_append (w : Word) :
    (w.extractLsb' 24 8 ++ w.extractLsb' 16 8 ++ w.extractLsb' 8 8 ++ w.extractLsb' 0 8 : Word) = w := by
  rw [BitVec.extractLsb'_append_extractLsb'_eq_extractLsb' (show 24 = 16 + 8 from rfl),
    BitVec.extractLsb'_append_extractLsb'_eq_extractLsb' (show 16 = 8 + 8 from rfl),
    BitVec.extractLsb'_append_extractLsb'_eq_extractLsb' (show 8 = 0 + 8 from rfl)]
  exact BitVec.extractLsb'_eq_self

theorem wordOf_bytesOf (o : ByteOrder) (w : Word) : wordOf o (bytesOf o w) = w := by
  cases o <;> exact bytes_append w

/-- Settles O19: the tables of errors, and the byte list of a word in both orders. -/
theorem codesAndByteLists : Obligations.CodesAndByteLists := by
  unfold Obligations.CodesAndByteLists
  exact ⟨rfl, rfl, rfl, rfl, rfl, by decide, fun w => ⟨rfl, rfl, wordOf_bytesOf _ w, wordOf_bytesOf _ w⟩⟩

/-! ### Commands that read one register (spec/40, spec/41 R121, R122) -/

theorem boolWord_eq_ite (b : Bool) : boolWord b = if b then 1 else 0 := by cases b <;> rfl

/-- A command that makes its result of one bit. -/
theorem getBit_completes {s : State} {b : Byte} (hq : s.quiet = true) (hf : Feeds s [.success] [[b]] []) (r : BitRef) :
    ∃ t, runCommand ((getBit r).bind fun v => .pure (boolWord v)) s = .next t ∧
      Succeeded t (if b.getLsbD r.bit.toNat then 1 else 0) 0 ∧ Observed s t (readRegEvents s.cfg r.reg [b]) ∧
      OnlySensor s t := by
  obtain ⟨ws, rs, ds, hw, hr, hd⟩ := hf.accept
  rw [← boolWord_eq_ite, ← testBit_eq_getLsbD]
  exact runCommand_completes hq ⟨_, (Cmd.bind_of_done (getBit_script (s := s.accept) hq r hw hr)).trans rfl⟩

/-- Settles O11: each of the three is one register read and a value made of its byte. -/
theorem registerReadsComplete : Obligations.RegisterReadsComplete := by
  unfold Obligations.RegisterReadsComplete
  intro s b hq hf
  obtain ⟨ws, rs, ds, hw, hr, hd⟩ := hf.accept
  exact ⟨fun ra =>
      runCommand_completes hq ⟨_, (Cmd.bind_of_done (readReg_script (s := s.accept) hq hw hr ra)).trans rfl⟩,
    fun ra bit => getBit_completes hq hf ⟨ra, bit⟩, getBit_completes hq hf s.cfg.dev.ready⟩

/-- Settles O21: READ is one read of three bytes and the unpacker. -/
theorem readCompletes : Obligations.ReadCompletes := by
  unfold Obligations.ReadCompletes
  intro s x y z hq hf
  obtain ⟨ws, rs, ds, hw, hr, hd⟩ := hf.accept
  rw [← unpack24_eq_signExtend]
  exact runCommand_completes hq ⟨_, reading_script (s := s.accept) hq hw hr⟩

/-! ### Commands that begin with a register read -/

/-- A read-modify-write: SetBit, ClearBit and SetField for the function they apply to the byte read. -/
def rmw (a : Byte) (f : Byte → Byte) : Cmd Unit :=
  (readReg a).bind fun b => (setTb b).next fun s => memWriteDev a (f s.work.tb) s

/-- The eight commands that are one read-modify-write (R102, R103, R140 to R145, R148). -/
theorem exec_oneRmw {i : Instr} {s : State} {a : Byte} {f : Byte → Byte} (h : oneRmw s.cfg i = some (a, f)) :
    exec i s = runCommand ((rmw a f).next (.pure 0)) s := by
  cases i <;> cases h <;> rfl

section Fails

variable {s : State} {a : Byte} {n : Nat} {f : ReadFailure} {e : Err} {ws : List BusStatus} {rs : List (List Byte)}
  (hq : s.quiet = true) (hw : s.writeAns = f.statuses ++ ws) (hr : s.readAns = f.reads ++ rs)

include hq hw hr

theorem memReadDev_raisesAt (hf : f.Raises n e) :
    (memReadDev a n).RaisesAt s e ws rs s.delays s.clock (f.events s.cfg a n) :=
  ⟨_, memReadDev_fails hq hw hr hf a⟩

variable (hf : f.Raises 1 e)

include hf

theorem readReg_raisesAt : (readReg a).RaisesAt s e ws rs s.delays s.clock (f.events s.cfg a 1) :=
  .bind (memReadDev_raisesAt hq hw hr hf)

theorem getBit_raisesAt (r : BitRef) : (getBit r).RaisesAt s e ws rs s.delays s.clock (f.events s.cfg r.reg 1) :=
  .bind (readReg_raisesAt hq hw hr hf)

theorem rmw_raisesAt (g : Byte → Byte) : (rmw a g).RaisesAt s e ws rs s.delays s.clock (f.events s.cfg a 1) :=
  .bind (readReg_raisesAt hq hw hr hf)

theorem setBit_raisesAt (r : BitRef) : (setBit r).RaisesAt s e ws rs s.delays s.clock (f.events s.cfg r.reg 1) :=
  rmw_raisesAt hq hw hr hf fun b => withBit b r.bit

/-- The polls of `PU_READY`, of which the first fails. -/
theorem powerPolls_raisesAt (ready : BitRef) (more : Nat) :
    (powerPolls ready more).RaisesAt s e ws rs s.delays s.clock (f.events s.cfg ready.reg 1) := by
  cases more <;> exact .bind (getBit_raisesAt hq hw hr hf ready)

/-- The power-up sequence begins with the first bit of `PU_SET`, or, where there is none, with the first poll (R147). -/
theorem powerUp_raisesAt :
    powerUp.RaisesAt s e ws rs s.delays s.clock (f.events s.cfg (s.cfg.dev.puSet.headD s.cfg.dev.puReady).reg 1) := by
  suffices h : ((setBits s.cfg.dev.puSet).next <| clearPolls.next <|
      powerPolls s.cfg.dev.puReady (s.cfg.puMaxPolls - 1)).RaisesAt s e ws rs s.delays s.clock
        (f.events s.cfg (s.cfg.dev.puSet.headD s.cfg.dev.puReady).reg 1) from h
  cases s.cfg.dev.puSet with
  | nil =>
    have hclear : clearPolls.RunsTo s () s.writeAns s.readAns s.delays s.clock [] :=
      .setWork (fun s => { s.work with pk := 0 }) rfl rfl rfl rfl
    have hpoll : (clearPolls.next (powerPolls s.cfg.dev.puReady (s.cfg.puMaxPolls - 1))).RaisesAt s e ws rs s.delays
        s.clock ([] ++ f.events s.cfg s.cfg.dev.puReady.reg 1) :=
      hclear.bind_raises fun w =>
        powerPolls_raisesAt (s := s.ran s.writeAns s.readAns s.delays s.clock [] w) hq hw hr hf s.cfg.dev.puReady _
    exact hpoll
  | cons r rest => exact .bind (.bind (setBit_raisesAt hq hw hr hf r))

end Fails

/-- A command that begins with a register read ends with the error of that read (R53). -/
theorem exec_firstRead_fails {i : Instr} {s : State} {a : Byte} {n : Nat} {f : ReadFailure} {e : Err}
    (hi : firstRead s.cfg i = some (a, n)) (hq : s.quiet = true) (hf : f.Raises n e)
    (hfeeds : Feeds s f.statuses f.reads []) :
    ∃ t, exec i s = .next t ∧ Failed t e 0 ∧ Observed s t (f.events s.cfg a n) ∧ OnlySensor s t := by
  obtain ⟨ws, rs, ds, hw, hr, hd⟩ := hfeeds.accept
  have hq' : s.accept.quiet = true := hq
  suffices h : ∃ c : Cmd Word, exec i s = runCommand c s ∧
      c.RaisesAt s.accept e ws rs s.accept.delays s.accept.clock (f.events s.cfg a n) by
    obtain ⟨c, hc, h⟩ := h
    rw [hc]
    exact runCommand_fails hq h
  cases hrmw : oneRmw s.cfg i with
  | some p =>
    obtain ⟨a', g⟩ := p
    obtain ⟨rfl, rfl⟩ : a' = a ∧ 1 = n := by cases i <;> cases hrmw <;> cases hi <;> exact ⟨rfl, rfl⟩
    exact ⟨_, exec_oneRmw hrmw, .bind (rmw_raisesAt hq' hw hr hf g)⟩
  | none =>
    cases i <;> cases hrmw <;> cases hi
    case none.getreg.refl.refl => exact ⟨_, rfl, .bind (readReg_raisesAt hq' hw hr hf)⟩
    case none.getbit.refl.refl => exact ⟨_, rfl, .bind (getBit_raisesAt hq' hw hr hf _)⟩
    case none.avail.refl.refl => exact ⟨_, rfl, .bind (c := available) (getBit_raisesAt hq' hw hr hf s.cfg.dev.ready)⟩
    case none.read.refl.refl => exact ⟨reading, rfl, .bind (memReadDev_raisesAt hq' hw hr hf)⟩
    case none.powerup.refl.refl => exact ⟨_, rfl, .bind (powerUp_raisesAt hq' hw hr hf)⟩
    case none.calstat.refl.refl =>
      exact ⟨_, rfl, .bind (c := calStatus) (.bind (getBit_raisesAt hq' hw hr hf s.cfg.dev.calActive))⟩
    case none.calsync.refl.refl =>
      exact ⟨_, rfl, .bind (c := calSync) (.bind (c := calBegin) (setBit_raisesAt hq' hw hr hf s.cfg.dev.calStart))⟩

/-- Settles O12: the two ways in which the first read fails. -/
theorem failedReadEndsTheCommand : Obligations.FailedReadEndsTheCommand := by
  unfold Obligations.FailedReadEndsTheCommand
  intro i s a n hi hq
  exact ⟨fun st e he hf => exec_firstRead_fails (f := .pointer st) hi hq he hf,
    fun bs hbs hf => exec_firstRead_fails (f := .short bs) hi hq ⟨hbs, rfl⟩ hf⟩

/-! ### Register writes (spec/20 R54) -/

section Writes

variable {s : State} {x y z : BusStatus} {ws : List BusStatus} {rs : List (List Byte)}

/-- A procedure that comes to the check of an outcome that is SUCCESS. -/
theorem Cmd.RunsTo.of_checkStatus {c : Cmd Unit} {st : BusStatus} {ds : List Nat} {clk : Nat} {es : List Event}
    {w : Work} (h : c s = checkStatus st (s.ran ws rs ds clk es w)) (hst : st = .success) :
    c.RunsTo s () ws rs ds clk es := ⟨w, by rw [h, hst]; rfl⟩

/-- A procedure that comes to the check of an outcome that is an error. -/
theorem Cmd.RaisesAt.of_checkStatus {c : Cmd Unit} {st : BusStatus} {e : Err} {ds : List Nat} {clk : Nat}
    {es : List Event} {w : Work} (h : c s = checkStatus st (s.ran ws rs ds clk es w)) (hst : comm st = some e) :
    c.RaisesAt s e ws rs ds clk es := ⟨w, by rw [h, checkStatus_error hst]⟩

/-- A command without a result that is done completes with 0. -/
theorem Cmd.RunsTo.zero {c : Cmd Unit} {ds : List Nat} {clk : Nat} {es : List Event}
    (h : c.RunsTo s () ws rs ds clk es) :
    (c.next (.pure (0 : Word))).RunsTo s 0 ws rs ds clk es := by
  obtain ⟨w, hw⟩ := h
  exact ⟨w, Cmd.next_of_done hw⟩

end Writes

/-- Settles O13: the last attempt used is SUCCESS. -/
theorem setregCompletes : Obligations.SetregCompletes := by
  unfold Obligations.SetregCompletes
  intro s ra val x y z hq hl hf
  obtain ⟨ws, rs, ds, hw, hr, hd⟩ := hf.accept
  exact runCommand_completes hq (Cmd.RunsTo.of_checkStatus (memWriteDev_script (s := s.accept) hq hw ra val) hl).zero

/-- Settles O14: the eight commands are one procedure, whose last attempt is SUCCESS. -/
theorem readModifyWritesComplete : Obligations.ReadModifyWritesComplete := by
  unfold Obligations.ReadModifyWritesComplete
  intro i s a f b x y z hi hq hl hf
  obtain ⟨ws, rs, ds, hw, hr, hd⟩ := hf.accept
  obtain ⟨w, h⟩ := rmw_attempts (s := s.accept) hq a f hw hr
  rw [exec_oneRmw hi]
  exact runCommand_completes hq (Cmd.RunsTo.of_checkStatus (c := rmw a f) h hl).zero

/-- Settles O15: SETREG, the eight commands and the calibration start end with the check of their last attempt. -/
theorem failedWriteEndsTheCommand : Obligations.FailedWriteEndsTheCommand := by
  unfold Obligations.FailedWriteEndsTheCommand
  refine ⟨fun s ra val x y z e hq he hf => ?_, fun i s a f b x y z e hi hq he hf => ?_,
    fun s b x y z e hq he hf => ?_⟩ <;>
    obtain ⟨ws, rs, ds, hw, hr, hd⟩ := hf.accept
  · exact runCommand_fails hq (Cmd.RaisesAt.of_checkStatus (memWriteDev_script (s := s.accept) hq hw ra val) he).bind
  · obtain ⟨w, h⟩ := rmw_attempts (s := s.accept) hq a f hw hr
    rw [exec_oneRmw hi]
    exact runCommand_fails hq (Cmd.RaisesAt.of_checkStatus (c := rmw a f) h he).bind
  · obtain ⟨w, h⟩ := rmw_attempts (s := s.accept) hq s.cfg.dev.calStart.reg
      (fun b => withBit b s.cfg.dev.calStart.bit) hw hr
    have hstart : calBegin s.accept = _ := h
    exact runCommand_fails hq (c := calSync.next (.pure 0))
      (Cmd.RaisesAt.bind (Cmd.RaisesAt.bind (Cmd.RaisesAt.of_checkStatus hstart he)))

end Sys2Proof.Machine
end

section
/-! Proofs about GETAVG, POWERUP and the calibration waits with the environment's answers given (spec/41 R123, R124;
spec/42 R147, R149 to R151). -/

namespace Sys2Proof.Machine

/-! ### GETAVG -/

/-- Settles O22: GETAVG is the averaging. -/
theorem getavgCompletesWithTheTruncatedMean : Obligations.GetavgCompletesWithTheTruncatedMean := by
  unfold Obligations.GetavgCompletesWithTheTruncatedMean
  intro s count r hq hr
  obtain ⟨ws, rs, ds, clk, h⟩ := average_of_answers hq hr
  exact runCommand_completes hq h

/-- Settles O23: the late pass of the averaging raises the error. -/
theorem getavgTimesOut : Obligations.GetavgTimesOut := by
  unfold Obligations.GetavgTimesOut
  intro s count r hq ⟨hfeeds, hfits, hlate, hlength, hintime, hpast⟩
  obtain ⟨ws, rs, ds, hw, hr, hd⟩ := hfeeds.accept
  exact runCommand_fails hq (average_timesOut (s := s.accept) hq hw hr hd hfits hlate hlength hintime hpast)

/-! ### CALSTAT -/

/-- Settles O29: one read of the active bit, and, where it is clear, one of the error bit. -/
theorem calstatCompletes : Obligations.CalstatCompletes := by
  unfold Obligations.CalstatCompletes
  intro s b e hq
  have hq' : s.accept.quiet = true := hq
  refine ⟨fun hb hf => ?_, fun hb hf => ?_, fun f err hb hf hfeeds => ?_⟩
  · obtain ⟨ws, rs, ds, hw, hr, hd⟩ := hf.accept
    exact runCommand_completes hq ⟨_, (Cmd.bind_of_done (calStatus_active hq' hw hr hb)).trans rfl⟩
  · obtain ⟨ws, rs, ds, hw, hr, hd⟩ := hf.accept
    have hcode (v : Bool) : calCode (bif v then .failure else .success) = if v then 2 else 0 := by cases v <;> rfl
    rw [← hcode]
    exact runCommand_completes hq ⟨_, (Cmd.bind_of_done (calStatus_finished hq' hw hr hb)).trans rfl⟩
  · obtain ⟨ws, rs, ds, hw, hr, hd⟩ := hfeeds.accept
    exact runCommand_fails hq (Cmd.RaisesAt.bind (calStatus_fails (r := ⟨0, [], some b, f⟩) hq' hw hr
      (fun _ h => Option.some_inj.1 h ▸ hb) hf))

/-! ### CALWAIT (R150) -/

/-- A wait that ends with success or failure, answered. -/
theorem runCommand_waited {c : Cmd Unit} {s : State} {failed : Bool} {ws : List BusStatus} {rs : List (List Byte)}
    {ds : List Nat} {clk : Nat} {es : List Event} (hq : s.quiet = true)
    (hdone : failed = false → c.RunsTo s.accept () ws rs ds clk es)
    (hfail : failed = true → c.RaisesAt s.accept .calFail ws rs ds clk es) :
    ∃ t, runCommand (c.next (.pure 0)) s = .next t ∧ (failed = false → Succeeded t 0 0) ∧
      (failed = true → Failed t .calFail 0) ∧ Observed s t es ∧ OnlySensor s t := by
  cases failed with
  | false =>
    obtain ⟨t, ht, hend, hobs, hframe⟩ := runCommand_completes hq (hdone rfl).zero
    exact ⟨t, ht, fun _ => hend, by simp, hobs, hframe⟩
  | true =>
    obtain ⟨t, ht, hend, hobs, hframe⟩ := runCommand_fails hq (c := c.next (.pure 0)) (hfail rfl).bind
    exact ⟨t, ht, by simp, fun _ => hend, hobs, hframe⟩

theorem step_of_busy {s : State} (h : s.seq = .busy) : step s = resumeWait s := by simp only [step, h]

section Resumed

variable {s : State} {ps : List CalPass} {ws : List BusStatus} {rs : List (List Byte)} (hq : s.quiet = true)
  (hf : ∀ p ∈ ps, testBit p.poll s.cfg.dev.calActive.bit = true)

include hq hf

/-- The wait without a timeout, from the head of its loop, that comes to an end. -/
theorem calWaitRest_ends {active error : Byte}
    (hw : s.writeAns = List.replicate ps.length .success ++ (.success :: .success :: ws))
    (hr : s.readAns = ps.map (fun p => [p.poll]) ++ ([active] :: [error] :: rs))
    (hb : testBit active s.cfg.dev.calActive.bit = false) :
    ∃ w, calWaitRest 0 s = calWaitEnd (bif testBit error s.cfg.dev.calError.bit then .failure else .success)
      (s.ran ws rs s.delays (calClockAfter s.cfg false s.clock ps) (calEvents s.cfg false s.clock ps ++
        readRegEvents s.cfg s.cfg.dev.calActive.reg [active] ++ readRegEvents s.cfg s.cfg.dev.calError.reg [error])
        w) := by
  obtain ⟨n, w, h, -⟩ := calWaitRest_passes (timeout := 0) hq hw (List.cons_ne_nil _ _) hr (ds := s.delays) rfl hf
    (by simp)
  refine ⟨{ w with tb := error }, h.trans ((Cmd.bind_of_done (calWaitLoop_finished (by exact hq)
    (State.ran_writeAns ..) (State.ran_readAns ..) hb 0 n)).trans ?_)⟩
  simp

/-- The wait without a timeout, from the head of its loop, that a status read ends. -/
theorem calWaitRest_readFails {r : CalFailure} {e : Err}
    (hw : s.writeAns = List.replicate ps.length .success ++
      (List.replicate r.active.toList.length .success ++ (r.failure.statuses ++ ws)))
    (hr : s.readAns = ps.map (fun p => [p.poll]) ++ (r.active.toList.map (fun b => [b]) ++ (r.failure.reads ++ rs)))
    (hb : ∀ b ∈ r.active, testBit b s.cfg.dev.calActive.bit = false) (he : r.failure.Raises 1 e) :
    (calWaitRest 0).RaisesAt s e ws rs s.delays (calClockAfter s.cfg false s.clock ps)
      (calEvents s.cfg false s.clock ps ++ r.lastEvents s.cfg) := by
  obtain ⟨n, w, h, -⟩ := calWaitRest_passes (timeout := 0) hq hw (by simp [ReadFailure.statuses_ne_nil]) hr
    (ds := s.delays) rfl hf (by simp)
  obtain ⟨w', h'⟩ := calWaitLoop_fails (by exact hq) (State.ran_writeAns ..) (State.ran_readAns ..) hb he 0 n
  exact ⟨w', h.trans ((Cmd.bind_of_stop h').trans (by simp))⟩

/-- The wait without a timeout, from the head of its loop, of which every pass shows the active bit. -/
theorem calWaitRest_suspends (hne : ps ≠ []) (hw : s.writeAns = List.replicate ps.length .success)
    (hr : s.readAns = ps.map (fun p => [p.poll]) ++ rs) :
    ∃ w, calWaitRest 0 s = .stop .suspended
      (s.ran [] rs s.delays (s.clock + ps.length * s.cfg.tIdle) (calEvents s.cfg false s.clock ps) w) := by
  have hpasses : calWaitPasses s 0 = ps.length + 0 := by
    have := List.length_pos_of_ne_nil hne
    simp only [calWaitPasses, if_true, hw, List.length_replicate]
    omega
  obtain ⟨w, h⟩ := calWaitLoop_untimed ps 0 hq (ws := []) (by simpa using hw) hr hf
  refine ⟨w, ?_⟩
  unfold calWaitRest
  rw [hpasses]
  exact Cmd.bind_of_stop (h.trans rfl)

end Resumed

/-- Settles O30: the wait from its first clock read, and the wait resumed at the head of its loop. -/
theorem calwaitEnds : Obligations.CalwaitEnds := by
  unfold Obligations.CalwaitEnds
  refine ⟨fun s timeout r hq hl hf => ?_, fun s timeout r e hq hl hf => ?_, fun s ps active error hb hq hp ha hf => ?_,
    fun s r e hb hq ⟨hp, ha, _, he⟩ hf => ?_⟩ <;> obtain ⟨ws, rs, ds, hw, hr, hd⟩ := hf.accept
  · exact runCommand_waited hq (calWait_completes (s := s.accept) hq hw hr hd hl)
      (calWait_fails (s := s.accept) hq hw hr hd hl)
  · exact runCommand_fails hq (c := (calWait timeout.toNat).next (.pure 0))
      (Cmd.RaisesAt.bind (calWait_readFails (s := s.accept) hq hw hr hd hl))
  · simp only [List.replicate_add, List.append_assoc] at hw hr
    obtain ⟨w, h⟩ := calWaitRest_ends (s := s.accept) hq hp hw hr ha
    rw [step_of_busy hb]
    exact runCommand_waited hq (fun hf => ⟨w, h.trans (by rw [State.accept_cfg, hf]; rfl)⟩)
      (fun hf => ⟨w, h.trans (by rw [State.accept_cfg, hf]; rfl)⟩)
  · simp only [CalFailure.statuses, CalFailure.reads, CalFailure.worked, List.length_append, List.length_map,
      List.replicate_add, List.append_assoc] at hw hr
    have h := calWaitRest_readFails (s := s.accept) hq hp hw hr ha he
    rw [step_of_busy hb]
    exact runCommand_fails hq (c := (calWaitRest 0).next (.pure 0)) h.bind

/-- Settles O31: the late pass of the wait raises the error. -/
theorem calwaitTimesOut : Obligations.CalwaitTimesOut := by
  unfold Obligations.CalwaitTimesOut
  intro s timeout r hq hto hl hf
  obtain ⟨ws, rs, ds, hw, hr, hd⟩ := hf.accept
  have hto' : timeout.toNat ≠ 0 := fun h => hto (BitVec.eq_of_toNat_eq h)
  exact runCommand_fails hq (c := (calWait timeout.toNat).next (.pure 0))
    (Cmd.RaisesAt.bind (calWait_timesOut (s := s.accept) hto' hq hw hr hd hl))

/-- Settles O32: with the environment's answers used up the loop ends the step, and nothing is answered. -/
theorem untimedWaitGoesOn : Obligations.UntimedWaitGoesOn := by
  unfold Obligations.UntimedWaitGoesOn
  intro s ps hq hne hp hw
  have goesOn {c : Cmd Unit} {rs : List (List Byte)} {ds : List Nat} {clk : Nat} {es : List Event} {w : Work}
      (h : c s.accept = .stop .suspended (s.accept.ran [] rs ds clk es w)) :
      ∃ t, runCommand (c.next (.pure 0)) s = .next t ∧ t.seq = .busy ∧ t.response = s.response ∧ Observed s t es ∧
        OnlySensor s t :=
    ⟨_, runCommand_of_suspended (Cmd.next_of_stop h) hq, by
      simp [Observed, OnlySensor, SameScale, SameStorage, SameSurround]⟩
  refine ⟨fun start hf => ?_, fun hb hf => ?_⟩ <;> obtain ⟨ws, rs, ds, -, hr, hd⟩ := hf.accept
  · have hstart : startClock s.accept = .done () (s.accept.ran s.writeAns s.accept.readAns ds (s.clock + start)
        [.now (s.clock + start)] { s.work with t0 := s.clock + start }) := by
      rw [startClock, Cmd.bind_of_done (now_script (s := s.accept) hq hd)]; rfl
    obtain ⟨w, h⟩ := calWaitRest_suspends (s := s.accept.ran s.writeAns s.accept.readAns ds (s.clock + start)
      [.now (s.clock + start)] { s.work with t0 := s.clock + start }) hq hp hne hw hr
    rw [State.ran_ran] at h
    exact goesOn (c := calWait 0) ((Cmd.next_of_done hstart).trans h)
  · obtain ⟨w, h⟩ := calWaitRest_suspends (s := s.accept) hq hp hne hw hr
    rw [step_of_busy hb]
    exact goesOn h

/-! ### CALSYNC (R151) -/

theorem ticksPerSecond_timed (c : Config) : (c.ticksPerSecond != 0) = true := by
  simp [Nat.ne_of_gt c.ticksPerSecond_pos]

/-- The events of the calibration start. -/
def startEvents (c : Config) (b : Byte) : List Event :=
  rmwEvents c c.dev.calStart.reg b (withBit b c.dev.calStart.bit)

section Sync

variable {s : State} {b : Byte} {ws : List BusStatus} {rs : List (List Byte)} {ds : List Nat} (hq : s.quiet = true)

include hq

theorem calBegin_runsTo (hw : s.writeAns = .success :: .success :: ws) (hr : s.readAns = [b] :: rs) :
    calBegin.RunsTo s () ws rs s.delays s.clock (startEvents s.cfg b) :=
  setBit_script hq s.cfg.dev.calStart hw hr

section Run

variable {r : CalRun} (hw : s.writeAns = .success :: .success :: (r.statuses ++ ws))
  (hr : s.readAns = [b] :: (r.reads ++ rs)) (hd : s.delays = r.delays true ++ ds)
  (hl : r.Lawful s.cfg s.cfg.ticksPerSecond s.clock)

include hw hr hd hl

theorem calSync_completes (hf : r.failed s.cfg = false) :
    calSync.RunsTo s () ws rs ds (calClockAfter s.cfg true (s.clock + r.start) r.passes)
      (startEvents s.cfg b ++ r.events s.cfg true s.clock) := by
  refine Cmd.RunsTo.next (d := calWait s.cfg.ticksPerSecond) (calBegin_runsTo hq hw hr) fun w => ?_
  rw [← ticksPerSecond_timed s.cfg]
  exact calWait_completes hq rfl rfl (by rw [ticksPerSecond_timed]; exact hd) hl hf

theorem calSync_fails (hf : r.failed s.cfg = true) :
    calSync.RaisesAt s .calFail ws rs ds (calClockAfter s.cfg true (s.clock + r.start) r.passes)
      (startEvents s.cfg b ++ r.events s.cfg true s.clock) := by
  refine (calBegin_runsTo hq hw hr).bind_raises (k := fun _ => calWait s.cfg.ticksPerSecond) fun w => ?_
  rw [← ticksPerSecond_timed s.cfg]
  exact calWait_fails hq rfl rfl (by rw [ticksPerSecond_timed]; exact hd) hl hf

end Run

theorem calSync_timesOut {r : CalTimeout} (hw : s.writeAns = .success :: .success :: (r.statuses ++ ws))
    (hr : s.readAns = [b] :: (r.reads ++ rs)) (hd : s.delays = r.delays ++ ds)
    (hl : r.Lawful s.cfg s.cfg.ticksPerSecond s.clock) :
    calSync.RaisesAt s .calTimeout ws rs ds (r.lateTime s.cfg s.clock)
      (startEvents s.cfg b ++ r.events s.cfg s.clock) :=
  (calBegin_runsTo hq hw hr).bind_raises (k := fun _ => calWait s.cfg.ticksPerSecond) fun w =>
    calWait_timesOut (s := s.ran (r.statuses ++ ws) (r.reads ++ rs) s.delays s.clock (startEvents s.cfg b) w)
      (Nat.ne_of_gt s.cfg.ticksPerSecond_pos) hq rfl rfl hd hl

theorem calSync_readFails {r : CalFailure} {e : Err} (hw : s.writeAns = .success :: .success :: (r.statuses ++ ws))
    (hr : s.readAns = [b] :: (r.reads ++ rs)) (hd : s.delays = r.delays true ++ ds)
    (hl : r.Lawful s.cfg s.cfg.ticksPerSecond s.clock e) :
    calSync.RaisesAt s e ws rs ds (calClockAfter s.cfg true (s.clock + r.start) r.passes)
      (startEvents s.cfg b ++ r.events s.cfg true s.clock) := by
  refine (calBegin_runsTo hq hw hr).bind_raises (k := fun _ => calWait s.cfg.ticksPerSecond) fun w => ?_
  rw [← ticksPerSecond_timed s.cfg]
  exact calWait_readFails hq rfl rfl (by rw [ticksPerSecond_timed]; exact hd) hl

end Sync

/-- Settles O34: after the read-modify-write CALSYNC is the wait. -/
theorem calsyncEnds : Obligations.CalsyncEnds := by
  unfold Obligations.CalsyncEnds
  intro s b started hq hstarted
  obtain rfl : started = startEvents s.cfg b := hstarted
  refine ⟨fun r hl hf => ?_, fun r hl hf => ?_, fun r e hl hf => ?_⟩ <;>
    obtain ⟨ws, rs, ds, hw, hr, hd⟩ := hf.accept
  · exact runCommand_waited hq (calSync_completes (s := s.accept) hq hw hr hd hl)
      (calSync_fails (s := s.accept) hq hw hr hd hl)
  · exact runCommand_fails hq (c := calSync.next (.pure 0)) (calSync_timesOut (s := s.accept) hq hw hr hd hl).bind
  · exact runCommand_fails hq (c := calSync.next (.pure 0)) (calSync_readFails (s := s.accept) hq hw hr hd hl).bind

end Sys2Proof.Machine
end

section
/-! Proofs about POWERUP with the environment's answers given (spec/42 R147). -/

namespace Sys2Proof.Machine

/-- Settles O27: POWERUP is the power-up sequence. -/
theorem powerupCompletes : Obligations.PowerupCompletes := by
  unfold Obligations.PowerupCompletes
  intro s r hq hl hf
  obtain ⟨ws, rs, ds, hw, hr, hd⟩ := hf.accept
  exact runCommand_completes hq (powerUp_script (s := s.accept) hq hw hr hl).zero

/-! ### The register access that fails -/

theorem setBits_append (xs ys : List BitRef) : setBits (xs ++ ys) = (setBits xs).next (setBits ys) := by
  induction xs with
  | nil => rfl
  | cons x xs ih =>
    rw [List.cons_append, setBits, ih]
    exact (Cmd.bind_bind _ _ _).symm

section Fails

variable {s : State} {olds polls : List Byte} {e : Err} {ws : List BusStatus} {rs : List (List Byte)} {ds : List Nat}
  {clk : Nat} {es : List Event} (hq : s.quiet = true)

include hq

/-- A bit of `PU_SET` whose read-modify-write fails, those before it set. -/
theorem powerUp_bitFails {before rest : List BitRef} {r : BitRef} {ws' : List BusStatus} {rs' : List (List Byte)}
    (hset : s.cfg.dev.puSet = before ++ r :: rest) (hlen : olds.length = before.length)
    (hw : s.writeAns = List.replicate (2 * olds.length) .success ++ ws) (hr : s.readAns = olds.map (fun b => [b]) ++ rs)
    (hfail : ∀ u : State, u.quiet = true → u.cfg = s.cfg → u.writeAns = ws → u.readAns = rs →
      ∃ clk, (setBit r).RaisesAt u e ws' rs' u.delays clk es) :
    ∃ clk, powerUp.RaisesAt s e ws' rs' s.delays clk (setBitsEvents s.cfg before olds ++ es) := by
  obtain ⟨w, hbefore⟩ := setBits_script before olds hq hlen hw hr
  obtain ⟨clk, w', hbit⟩ := hfail (s.ran ws rs s.delays s.clock (setBitsEvents s.cfg before olds) w) hq rfl rfl rfl
  refine ⟨clk, w', ?_⟩
  unfold powerUp
  rw [hset, setBits_append]
  refine (Cmd.next_of_stop ((Cmd.next_of_done hbefore).trans (Cmd.next_of_stop hbit))).trans ?_
  rw [State.ran_ran]; rfl

/-- The last poll allowed, when it reads 0. -/
theorem powerPolls_lastUnready {ready : BitRef} {b : Byte} (hw : s.writeAns = .success :: ws)
    (hr : s.readAns = [b] :: rs) (hb : testBit b ready.bit = false) :
    (powerPolls ready 0).RaisesAt s .powerup ws rs s.delays s.clock (readRegEvents s.cfg ready.reg [b]) := by
  refine ⟨{ s.work with tb := b, pk := s.work.pk + 1 }, (Cmd.bind_of_done (getBit_script hq ready hw hr)).trans ?_⟩
  rw [hb]
  rfl

/-- The sequence comes to the polls, of which those before the next read 0. -/
theorem powerUp_polls {more : Nat} (hlen : olds.length = s.cfg.dev.puSet.length)
    (hmore : s.cfg.puMaxPolls - 1 = polls.length + more)
    (hpolls : ∀ b ∈ polls, testBit b s.cfg.dev.puReady.bit = false)
    (hw : s.writeAns = List.replicate (2 * olds.length) .success ++ (List.replicate polls.length .success ++ ws))
    (hr : s.readAns = olds.map (fun b => [b]) ++ (polls.map (fun b => [b]) ++ rs)) :
    ∃ w, powerUp s = powerPolls s.cfg.dev.puReady more
      (s.ran ws rs s.delays (s.clock + polls.length * s.cfg.tIdle)
        (setBitsEvents s.cfg s.cfg.dev.puSet olds ++ unreadyPolls s.cfg polls) w) := by
  obtain ⟨w, hset⟩ := setBits_script s.cfg.dev.puSet olds hq hlen hw hr
  obtain ⟨w', hpoll⟩ := powerPolls_unready s.cfg.dev.puReady polls
    (s := s.ran (List.replicate polls.length .success ++ ws) (polls.map (fun b => [b]) ++ rs) s.delays s.clock
      (setBitsEvents s.cfg s.cfg.dev.puSet olds) { w with pk := 0 }) more hq rfl rfl rfl hpolls
  refine ⟨w', ?_⟩
  unfold powerUp
  rw [hmore]
  exact (Cmd.next_of_done hset).trans (hpoll.trans (by rw [State.ran_ran]; rfl))

/-- A poll that fails, those before it having read 0. -/
theorem powerUp_pollFails {f : ReadFailure} (hlen : olds.length = s.cfg.dev.puSet.length)
    (hmax : polls.length < s.cfg.puMaxPolls) (hpolls : ∀ b ∈ polls, testBit b s.cfg.dev.puReady.bit = false)
    (hf : f.Raises 1 e)
    (hw : s.writeAns = List.replicate (2 * olds.length) .success ++
      (List.replicate polls.length .success ++ (f.statuses ++ ws)))
    (hr : s.readAns = olds.map (fun b => [b]) ++ (polls.map (fun b => [b]) ++ (f.reads ++ rs))) :
    ∃ clk, powerUp.RaisesAt s e ws rs s.delays clk (setBitsEvents s.cfg s.cfg.dev.puSet olds ++
      unreadyPolls s.cfg polls ++ f.events s.cfg s.cfg.dev.puReady.reg 1) := by
  obtain ⟨w, h⟩ := powerUp_polls (more := s.cfg.puMaxPolls - 1 - polls.length) hq hlen (by omega) hpolls hw hr
  obtain ⟨w', h'⟩ := powerPolls_raisesAt (s := s.ran (f.statuses ++ ws) (f.reads ++ rs) s.delays
    (s.clock + polls.length * s.cfg.tIdle)
    (setBitsEvents s.cfg s.cfg.dev.puSet olds ++ unreadyPolls s.cfg polls) w) hq rfl rfl hf s.cfg.dev.puReady
    (s.cfg.puMaxPolls - 1 - polls.length)
  exact ⟨_, w', h.trans (h'.trans (by rw [State.ran_ran]; rfl))⟩

end Fails

/-- POWERUP, when the sequence raises an error. -/
theorem exec_powerup_fails {s : State} {e : Err} {ws : List BusStatus} {rs : List (List Byte)} {ds : List Nat}
    {es : List Event} (hq : s.quiet = true) (h : ∃ clk, powerUp.RaisesAt s.accept e ws rs ds clk es) :
    ∃ t, exec .powerup s = .next t ∧ Failed t e 0 ∧ OnlySensor s t ∧ Observed s t es := by
  obtain ⟨clk, h⟩ := h
  obtain ⟨t, ht, hend, hobs, hframe⟩ := runCommand_fails hq (c := powerUp.next (.pure 0)) h.bind
  exact ⟨t, ht, hend, hframe, hobs⟩

/-- Settles O28: the last poll allowed reads 0 as well. -/
theorem powerupGivesUp : Obligations.PowerupGivesUp := by
  unfold Obligations.PowerupGivesUp
  intro s olds polls last hq hlen hmax hpolls hlast hf
  obtain ⟨ws, rs, ds, hw, hr, hd⟩ := hf.accept
  simp only [List.replicate_add, List.append_assoc] at hw hr
  obtain ⟨w, h⟩ := powerUp_polls (s := s.accept) (more := 0) hq hlen (by rw [State.accept_cfg]; omega) hpolls hw hr
  obtain ⟨w', h'⟩ := powerPolls_lastUnready (s := s.accept.ran (.success :: ws) ([last] :: rs) s.delays
    (s.clock + polls.length * s.cfg.tIdle) (setBitsEvents s.cfg s.cfg.dev.puSet olds ++ unreadyPolls s.cfg polls) w)
    (ready := s.cfg.dev.puReady) hq rfl rfl hlast
  obtain ⟨t, ht, hend, hframe, hobs⟩ := exec_powerup_fails hq
    ⟨_, w', h.trans (h'.trans (by rw [State.ran_ran]))⟩
  exact ⟨t, ht, hend, hobs, hframe⟩

/-- Settles O59: the access that fails is one of those of a bit of `PU_SET` or of a poll; what comes before it works. -/
theorem powerupCommunicationErrors : Obligations.PowerupCommunicationErrors := by
  unfold Obligations.PowerupCommunicationErrors
  intro s olds hq
  refine ⟨fun before rest r hset hlen => ⟨fun st e he hf => ?_, fun hf => ?_, fun b x y z e he hf => ?_⟩,
    fun polls hlen hmax hpolls => ⟨fun st e he hf => ?_, fun hf => ?_⟩⟩ <;>
    obtain ⟨ws, rs, ds, hw, hr, hd⟩ := hf.accept <;>
    simp only [List.replicate_add, List.append_assoc] at hw hr
  · exact exec_powerup_fails hq (powerUp_bitFails (s := s.accept) hq hset hlen hw hr fun u hu hc huw hur =>
      ⟨_, hc ▸ setBit_raisesAt (f := .pointer st) hu huw hur he r⟩)
  · exact exec_powerup_fails hq (powerUp_bitFails (s := s.accept) hq hset hlen hw hr fun u hu hc huw hur =>
      ⟨_, hc ▸ setBit_raisesAt (f := .short []) hu huw hur ⟨Nat.zero_lt_one, rfl⟩ r⟩)
  · rw [List.append_assoc]
    refine exec_powerup_fails hq
      (powerUp_bitFails (s := s.accept) (ws' := ws) (rs' := rs) hq hset hlen hw hr fun u hu hc huw hur => ?_)
    obtain ⟨w, h⟩ := rmw_attempts hu r.reg (fun b => withBit b r.bit) huw hur
    rw [hc] at h
    exact ⟨_, .of_checkStatus (c := setBit r) h he⟩
  · exact exec_powerup_fails hq
      (powerUp_pollFails (s := s.accept) (f := .pointer st) hq hlen hmax hpolls he hw hr)
  · exact exec_powerup_fails hq
      (powerUp_pollFails (s := s.accept) (f := .short []) hq hlen hmax hpolls ⟨Nat.zero_lt_one, rfl⟩ hw hr)

end Sys2Proof.Machine
end

section
/-! Proofs about BEGIN (spec/42 R152): its stages in order, and the stage at which it fails. -/

namespace Sys2Proof.Machine

/-! ### Stages -/

/-- No reset comes next, and the environment's answers to come, the configuration and the clock are these. -/
structure State.Stands (s : State) (c : Config) (ws : List BusStatus) (rs : List (List Byte)) (ds : List Nat)
    (clk : Nat) : Prop where
  quiet : s.quiet = true
  cfg : s.cfg = c
  writeAns : s.writeAns = ws
  readAns : s.readAns = rs
  delays : s.delays = ds
  clock : s.clock = clk

/-- `c` ends with `a` at the stage `n`; besides `AUX` only what `Cmd.RunsTo` names has changed. -/
def Cmd.StageTo {α : Type} (c : Cmd α) (s : State) (a : α) (n : BitVec 4) (ws : List BusStatus) (rs : List (List Byte))
    (ds : List Nat) (clk : Nat) (events : List Event) : Prop :=
  ∃ w, c s = .done a (State.ran { s with aux := n } ws rs ds clk events w)

section Compose

variable {α β : Type} {s : State} {g : Config} {ws0 ws ws' : List BusStatus} {rs0 rs rs' : List (List Byte)}
  {ds0 ds ds' : List Nat} {clk0 clk clk' : Nat} {es es' : List Event} {n m : BitVec 4}

/-- A stage number is written, a piece runs, and the rest comes to its end. -/
theorem Cmd.StageTo.stage {c : Cmd Unit} {d : Cmd β} {b : β} (hs : s.Stands g ws0 rs0 ds0 clk0)
    (hc : ∀ t : State, t.Stands g ws0 rs0 ds0 clk0 → c.RunsTo t () ws rs ds clk es)
    (hd : ∀ t : State, t.Stands g ws rs ds clk → t.aux = n → d.StageTo t b m ws' rs' ds' clk' es') :
    ((setStage n).next (c.next d)).StageTo s b m ws' rs' ds' clk' (es ++ es') := by
  obtain ⟨hq, hg, hw, hr, hds, hclk⟩ := hs
  obtain ⟨w, h⟩ := hc { s with aux := n } ⟨hq, hg, hw, hr, hds, hclk⟩
  obtain ⟨w', h'⟩ := hd (State.ran { s with aux := n } ws rs ds clk es w) ⟨hq, hg, rfl, rfl, rfl, rfl⟩ rfl
  exact ⟨w', (Cmd.next_of_done h).trans (h'.trans (by simp [State.ran]))⟩

theorem Cmd.StageTo.pure (hs : s.Stands g ws rs ds clk) (hn : s.aux = n) (b : β) :
    (Cmd.pure b).StageTo s b n ws rs ds clk [] := by
  obtain ⟨-, -, rfl, rfl, rfl, rfl⟩ := hs
  subst hn
  exact ⟨s.work, by simp [State.ran]⟩

theorem Cmd.StageTo.next {c : Cmd Unit} {b : β} (hc : c.StageTo s () n ws rs ds clk es) :
    (c.next (.pure b)).StageTo s b n ws rs ds clk es := by
  obtain ⟨w, hw⟩ := hc
  exact ⟨w, Cmd.next_of_done hw⟩

theorem Cmd.StageTo.of_eq {c : Cmd α} {a : α} (h : c.StageTo s a n ws rs ds clk es) (hes : es = es') :
    c.StageTo s a n ws rs ds clk es' := hes ▸ h

end Compose

/-- BEGIN that comes to its end is answered with the stage number it has reached. -/
theorem exec_begin_completes {init : Bool} {s : State} {n : BitVec 4} {ws : List BusStatus} {rs : List (List Byte)}
    {ds : List Nat} {clk : Nat} {es : List Event} (hq : s.quiet = true)
    (h : (beginSequence init).StageTo s.accept 0 n ws rs ds clk es) :
    ∃ t, exec (.begin init) s = .next t ∧ Succeeded t 0 n ∧ Observed s t es ∧ OnlySensor s t := by
  obtain ⟨w, hw⟩ := h
  have hend {u : State} (hu : u.quiet = true) : concludeStage (.done 0 u) = u.respond 0 0 :=
    concludeWith_of_not_due (r := .done 0 u) (State.resetDue_of_quiet hu) id
  refine ⟨_, (congrArg (fun r => Host.Outcome.next (concludeStage r)) hw).trans
    (congrArg Host.Outcome.next (hend hq)), ?_⟩
  simp [Succeeded, Observed, OnlySensor, SameScale, SameStorage, SameSurround]

/-- BEGIN that raises an error is answered with it. -/
theorem exec_begin_of_raised {init : Bool} {s u : State} {e : Err}
    (h : beginSequence init s.accept = .stop (.raised e) u) (hq : u.quiet = true) :
    exec (.begin init) s = .next (u.takeError e) := by
  refine (congrArg (fun r => Host.Outcome.next (concludeStage r)) h).trans ?_
  rw [concludeStage, concludeWith_of_not_due (r := .stop _ _) (State.resetDue_of_quiet hq)]
  rfl

/-! ### The probe (R55) -/

/-- BEGIN 0 is the probe. -/
theorem beginSequence_of_probe {init : Bool} {s u : State} {why : Stop} (h : probe { s with aux := 0 } = .stop why u) :
    beginSequence init s = .stop why u := Cmd.next_of_stop (c := probe) h

/-- Settles O35: BEGIN 0 ends as the last transaction of the probe. -/
theorem beginProbesTheDevice : Obligations.BeginProbesTheDevice := by
  unfold Obligations.BeginProbesTheDevice
  intro s x y hq
  let u : State := { s.accept with aux := 0 }
  have completes {ws : List BusStatus} {es : List Event} {w : Work}
      (h : probe u = .done () (u.ran ws u.readAns u.delays u.clock es w)) :
      ∃ t, exec (.begin false) s = .next t ∧ Succeeded t 0 0 ∧ Observed s t es ∧ OnlySensor s t :=
    exec_begin_completes hq ⟨w, (Cmd.next_of_done (c := probe) h).trans rfl⟩
  refine ⟨fun hx hf => ?_, fun hx hf => ?_⟩ <;> obtain ⟨ws, rs, ds, hw, hr, hd⟩ := hf.accept
  · subst hx
    exact completes (probe_success (s := u) hq hw)
  · have h := probe_retries (s := u) hq hx hw
    unfold EndsAs
    cases hy : comm y with
    | none =>
      obtain rfl := comm_eq_none.1 hy
      exact completes h
    | some e =>
      rw [checkStatus_error hy] at h
      exact ⟨_, exec_begin_of_raised (beginSequence_of_probe h) hq, by
        simp [Failed, Observed, OnlySensor, SameScale, SameStorage, SameSurround, u]⟩

/-! ### The eight stages (R152) -/

/-- The sequence is the run of its stages. -/
theorem initSequence_eq (s : State) : initSequence s = runStages 1 (beginStages s.cfg) s := by
  have hlast : calSync.next (.pure ()) = calSync := by
    funext t
    unfold Cmd.next Cmd.bind
    cases calSync t <;> rfl
  change _ = ((setStage 1).next <| softReset.next <| (setStage 2).next <| powerUp.next <|
    (setStage 3).next <| (setField s.cfg.dev.ldo s.cfg.initLdo).next <|
    (setStage 4).next <| (setField s.cfg.dev.gain (fmax s.cfg.dev.gain)).next <|
    (setStage 5).next <| (setField s.cfg.dev.rate s.cfg.initRate).next <|
    (setStage 6).next <| (memWriteDev s.cfg.dev.chop s.cfg.chopVal).next <|
    (setStage 7).next <| (setBit s.cfg.dev.capEn).next <| (setStage 8).next <| calSync.next (.pure ())) s
  rw [hlast]
  rfl

/-- The soft reset (R146). -/
theorem softReset_runsTo {s : State} {a b : Byte} {ws : List BusStatus} {rs : List (List Byte)} (hq : s.quiet = true)
    (hw : s.writeAns = .success :: .success :: .success :: .success :: ws) (hr : s.readAns = [a] :: [b] :: rs) :
    softReset.RunsTo s () ws rs s.delays (s.clock + s.cfg.tIdle)
      (rmwEvents s.cfg s.cfg.dev.rst.reg a (withBit a s.cfg.dev.rst.bit) ++ ([.idle s.cfg.tIdle] ++
        rmwEvents s.cfg s.cfg.dev.rst.reg b (withoutBit b s.cfg.dev.rst.bit))) :=
  Cmd.RunsTo.next (c := setBit s.cfg.dev.rst) (setBit_script hq _ hw hr) fun _ =>
    Cmd.RunsTo.next (c := idleTick) ⟨_, idleTick_script (by exact hq)⟩ fun _ =>
      clearBit_script (by exact hq) _ rfl rfl

/-- The events of each stage of a BEGIN that succeeds. -/
def InitRun.stages (r : InitRun) (c : Config) (clk : Nat) : List (List Event) :=
  [rmwEvents c c.dev.rst.reg r.rst.1 (withBit r.rst.1 c.dev.rst.bit) ++ ([.idle c.tIdle] ++
      rmwEvents c c.dev.rst.reg r.rst.2 (withoutBit r.rst.2 c.dev.rst.bit)),
    r.power.events c,
    rmwEvents c c.dev.ldo.reg r.ldo (mergeField c.dev.ldo r.ldo (clampField c.dev.ldo c.initLdo)),
    rmwEvents c c.dev.gain.reg r.gain (mergeField c.dev.gain r.gain (clampField c.dev.gain (fmax c.dev.gain))),
    rmwEvents c c.dev.rate.reg r.rate (mergeField c.dev.rate r.rate (clampField c.dev.rate c.initRate)),
    [wroteReg c c.dev.chop c.chopVal .success],
    rmwEvents c c.dev.capEn.reg r.cap (withBit r.cap c.dev.capEn.bit),
    startEvents c r.calStart ++ r.cal.events c true (r.waitClock c clk)]

/-- `SetField` saturates its value, so that the largest one is written as it is (R140). -/
theorem clampField_fmax (f : Field) : clampField f (fmax f) = fmax f := by
  unfold clampField; split <;> rfl

theorem InitRun.events_eq_stages (r : InitRun) (c : Config) (clk : Nat) :
    r.events c clk = [.busWrite c.devAddr [] .success] ++ (r.stages c clk).flatten := by
  simp only [InitRun.events, InitRun.stages, startEvents, List.flatten_cons, List.flatten_nil, List.append_assoc,
    List.append_nil, clampField_fmax]

section Stands

variable {s : State} {g : Config} {ws : List BusStatus} {rs : List (List Byte)} {ds : List Nat} {clk : Nat}

theorem State.Stands.probe (h : s.Stands g (.success :: ws) rs ds clk) :
    Machine.probe.RunsTo s () ws rs ds clk [.busWrite g.devAddr [] .success] := by
  obtain ⟨hq, rfl, hw, rfl, rfl, rfl⟩ := h
  exact ⟨_, probe_success hq hw⟩

theorem State.Stands.softReset {a b : Byte}
    (h : s.Stands g (.success :: .success :: .success :: .success :: ws) ([a] :: [b] :: rs) ds clk) :
    Machine.softReset.RunsTo s () ws rs ds (clk + g.tIdle)
      (rmwEvents g g.dev.rst.reg a (withBit a g.dev.rst.bit) ++ ([.idle g.tIdle] ++
        rmwEvents g g.dev.rst.reg b (withoutBit b g.dev.rst.bit))) := by
  obtain ⟨hq, rfl, hw, hr, rfl, rfl⟩ := h
  exact softReset_runsTo hq hw hr

theorem State.Stands.powerUp {r : PowerRun} (hl : r.Lawful g)
    (h : s.Stands g (r.statuses ++ ws) (r.reads ++ rs) ds clk) :
    Machine.powerUp.RunsTo s () ws rs ds (clk + r.unready.length * g.tIdle) (r.events g) := by
  obtain ⟨hq, rfl, hw, hr, rfl, rfl⟩ := h
  exact powerUp_script hq hw hr hl

theorem State.Stands.setField {b : Byte} (h : s.Stands g (.success :: .success :: ws) ([b] :: rs) ds clk) (f : Field)
    (v : Byte) :
    (Machine.setField f v).RunsTo s () ws rs ds clk (rmwEvents g f.reg b (mergeField f b (clampField f v))) := by
  obtain ⟨hq, rfl, hw, hr, rfl, rfl⟩ := h
  exact setField_script hq f v hw hr

theorem State.Stands.memWriteDev (h : s.Stands g (.success :: ws) rs ds clk) (a v : Byte) :
    (Machine.memWriteDev a v).RunsTo s () ws rs ds clk [wroteReg g a v .success] := by
  obtain ⟨hq, rfl, hw, rfl, rfl, rfl⟩ := h
  exact ⟨_, memWriteDev_success hq hw a v⟩

theorem State.Stands.setBit {b : Byte} (h : s.Stands g (.success :: .success :: ws) ([b] :: rs) ds clk) (r : BitRef) :
    (Machine.setBit r).RunsTo s () ws rs ds clk (rmwEvents g r.reg b (withBit b r.bit)) := by
  obtain ⟨hq, rfl, hw, hr, rfl, rfl⟩ := h
  exact setBit_script hq r hw hr

theorem State.Stands.calSync {b : Byte} {r : CalRun} (hl : r.Lawful g g.ticksPerSecond clk) (hf : r.failed g = false)
    (h : s.Stands g (.success :: .success :: (r.statuses ++ ws)) ([b] :: (r.reads ++ rs)) (r.delays true ++ ds) clk) :
    Machine.calSync.RunsTo s () ws rs ds (calClockAfter g true (clk + r.start) r.passes)
      (startEvents g b ++ r.events g true clk) := by
  obtain ⟨hq, rfl, hw, hr, hd, rfl⟩ := h
  exact calSync_completes hq hw hr hd hl hf

/-- The stages with a sensor that does all it is asked. -/
theorem State.Stands.initSequence {r : InitRun} (hp : r.power.Lawful g)
    (hc : r.cal.Lawful g g.ticksPerSecond (r.waitClock g clk)) (hf : r.cal.failed g = false)
    (h : s.Stands g (List.replicate 4 .success ++ (r.power.statuses ++ (List.replicate 11 .success ++
        (r.cal.statuses ++ ws))))
      ([[r.rst.1], [r.rst.2]] ++ (r.power.reads ++ ([[r.ldo], [r.gain], [r.rate], [r.cap], [r.calStart]] ++
        (r.cal.reads ++ rs)))) (r.cal.delays true ++ ds) clk) :
    Machine.initSequence.StageTo s () 8 ws rs ds
      (calClockAfter g true (r.waitClock g clk + r.cal.start) r.cal.passes) (r.stages g clk).flatten := by
  suffices hrun : (runStages 1 (beginStages g)).StageTo s () 8 ws rs ds
      (calClockAfter g true (r.waitClock g clk + r.cal.start) r.cal.passes) (r.stages g clk).flatten by
    obtain ⟨w, hw⟩ := hrun
    exact ⟨w, (initSequence_eq s).trans (h.cfg ▸ hw)⟩
  unfold InitRun.stages
  simp only [List.flatten_cons, List.flatten_nil]
  refine .stage h (fun _ h => h.softReset) fun _ h _ => ?_
  refine .stage h (fun _ h => h.powerUp hp) fun _ h _ => ?_
  refine .stage h (fun _ h => h.setField _ _) fun _ h _ => ?_
  refine .stage h (fun _ h => h.setField _ _) fun _ h _ => ?_
  refine .stage h (fun _ h => h.setField _ _) fun _ h _ => ?_
  refine .stage h (fun _ h => h.memWriteDev _ _) fun _ h _ => ?_
  refine .stage h (fun _ h => h.setBit _) fun _ h _ => ?_
  exact .stage h (fun _ h => h.calSync hc hf) fun _ h h8 => .pure h h8 ()

end Stands

/-- Settles O36: the probe and the eight stages, one after the other. -/
theorem beginInitialisesTheSensor : Obligations.BeginInitialisesTheSensor := by
  unfold Obligations.BeginInitialisesTheSensor
  intro s r hq hp hc hf hfeeds
  obtain ⟨ws, rs, ds, hw, hr, hd⟩ := hfeeds.accept
  simp only [InitRun.statuses, InitRun.reads, List.append_assoc] at hw hr
  rw [r.events_eq_stages]
  have hs : s.accept.Stands s.cfg (.success :: (List.replicate 4 .success ++ (r.power.statuses ++
      (List.replicate 11 .success ++ (r.cal.statuses ++ ws))))) _ _ s.clock := ⟨hq, rfl, hw, hr, hd, rfl⟩
  exact exec_begin_completes hq (.stage hs (fun _ h => h.probe) fun _ h _ => (h.initSequence hp hc hf).next)

/-! ### The stage that fails -/

theorem runStages_append (xs ys : List (Cmd Unit)) :
    ∀ n, runStages n (xs ++ ys) = (runStages n xs).next (runStages (n + xs.length) ys) := by
  induction xs with
  | nil => intro n; rfl
  | cons x xs ih =>
    intro n
    rw [List.cons_append, runStages, ih, List.length_cons, Nat.add_comm xs.length, ← Nat.add_assoc]
    simp only [runStages, Cmd.next, Cmd.bind_bind]

/-- No stage writes `AUX`. -/
theorem sameAux_of_mem_beginStages {g : Config} {c : Cmd Unit} (hc : c ∈ beginStages g) :
    c.Keeps fun s t => t.aux = s.aux := by
  simp only [beginStages, List.mem_cons, List.not_mem_nil, or_false] at hc
  have h := sameAux_rel
  obtain rfl | rfl | rfl | rfl | rfl | rfl | rfl | rfl := hc
  · exact softReset_keeps h
  · exact powerUp_keeps h
  · exact setField_keeps h _ _
  · exact setField_keeps h _ _
  · exact setField_keeps h _ _
  · exact memWriteDev_keeps h _ _
  · exact setBit_keeps h _
  · exact calSync_keeps h

/-- BEGIN ends with what its sequence raises: no reset comes next, and `AUX` is what the sequence left. -/
theorem exec_begin_fails {init : Bool} {s u : State} {e : Err} {n : BitVec 4} (hq : s.quiet = true)
    (h : beginSequence init s.accept = .stop (.raised e) u) (hn : u.aux = n) :
    ∃ t, exec (.begin init) s = .next t ∧ Failed t e n ∧ t.trace = u.trace := by
  have hhost : u.host = s.host := by
    have := beginSequence_keeps sameHost_rel (fun _ _ _ => rfl) init s.accept hq
    rwa [h] at this
  exact ⟨_, exec_begin_of_raised h (State.quiet_of_host_eq hq hhost), ⟨rfl, hn, rfl, rfl⟩, rfl⟩

/-- Settles O37: the first stage that raises an error ends BEGIN, and no stage but the number written before it touches
`AUX`. -/
theorem beginNamesTheFailedStage : Obligations.BeginNamesTheFailedStage := by
  unfold Obligations.BeginNamesTheFailedStage
  refine ⟨fun s u e init hq h => ?_, fun s v w u e n done rest c hq hprobe hstages hn hdone hc => ?_⟩
  · refine exec_begin_fails hq (beginSequence_of_probe h) ?_
    have haux := probe_keeps sameAux_rel { s.accept with aux := 0 }
    rwa [h] at haux
  · have hcfg : v.cfg = s.cfg := by
      have := (probe_keeps sensorFrame_rel { s.accept with aux := 0 }).1
      rwa [hprobe] at this
    have hseq : initSequence v = .stop (.raised e) u := by
      rw [initSequence_eq, hcfg, hstages, runStages_append, Cmd.next_of_done hdone, Nat.add_comm, hn]
      exact Cmd.next_of_stop (c := c) hc
    have hbegin : beginSequence true s.accept = .stop (.raised e) u :=
      (Cmd.next_of_done (c := probe) hprobe).trans (Cmd.next_of_stop (c := initSequence) hseq)
    refine exec_begin_fails hq hbegin ?_
    have haux := sameAux_of_mem_beginStages (g := s.cfg) (c := c) (by rw [hstages]; simp)
      { w with aux := BitVec.ofNat 4 n }
    rwa [hc] at haux

end Sys2Proof.Machine
end

section
/-! Proofs about binary32 arithmetic (spec/43 R170, R179; spec/00 R12): rounding is monotone and exact where it can be,
and division and conversion round to nearest. -/

namespace Sys2Proof.F32

/-! ### Patterns are in the order of their magnitudes -/

theorem patternMagnitude_of_subnormal {p : Nat} (h : p ≤ 2 ^ 24) : patternMagnitude p = p := by
  have := patternMagnitude_mk (e := 0) h (.inl rfl)
  simpa using this

theorem patternMagnitude_strictMono : StrictMono patternMagnitude := by
  refine strictMono_nat_of_lt_succ fun p => ?_
  rcases Nat.lt_or_ge p (2 ^ 23) with h | h
  · rw [patternMagnitude_of_subnormal (p := p) (by omega), patternMagnitude_of_subnormal (p := p + 1) (by omega)]
    exact Nat.lt_succ_self p
  · obtain ⟨e, q, hp, hlo, hhi⟩ : ∃ e q, p = e * 2 ^ 23 + q ∧ 2 ^ 23 ≤ q ∧ q < 2 ^ 24 :=
      ⟨p / 2 ^ 23 - 1, 2 ^ 23 + p % 2 ^ 23, by omega, by omega, by omega⟩
    rw [hp, Nat.add_assoc, patternMagnitude_mk (by omega) (.inr hlo), patternMagnitude_mk (by omega) (.inr (by omega))]
    exact Nat.mul_lt_mul_of_pos_right (Nat.lt_succ_self q) (by positivity)

theorem magnitude_pos {w : F32} (h : isZero w = false) : 0 < magnitude w := by
  have h0 : patternMagnitude 0 = 0 := patternMagnitude_of_subnormal (Nat.zero_le _)
  have hp : 0 < absPattern w := Nat.pos_of_ne_zero (by simpa [isZero] using h)
  rw [magnitude_eq, ← h0]
  exact patternMagnitude_strictMono hp

theorem sign_eq (w : F32) : sign w = decide (2 ^ 31 ≤ w.toNat) := by
  have hw := w.isLt
  rw [sign, BitVec.getLsbD, Nat.testBit_eq_decide_div_mod_eq, decide_eq_decide]
  omega

theorem absPattern_eq (w : F32) : absPattern w = w.toNat % 2 ^ 31 := by
  simp [absPattern, BitVec.extractLsb'_toNat]

/-! ### Rounding is monotone -/

/-- Of two numbers in order, the nearest multiples, even ones at a tie, are in order. -/
theorem nearest_mono {n m S q r : Nat} (hS : 0 < S) (hnm : n ≤ m)
    (hq : 2 * (((q * S : Nat) : Int) - n).natAbs ≤ S) (hqe : 2 * (((q * S : Nat) : Int) - n).natAbs = S → q % 2 = 0)
    (hr : 2 * (((r * S : Nat) : Int) - m).natAbs ≤ S) (hre : 2 * (((r * S : Nat) : Int) - m).natAbs = S → r % 2 = 0) :
    q ≤ r := by
  by_contra hlt
  have hstep : (r + 1) * S ≤ q * S := Nat.mul_le_mul_right _ (by omega)
  rw [Nat.succ_mul] at hstep
  have heq : q * S = (r + 1) * S := by rw [Nat.succ_mul]; omega
  have hqr : q = r + 1 := Nat.eq_of_mul_eq_mul_right hS heq
  rw [Nat.succ_mul] at heq
  have h1 := hqe (by omega)
  have h2 := hre (by omega)
  omega

theorem roundPattern_mono {n m d : Nat} (hd : 0 < d) (h : n ≤ m) : roundPattern n d ≤ roundPattern m d := by
  obtain ⟨e, q, hp, hq, hlo, hhi, hq', h1, h2⟩ := roundPattern_parts n hd
  obtain ⟨f, r, hp', hr, hlo', hhi', hr', h1', h2'⟩ := roundPattern_parts m hd
  rw [hp, hp']
  refine min_le_min_right _ ?_
  rcases Nat.lt_trichotomy e f with hef | rfl | hef
  · have hr23 : 2 ^ 23 ≤ r := hr'.resolve_left (by omega)
    have : (e + 1) * 2 ^ 23 ≤ f * 2 ^ 23 := Nat.mul_le_mul_right _ hef
    omega
  · exact Nat.add_le_add_left (nearest_mono (by positivity) h h1 h2 h1' h2') _
  · have hlo := hlo.resolve_left (by omega)
    have hpow : d * 2 ^ (f + 1) ≤ d * 2 ^ e := Nat.mul_le_mul_left _ (Nat.pow_le_pow_right (by norm_num) hef)
    rw [Nat.pow_succ, ← Nat.mul_assoc] at hpow
    omega

/-! ### Integers -/

/-- A multiple within half a unit is the number itself. -/
theorem eq_of_nearest_multiple {q c S : Nat} (h : 2 * (((q * S : Nat) : Int) - (c * S : Nat)).natAbs ≤ S) (hS : 0 < S) :
    q = c := by
  by_contra hne
  rcases Nat.lt_or_gt_of_ne hne with hlt | hlt
  · have : (q + 1) * S ≤ c * S := Nat.mul_le_mul_right _ hlt
    rw [Nat.succ_mul] at this
    omega
  · have : (c + 1) * S ≤ q * S := Nat.mul_le_mul_right _ hlt
    rw [Nat.succ_mul] at this
    omega

/-- A whole number of units that has at most 24 significant bits is rounded to itself. -/
theorem patternMagnitude_roundPattern {k j : Nat} (hk : k ≤ 2 ^ 24) (hj : j ≤ 200) :
    patternMagnitude (roundPattern (k * 2 ^ j) 1) = k * 2 ^ j := by
  obtain ⟨e, q, hp, hq, hlo, hhi, hq', h1, -⟩ := roundPattern_parts (k * 2 ^ j) Nat.one_pos
  rw [Nat.one_mul] at hlo h1
  have hn : k * 2 ^ j ≤ 2 ^ 23 * 2 ^ (j + 1) :=
    calc k * 2 ^ j ≤ 2 ^ 24 * 2 ^ j := Nat.mul_le_mul_right _ hk
      _ = 2 ^ 23 * 2 ^ (j + 1) := by rw [Nat.pow_succ 2 j]; ring
  obtain ⟨c, hc⟩ : ∃ c, k * 2 ^ j = c * 2 ^ e := by
    rcases Nat.lt_or_ge j e with hje | hje
    · have hlo := hlo.resolve_left (by omega)
      have hpow : 2 ^ 23 * 2 ^ (j + 1) ≤ 2 ^ 23 * 2 ^ e :=
        Nat.mul_le_mul_left _ (Nat.pow_le_pow_right (by norm_num) hje)
      exact ⟨2 ^ 23, by omega⟩
    · exact ⟨k * 2 ^ (j - e), by rw [Nat.mul_assoc, ← Nat.pow_add, Nat.sub_add_cancel hje]⟩
  rw [hc] at h1
  obtain rfl := eq_of_nearest_multiple h1 (by positivity)
  have hfin : roundPattern (k * 2 ^ j) 1 ≠ infPattern := fun h => by
    have h' := (roundPattern_eq_inf _ Nat.one_pos).1 h
    have hpow : 2 ^ 23 * 2 ^ (j + 1) ≤ 2 ^ 23 * 2 ^ 201 :=
      Nat.mul_le_mul_left _ (Nat.pow_le_pow_right (by norm_num) (by omega))
    omega
  rw [hp] at hfin ⊢
  rw [Nat.min_eq_left (by omega), patternMagnitude_mk hq hq', hc]

theorem roundPattern_lt_two_pow (n d : Nat) : roundPattern n d < 2 ^ 31 :=
  (roundPattern_le n d).trans_lt (by decide)

/-- The magnitude of an integer of the `s32` range, in units, is far below the largest finite value. -/
theorem natAbs_units_lt {n : Int} (h : -2147483648 ≤ n) (h' : n ≤ 2147483647) :
    n.natAbs * 2 ^ 149 < (2 ^ 25 - 1) * 2 ^ 252 * 1 := by omega

theorem sign_ofInt (n : Int) : sign (ofInt n) = decide (n < 0) := sign_withSign _ (roundPattern_lt_two_pow _ _)

theorem absPattern_ofInt (n : Int) : absPattern (ofInt n) = roundPattern (n.natAbs * 2 ^ 149) 1 :=
  absPattern_withSign _ (roundPattern_lt_two_pow _ _)

theorem absPattern_ofInt_lt {n : Int} (h : -2147483648 ≤ n) (h' : n ≤ 2147483647) :
    absPattern (ofInt n) < infPattern := by
  rw [absPattern_ofInt]
  refine lt_of_le_of_ne (roundPattern_le _ _) fun he => ?_
  have := (roundPattern_eq_inf _ Nat.one_pos).1 he
  have := natAbs_units_lt h h'
  omega

theorem ofInt_exact {n : Int} (h : -16777216 ≤ n) (h' : n ≤ 16777216) : (ofInt n).exact = n * 2 ^ 149 := by
  rw [exact, sign_ofInt, magnitude_eq, absPattern_ofInt, patternMagnitude_roundPattern (by omega) (by norm_num)]
  rcases lt_or_ge n 0 with hn | hn
  · rw [decide_eq_true hn, if_pos rfl]
    push_cast
    rw [abs_of_neg hn]
    ring
  · rw [decide_eq_false (Int.not_lt.2 hn), if_neg (by decide)]
    push_cast
    rw [abs_of_nonneg hn]

/-- Only the integer 0 is converted to a zero. -/
theorem isZero_ofInt (n : Int) : isZero (ofInt n) = decide (n = 0) := by
  by_cases hn : n = 0
  · subst hn; rw [ofInt_zero]; decide
  · have hone : patternMagnitude (roundPattern (1 * 2 ^ 149) 1) = 1 * 2 ^ 149 :=
      patternMagnitude_roundPattern (by norm_num) (by norm_num)
    have hle : roundPattern (1 * 2 ^ 149) 1 ≤ roundPattern (n.natAbs * 2 ^ 149) 1 :=
      roundPattern_mono Nat.one_pos (Nat.mul_le_mul_right _ (by omega))
    have hpos : roundPattern (1 * 2 ^ 149) 1 ≠ 0 := fun h0 => by
      rw [h0, patternMagnitude_of_subnormal (Nat.zero_le _)] at hone
      norm_num at hone
    rw [isZero, absPattern_ofInt, decide_eq_false hn]
    exact beq_eq_false_iff_ne.2 (Nat.ne_of_gt ((Nat.pos_of_ne_zero hpos).trans_le hle))

/-! ### Division -/

theorem isNan_of_finite {w : F32} (h : absPattern w < infPattern) : isNan w = false := by simp [isNan, h.le]

theorem isInf_of_finite {w : F32} (h : absPattern w < infPattern) : isInf w = false := by simp [isInf, h.ne]

theorem div_of_finite {a b : F32} (ha : absPattern a < infPattern) (hb : absPattern b < infPattern)
    (h0 : isZero b = false) :
    div a b = some (withSign (sign a != sign b) (roundPattern (magnitude a * 2 ^ 149) (magnitude b))) := by
  simp [div, isNan_of_finite ha, isNan_of_finite hb, isInf_of_finite ha, isInf_of_finite hb, h0]

/-- A finite value over a zero. -/
theorem div_zero_right {a b : F32} (ha : absPattern a < infPattern) (h0 : isZero b = true) :
    div a b = if isZero a then none else some (withSign (sign a != sign b) infPattern) := by
  have hb : absPattern b < infPattern := by
    have : absPattern b = 0 := by simpa [isZero] using h0
    rw [this]; decide
  simp [div, isNan_of_finite ha, isNan_of_finite hb, isInf_of_finite ha, isInf_of_finite hb, h0]

end Sys2Proof.F32

namespace Sys2Proof.Machine

/-- Settles O60: both operations round the exact value by `roundPattern`, which is the nearest (`roundsTo_withSign`). -/
theorem conversionAndDivisionRound : Obligations.ConversionAndDivisionRound := by
  unfold Obligations.ConversionAndDivisionRound
  refine ⟨fun n h h' => F32.ofInt_exact h h',
    fun n h h' => ⟨F32.sign_ofInt n, roundsTo_withSign Nat.one_pos (F32.natAbs_units_lt h h') _⟩,
    fun a b ha hb h0 => ?_⟩
  have hpos := F32.magnitude_pos h0
  refine ⟨_, F32.div_of_finite ha hb h0, F32.sign_withSign _ (F32.roundPattern_lt_two_pow _ _), ?_⟩
  split
  · next h =>
    rw [F32.isInf, F32.absPattern_withSign _ (F32.roundPattern_lt_two_pow _ _), beq_iff_eq]
    exact (F32.roundPattern_eq_inf _ hpos).2 h
  · next h => exact roundsTo_withSign hpos (Nat.lt_of_not_le h) _

/-! ### The consistency check (R179) -/

theorem epsilon_eq : epsilon = 0x3A83126F := by decide +kernel

/-- The least positive pattern that passes, and the one below it. -/
theorem threshold_rounds :
    0x3A83126F ≤ F32.roundPattern (F32.patternMagnitude 0x3F8020C5 - 2 ^ 149) 1 ∧
    F32.roundPattern (F32.patternMagnitude 0x3F8020C4 - 2 ^ 149) 1 < 0x3A83126F := by decide +kernel

section
open F32

theorem lt_epsilon {w : F32} (hn : isNan w = false) :
    lt w epsilon = (sign w || decide (absPattern w < 0x3A83126F)) := by
  have he : isNan epsilon = false ∧ orderKey epsilon = 0x3A83126F := by rw [epsilon_eq]; decide
  rw [lt, hn, he.1, he.2, orderKey]
  cases hs : sign w
  · simp
  · simp
    omega

theorem lt_epsilon_withSign (s : Bool) {p : Nat} (hp : p ≤ infPattern) :
    lt (withSign s p) epsilon = (s || decide (p < 0x3A83126F)) := by
  have h31 : p < 2 ^ 31 := hp.trans_lt (by decide)
  rw [lt_epsilon (by simpa [isNan, absPattern_withSign s h31] using hp), sign_withSign s h31, absPattern_withSign s h31]

/-- The comparison of a rounded difference that is `d` units exactly. -/
theorem lt_epsilon_rounded (d : Int) (s : Bool) :
    optLt (if d = 0 then some (withSign s 0) else some (withSign (d < 0) (roundPattern d.natAbs 1))) epsilon =
      decide (roundPattern d.toNat 1 < 0x3A83126F) := by
  have h0 : roundPattern 0 1 < 0x3A83126F := by decide
  rcases Int.lt_trichotomy d 0 with hd | rfl | hd
  · rw [if_neg (by omega), optLt, lt_epsilon_withSign _ (roundPattern_le _ _), Int.toNat_of_nonpos hd.le]
    simp [hd, h0]
  · rw [if_pos rfl, optLt, lt_epsilon_withSign _ (Nat.zero_le _)]
    simp [h0]
  · rw [if_neg (by omega), optLt, lt_epsilon_withSign _ (roundPattern_le _ _), show d.toNat = d.natAbs by omega]
    simp [hd.le]

/-- The difference of a finite non-negative value with pattern `p` and 1.0 is under the threshold up to `0x3F8020C4`. -/
theorem roundPattern_sub_one_lt (p : Nat) :
    roundPattern (patternMagnitude p - 2 ^ 149) 1 < 0x3A83126F ↔ p < 0x3F8020C5 := by
  obtain ⟨hat, hbelow⟩ := threshold_rounds
  have hmono {a b : Nat} (h : a ≤ b) : roundPattern (patternMagnitude a - 2 ^ 149) 1 ≤
      roundPattern (patternMagnitude b - 2 ^ 149) 1 :=
    roundPattern_mono Nat.one_pos (Nat.sub_le_sub_right (patternMagnitude_strictMono.monotone h) _)
  constructor
  · intro h
    by_contra hp
    exact absurd (hmono (Nat.le_of_not_lt hp)) (by omega)
  · intro h
    exact (hmono (Nat.le_of_lt_succ h)).trans_lt hbelow

theorem sub_one_lt_epsilon {f : F32} (hn : isNan f = false) :
    optLt (F32.sub f Config.defSfac) epsilon = (sign f || decide (absPattern f < 0x3F8020C5)) := by
  obtain ⟨hn1, hi1, hx⟩ : isNan Config.defSfac = false ∧ isInf Config.defSfac = false ∧
      exact Config.defSfac = 2 ^ 149 := by decide +kernel
  cases hi : isInf f
  · have hsub : optLt (F32.sub f Config.defSfac) epsilon =
        decide (roundPattern (exact f - 2 ^ 149).toNat 1 < 0x3A83126F) := by
      rw [← lt_epsilon_rounded (exact f - 2 ^ 149) (sign f && !sign Config.defSfac)]
      simp only [F32.sub, hn, hn1, hi, hi1, hx]
      rfl
    rw [hsub, exact, magnitude_eq]
    cases sign f
    · have hd : ((patternMagnitude (absPattern f) : Int) - 2 ^ 149).toNat =
          patternMagnitude (absPattern f) - 2 ^ 149 := by omega
      rw [if_neg (by decide), hd, Bool.false_or, decide_eq_decide, roundPattern_sub_one_lt]
    · rw [if_pos rfl, Int.toNat_of_nonpos (by omega), Bool.true_or]
      decide
  · have hinf : absPattern f = infPattern := by simpa [isInf] using hi
    simp only [F32.sub, hn, hn1, hi, hi1]
    rw [show (optLt _ epsilon) = lt f epsilon from rfl, lt_epsilon hn, hinf]
    rfl

/-- Settles O49: for a finite factor the rounded difference is under the threshold up to `0x3F8020C4`, as rounding is
monotone. -/
theorem consistencyThreshold : Obligations.ConsistencyThreshold := by
  unfold Obligations.ConsistencyThreshold
  intro z f hn
  have hp : absPattern f ≤ infPattern := by simpa [isNan] using hn
  have hf := f.isLt
  rw [consistent, sub_one_lt_epsilon hn, sign_eq, absPattern_eq]
  rw [absPattern_eq, infPattern] at hp
  split_ifs with hz hlt
  · simp [hz]
  · simp only [Bool.or_eq_true, decide_eq_true_eq] at hlt
    simp only [false_iff]
    omega
  · simp only [Bool.or_eq_true, decide_eq_true_eq, not_or] at hlt
    simp only [true_iff, ne_eq, hz, not_false_eq_true, true_and]
    omega

end

end Sys2Proof.Machine
end

section
/-! Proofs about the calibration and weight commands: TARE, CALF, the errors and faults of the averaging commands, and
READCAL (spec/43 R170 to R180). -/

namespace Sys2Proof.Machine

/-! ### TARE and CALF (spec/43 R171, R172) -/

section

variable {s u : State} {count : BitVec 16} {a : Word}

/-- TARE after an average that works out. -/
theorem exec_tare {t : State} {persist : Bool} (ha : average count s.accept = .done a u)
    (hrest : ((setZoff a).next <| (persistZoff persist).next (.pure a)) u = .done a t) (ht : t.quiet = true) :
    exec (.tare count persist) s = .next (t.clearAux.respond 0 a) := by
  have h := (Cmd.bind_of_done (k := fun a => (setZoff a).next <| (persistZoff persist).next (.pure a))
    (averageOrInvalidate_of_done ha)).trans hrest
  exact runCommand_of_done h ht

theorem differenceFault_eq_none (hd : insideS32 (difference a u.zoff) = true) : differenceFault a u = none := by
  simp [differenceFault, hd]

/-- CALF after an average that works out and a difference within `s32`. -/
theorem exec_calf {t : State} {ref v : F32} {persist : Bool} (ha : average count s.accept = .done a u)
    (hq : u.quiet = true) (hd : insideS32 (difference a u.zoff) = true) (hrest : calfRest ref persist a u = .done v t)
    (ht : t.quiet = true) : exec (.calf count ref persist) s = .next (t.clearAux.respond 0 v) :=
  runOrFault_completes (averageOrInvalidate_of_done ha) hq (differenceFault_eq_none hd) hrest ht

end

/-- A stored word stands at its slot, and no other byte has changed. -/
theorem storedAt_put {s : State} (hm : s.nvm.wf = true) (a : Nat) (w : Word) :
    StoredAt s (s.putNvm a (bytesOf s.cfg.nvmOrder w)) a (bytesOf s.cfg.nvmOrder w) :=
  storedAt_putNvm hm a (bytesOf_length _ _)

/-- Settles O38: the average changes no Scale item and no byte, and what follows it is one register write and, with
`persist`, one put. -/
theorem tareStoresTheOffset : Obligations.TareStoresTheOffset := by
  unfold Obligations.TareStoresTheOffset
  intro s count persist r hq hm hr
  obtain ⟨ws, rs, ds, clk, w, ha⟩ := average_of_answers hq hr
  have hu : (s.accept.ran ws rs ds clk (r.events s.cfg s.clock) w).quiet = true := hq
  cases persist
  · refine ⟨_, exec_tare ha (tareRest_volatile _ _) hq, ?_, rfl, rfl, rfl, rfl, ⟨rfl, rfl⟩,
      fun _ => ⟨rfl, fun _ => rfl⟩, nofun⟩
    simp [Succeeded]
  · refine ⟨_, exec_tare ha (tareRest_persist hu _) hq, ?_, rfl, rfl, rfl, rfl, ⟨rfl, rfl⟩, nofun,
      fun _ => ⟨List.append_assoc .., storedAt_put (s := s) hm _ _⟩⟩
    simp [Succeeded]

/-- Dividing a converted integer by a zero gives an infinity of the quotient's sign, or no value for 0 (93 U10). -/
theorem quotient_of_zero_reference {n : Int} {ref q : F32} (hn : -2147483648 ≤ n ∧ n ≤ 2147483647)
    (h0 : F32.isZero ref = true)
    (hq : match F32.div (F32.ofInt n) ref with
      | some w => q = w
      | none => F32.isNan q = true) :
    if n = 0 then F32.isNan q = true
    else q = if decide (n < 0) != F32.sign ref then 0xFF800000 else 0x7F800000 := by
  rw [F32.div_zero_right (F32.absPattern_ofInt_lt hn.1 hn.2) h0, F32.isZero_ofInt, F32.sign_ofInt] at hq
  by_cases hz : n = 0
  · simpa [hz] using hq
  · simp only [hz, decide_false, Bool.false_eq_true, if_false] at hq ⊢
    rw [hq]
    cases decide (n < 0) != F32.sign ref <;> rfl

/-- Settles O39: as O38, the register written being the quotient. -/
theorem calfStoresTheFactor : Obligations.CalfStoresTheFactor := by
  unfold Obligations.CalfStoresTheFactor
  intro s count ref persist r hq hm hr hlo hhi
  obtain ⟨ws, rs, ds, clk, w, ha⟩ := average_of_answers hq hr
  have hd : insideS32 (difference (r.mean count) s.zoff) = true := (insideS32_iff _).2 ⟨hlo, hhi⟩
  obtain ⟨q, n, hscale, hquot⟩ :=
    scale_cases (r.mean count) s.zoff ref (s.accept.ran ws rs ds clk (r.events s.cfg s.clock) w)
  have hzero (h0 : F32.isZero ref = true) := quotient_of_zero_reference ⟨hlo, hhi⟩ h0 hquot
  simp only [Int.sub_eq_zero, sub_neg] at hzero
  have hu : (s.accept.ran ws rs ds clk (r.events s.cfg s.clock) w).quiet = true := hq
  cases persist
  · refine ⟨_, q, exec_calf ha hq hd (calfRest_volatile hscale) hq, ?_, rfl, hquot, hzero, rfl, rfl, rfl, ⟨rfl, rfl⟩,
      fun _ => ⟨rfl, fun _ => rfl⟩, nofun⟩
    simp [Succeeded]
  · refine ⟨_, q, exec_calf ha hq hd (calfRest_persist hu hscale) hq, ?_, rfl, hquot, hzero, rfl, rfl, rfl, ⟨rfl, rfl⟩,
      nofun, fun _ => ⟨List.append_assoc .., storedAt_put (s := s) hm _ _⟩⟩
    simp [Succeeded]

/-! ### An averaging that raises an error (spec/43 R171 to R173) -/

/-- A command with a place with no result that raises an error before it is answered with the error. -/
theorem runOrFault_of_raised {α : Type} {c : Cmd α} {check : α → State → Option Fault} {k : α → Cmd Word}
    {s t : State} {e : Err} (h : c s.accept = .stop (.raised e) t) (hq : t.quiet = true) :
    runOrFault c check k s = .next (t.clearAux.takeError e) := by
  rw [runOrFault, h]
  exact runCommand_of_raised (c := fun _ => .stop (.raised e) t) (s := s) rfl hq

/-- Where the average stops, the engine is as it was but for what work on the sensor changes. -/
theorem average_stops_frame {s u : State} {count : BitVec 16} {why : Stop} (hq : s.quiet = true)
    (h : average count s.accept = .stop why u) : u.quiet = true ∧ OnlySensor s u := by
  have hframe := average_keeps sensorFrame_rel count s.accept
  have hhost : u.host = s.accept.host := by
    have := average_keeps sameHost_rel count s.accept hq
    rwa [h] at this
  rw [h] at hframe
  obtain ⟨hcfg, hz, hf, hok, hdet, -, -, -, hnvm, -⟩ := hframe
  refine ⟨?_, ⟨hz, hf, hok, hdet⟩, fun a => ?_, hcfg, hhost⟩
  · exact State.quiet_of_host_eq hq hhost
  · rw [show u.nvm = s.nvm from hnvm]

/-- Settles O40: the first part is the averaging that a register read ends (`average_fails`), the second adds to any
averaging that raises an error what each command does with it. -/
theorem averageErrorEndsTheCommand : Obligations.AverageErrorEndsTheCommand := by
  unfold Obligations.AverageErrorEndsTheCommand
  refine ⟨fun s count r e hq ⟨hfeeds, hf, hp, hn, ht, he⟩ => ?_, fun s u count e hq h => ?_⟩
  · obtain ⟨ws, rs, ds, hw, hr, hd⟩ := hfeeds.accept
    have hfails := average_fails (s := s.accept) hq hw hr hd hf hp hn ht he
    refine ⟨?_, runCommand_fails hq hfails⟩
    obtain ⟨w, hw⟩ := hfails
    exact ⟨_, hw, by simp [Observed]⟩
  · obtain ⟨hu, hframe⟩ := average_stops_frame hq h
    obtain ⟨⟨hz, hf, -, hdet⟩, hstore, hsur⟩ := id hframe
    refine ⟨⟨_, runCommand_of_raised h hu, ?_, rfl, hframe⟩,
      fun hc neg => ⟨_, runOrFault_of_raised (weightCount_of_error (s := s.accept) hc h neg) hu, ?_, rfl, hframe⟩,
      fun ref persist i hi => ?_⟩
    · simp [Failed]
    · simp [Failed]
    · suffices exec i s = .next ((u.setCalok false).clearAux.takeError e) from
        ⟨_, this, by simp [Failed], rfl, rfl, hz, hf, hdet, hstore, hsur⟩
      have hstop := averageOrInvalidate_of_error h
      rcases List.mem_pair.1 hi with rfl | rfl
      · exact runCommand_of_raised (Cmd.bind_of_stop hstop) hu
      · exact runOrFault_of_raised hstop hu

/-! ### GETW and CALF where they have no result (spec/43 R173, R180) -/

/-- Settles O41: the check for a calibration comes before the first event. -/
theorem getwNeedsACalibration : Obligations.GetwNeedsACalibration := by
  unfold Obligations.GetwNeedsACalibration
  intro s count neg hq hc
  refine ⟨_, runOrFault_of_raised (weightCount_uncalibrated (s := s.accept) hc count neg) hq, ?_⟩
  simp [Failed, Observed, OnlySensor, SameScale, SameStorage, SameSurround]

/-- A command that comes to its place with no result faults there. -/
theorem runOrFault_faults {α : Type} {c : Cmd α} {check : α → State → Option Fault} {s t : State} {a : α} {f : Fault}
    (hc : c s.accept = .done a t) (ht : t.quiet = true) (hf : check a t = some f) (k : α → Cmd Word) :
    runOrFault c check k s = .fault f := by
  rw [runOrFault_of_done hc (State.resetDue_of_quiet ht), hf]

theorem differenceFault_of_outside {a : Word} {s : State} (h : insideS32 (difference a s.zoff) = false) :
    differenceFault a s = some (.differenceOutsideS32 s) := by
  simp [differenceFault, h]

theorem weightFault_of_outside {a : Word} {s : State} (h : insideS32 (difference a s.zoff) = false) :
    weightFault a s = some (.differenceOutsideS32 s) := by
  simp [weightFault, differenceFault_of_outside h]

theorem weightFault_of_zero {a : Word} {s : State} (hd : insideS32 (difference a s.zoff) = true)
    (hz : F32.isZero s.sfac = true) : weightFault a s = some (.zeroScaleFactor s) := by
  simp [weightFault, differenceFault_eq_none hd, hz]

theorem insideS32_eq_false {d : Int} (h : d < -2147483648 ∨ 2147483647 < d) : insideS32 d = false := by
  rw [Bool.eq_false_iff, ne_eq, insideS32_iff]
  omega

/-- Settles O43: the difference is in range, so the check falls through to the factor. -/
theorem getwFaultsOnAZeroFactor : Obligations.GetwFaultsOnAZeroFactor := by
  unfold Obligations.GetwFaultsOnAZeroFactor
  intro s count neg r d hq hc hr hz hd hlo hhi
  obtain ⟨ws, rs, ds, clk, ha⟩ := average_of_answers hq hr
  obtain ⟨w, hw⟩ := weightCount_runsTo (s := s.accept) hc ha neg
  have hnum : difference (clampFloor neg (r.mean count) s.zoff) s.zoff = d := (difference_clampFloor ..).trans hd.symm
  have hin : insideS32 (difference (clampFloor neg (r.mean count) s.zoff) s.zoff) = true :=
    (insideS32_iff _).2 (hnum ▸ ⟨hlo, hhi⟩)
  exact ⟨_, runOrFault_faults hw hq (weightFault_of_zero (s := s.accept.ran ws rs ds clk _ w) hin hz) _,
    by simp [Observed]⟩

/-- Settles O44: both checks look at the range of the difference first. -/
theorem differenceOutsideS32Faults : Obligations.DifferenceOutsideS32Faults := by
  unfold Obligations.DifferenceOutsideS32Faults
  intro s count r hq hr
  obtain ⟨ws, rs, ds, clk, ha⟩ := average_of_answers hq hr
  refine ⟨fun hout ref persist => ?_, fun neg d hc hd hout => ?_⟩
  · obtain ⟨w, hw⟩ := ha
    exact ⟨_, runOrFault_faults (averageOrInvalidate_of_done hw) hq
      (differenceFault_of_outside (insideS32_eq_false hout)) _, by simp [Observed]⟩
  · obtain ⟨w, hw⟩ := weightCount_runsTo (s := s.accept) hc ha neg
    have hnum : difference (clampFloor neg (r.mean count) s.zoff) s.zoff = d :=
      (difference_clampFloor ..).trans hd.symm
    have hin : insideS32 (difference (clampFloor neg (r.mean count) s.zoff) s.zoff) = false :=
      insideS32_eq_false (hnum ▸ hout)
    exact ⟨_, runOrFault_faults hw hq (weightFault_of_outside (s := s.accept.ran ws rs ds clk _ w) hin) _,
      by simp [Observed]⟩

/-! ### READCAL (spec/43 R178) -/

/-- The factor word of the storage. -/
def State.storedFactor (s : State) : Word := wordOf s.cfg.nvmOrder (s.nvm.readBytes s.cfg.slotFac 4)

/-- The offset word of the storage. -/
def State.storedOffset (s : State) : Word := wordOf s.cfg.nvmOrder (s.nvm.readBytes s.cfg.slotOff 4)

/-- The two storage reads of READCAL. -/
def State.scaleGets (s : State) : List Event :=
  [.nvmGet s.cfg.slotFac (s.nvm.readBytes s.cfg.slotFac 4), .nvmGet s.cfg.slotOff (s.nvm.readBytes s.cfg.slotOff 4)]

/-- The state in which READCAL judges what it read. -/
def State.loadScale (s : State) : State :=
  { s with sfac := s.storedFactor, zoff := s.storedOffset, trace := s.trace ++ s.scaleGets }

section

variable {s : State} (hq : s.quiet = true)
include hq

theorem readCalibration_judges : readCalibration s = judgeStored s.storedFactor s.storedOffset s.loadScale :=
  readCalibration_quiet hq

theorem exec_readcal_factor (hf : s.storedFactor = s.cfg.nvmErased ∨ F32.isNan s.storedFactor = true) :
    exec .readcal s = .next ((({ s.accept.loadScale with sfac := 0x3F800000 } : State).putNvm s.cfg.slotFac
      (bytesOf s.cfg.nvmOrder 0x3F800000)).forgetCalibration.clearAux.takeError .readFactor) := by
  refine runCommand_of_raised ((readCalibration_judges (s := s.accept) hq).trans ?_) hq
  have hc : corruptFactor s.cfg s.storedFactor = true := by simpa [corruptFactor] using hf
  exact (if_pos hc).trans (healFactor_quiet (s := s.accept.loadScale) hq)

theorem exec_readcal_offset (hc : corruptFactor s.cfg s.storedFactor = false)
    (ho : s.storedOffset = s.cfg.nvmErased) :
    exec .readcal s = .next ((({ s.accept.loadScale with zoff := 0 } : State).putNvm s.cfg.slotOff
      (bytesOf s.cfg.nvmOrder 0)).forgetCalibration.clearAux.takeError .readOffset) := by
  refine runCommand_of_raised ((readCalibration_judges (s := s.accept) hq).trans ?_) hq
  have hco : corruptOffset s.cfg s.storedOffset = true := by simp [corruptOffset, ho]
  exact (if_neg (ne_true_of_eq_false hc)).trans ((if_pos hco).trans (healOffset_quiet (s := s.accept.loadScale) hq))

theorem exec_readcal_clean (hc : corruptFactor s.cfg s.storedFactor = false)
    (ho : s.storedOffset ≠ s.cfg.nvmErased) :
    exec .readcal s = .next (s.accept.loadScale.judgeCalibration.clearAux.respond 0 0) := by
  refine runCommand_of_done ((readCalibration_judges (s := s.accept) hq).trans ?_) hq
  have hco : ¬ corruptOffset s.cfg s.storedOffset = true := by simp [corruptOffset, ho]
  exact (if_neg (ne_true_of_eq_false hc)).trans (if_neg hco)

end

theorem corruptFactor_eq_false {cfg : Config} {w : Word} (he : w ≠ cfg.nvmErased) (hn : F32.isNan w = false) :
    corruptFactor cfg w = false := by
  simp [corruptFactor, he, hn]

/-- Settles O47: the factor is judged first, and each default is put back where its value is corrupt. -/
theorem readcalHealsACorruptValue : Obligations.ReadcalHealsACorruptValue := by
  unfold Obligations.ReadcalHealsACorruptValue
  rintro s wf wo hq hm rfl rfl
  refine ⟨fun hf => ⟨_, exec_readcal_factor hq hf, ?_, rfl, rfl, rfl, rfl, ⟨rfl, rfl⟩, List.append_assoc ..,
      storedAt_put (s := s) hm _ _⟩,
    fun he hn ho => ⟨_, exec_readcal_offset hq (corruptFactor_eq_false he hn) ho, ?_, rfl, rfl, rfl, rfl, ⟨rfl, rfl⟩,
      List.append_assoc .., storedAt_put (s := s) hm _ _⟩⟩
  · simp [Failed]
  · simp [Failed]

/-- Settles O48: with neither word corrupt READCAL only loads and judges them. -/
theorem readcalCompletes : Obligations.ReadcalCompletes := by
  unfold Obligations.ReadcalCompletes
  rintro s wf wo hq rfl rfl he hn ho
  refine ⟨_, exec_readcal_clean hq (corruptFactor_eq_false he hn) ho, ?_, rfl, rfl, rfl, rfl, fun _ => rfl,
    ⟨rfl, rfl⟩, rfl⟩
  simp [Succeeded]

/-- Settles O50: the words READCAL loads are those STORECAL put, and the puts left nothing else. -/
theorem readcalRestoresWhatStorecalWrote : Obligations.ReadcalRestoresWhatStorecalWrote := by
  unfold Obligations.ReadcalRestoresWhatStorecalWrote
  intro s t hq hm ht he hn ho
  obtain rfl : s.accept.putScale.clearAux.respond 0 0 = t := Host.Outcome.next.inj ((exec_storecal hq).symm.trans ht)
  have hf : (s.accept.putScale.clearAux.respond 0 0).storedFactor = s.sfac :=
    (congrArg (wordOf s.cfg.nvmOrder) (State.putScale_readBytes_slotFac (s := s.accept) hm)).trans (wordOf_bytesOf _ _)
  have hz : (s.accept.putScale.clearAux.respond 0 0).storedOffset = s.zoff :=
    (congrArg (wordOf s.cfg.nvmOrder) (State.putScale_readBytes_slotOff (s := s.accept) hm)).trans (wordOf_bytesOf _ _)
  obtain ⟨u, hu, hdone, hsfac, hzoff, hdet, hok, hstore, -, -⟩ :=
    readcalCompletes (s.accept.putScale.clearAux.respond 0 0) s.sfac s.zoff hq hf.symm hz.symm he hn ho
  exact ⟨u, hu, hdone, hzoff, hsfac, hdet, hok, hstore⟩

end Sys2Proof.Machine
end

section
/-! Proofs about the two polling loops in every environment (spec/41 R124 to R126, spec/42 R150): when they give up, and
what the averaging collects. -/

namespace Sys2Proof.Machine

/-! ### What the register reads of a pass leave alone -/

/-- Events have happened; the configuration, the clock and `T0` are as before. -/
structure Onward (s t : State) : Prop where
  cfg : t.cfg = s.cfg
  clock : t.clock = s.clock
  t0 : t.work.t0 = s.work.t0
  trace : ∃ es, t.trace = s.trace ++ es

/-- So are `ACC` and `NS`. -/
structure ReadOnward (s t : State) : Prop extends Onward s t where
  acc : t.work.acc = s.work.acc
  ns : t.work.ns = s.work.ns

theorem ReadOnward.refl (s : State) : ReadOnward s s := ⟨⟨rfl, rfl, rfl, [], by simp⟩, rfl, rfl⟩

theorem Onward.trans {s t u : State} (h : Onward s t) (h' : Onward t u) : Onward s u := by
  obtain ⟨es, he⟩ := h.trace
  obtain ⟨es', he'⟩ := h'.trace
  exact ⟨h'.cfg.trans h.cfg, h'.clock.trans h.clock, h'.t0.trans h.t0, es ++ es', by rw [he', he, List.append_assoc]⟩

theorem ReadOnward.trans {s t u : State} (h : ReadOnward s t) (h' : ReadOnward t u) : ReadOnward s u :=
  ⟨h.toOnward.trans h'.toOnward, h'.acc.trans h.acc, h'.ns.trans h.ns⟩

theorem Cmd.bind_readOnward {α β : Type} {c : Cmd α} {k : α → Cmd β} (hc : c.Keeps ReadOnward)
    (hk : ∀ a, (k a).Keeps ReadOnward) : (c.bind k).Keeps ReadOnward := by
  intro s
  have h := hc s
  unfold Cmd.bind
  cases hcs : c s with
  | done a t => rw [hcs] at h; exact h.trans (hk a t)
  | stop why t => rw [hcs] at h; exact h

theorem pure_readOnward {α : Type} (a : α) : (Cmd.pure a).Keeps ReadOnward := ReadOnward.refl

theorem raise_readOnward {α : Type} (e : Err) : (Cmd.raise e : Cmd α).Keeps ReadOnward := ReadOnward.refl

theorem get_readOnward {α : Type} (f : State → α) : (Cmd.get f).Keeps ReadOnward := ReadOnward.refl

theorem setTb_readOnward (b : Byte) : (setTb b).Keeps ReadOnward :=
  fun s => ⟨⟨rfl, rfl, rfl, [], (List.append_nil s.trace).symm⟩, rfl, rfl⟩

theorem busWrite_readOnward (bytes : List Byte) : (busWrite bytes).Keeps ReadOnward :=
  perform_keeps ReadOnward.refl fun _ => ⟨⟨rfl, rfl, rfl, _, rfl⟩, rfl, rfl⟩

theorem busRead_readOnward (n : Nat) : (busRead n).Keeps ReadOnward :=
  perform_keeps ReadOnward.refl fun _ => ⟨⟨rfl, rfl, rfl, _, rfl⟩, rfl, rfl⟩

theorem checkStatus_readOnward (st : BusStatus) : (checkStatus st).Keeps ReadOnward := by
  unfold checkStatus
  cases comm st with
  | none => exact pure_readOnward ()
  | some e => exact raise_readOnward e

theorem memReadDev_readOnward (a : Byte) (n : Nat) : (memReadDev a n).Keeps ReadOnward :=
  Cmd.bind_readOnward (busWrite_readOnward _) fun st => Cmd.bind_readOnward (checkStatus_readOnward st) fun _ =>
    Cmd.bind_readOnward (busRead_readOnward n) fun _ => .ite (raise_readOnward _) (pure_readOnward _)

theorem getBit_readOnward (r : BitRef) : (getBit r).Keeps ReadOnward :=
  Cmd.bind_readOnward (Cmd.bind_readOnward (memReadDev_readOnward _ _) fun _ => pure_readOnward _) fun b =>
    Cmd.bind_readOnward (setTb_readOnward b) fun _ => get_readOnward _

theorem available_readOnward : available.Keeps ReadOnward := fun s => getBit_readOnward s.cfg.dev.ready s

theorem reading_readOnward : reading.Keeps ReadOnward := fun s =>
  Cmd.bind_readOnward (memReadDev_readOnward s.cfg.dev.sample 3) (fun _ => pure_readOnward _) s

theorem calStatus_readOnward : calStatus.Keeps ReadOnward := fun s =>
  Cmd.bind_readOnward (getBit_readOnward s.cfg.dev.calActive) (fun _ =>
    .ite (pure_readOnward _) (Cmd.bind_readOnward (getBit_readOnward s.cfg.dev.calError) fun _ => pure_readOnward _)) s

/-! ### The end of an unfinished pass -/

/-- One clock read, the check of the deadline, one idle wait (R124, R150). -/
def passEnd {α : Type} (limit : Nat) (e : Err) : Cmd (Option α) :=
  (checkDeadline limit e).next <| idleTick.next <| .pure none

/-- The state after a clock read. -/
def State.readClock (s : State) : State :=
  { s.countEvent.dropDelay with clock := s.nextTime }.record (.now s.nextTime)

/-- The state after an idle wait. -/
def State.idled (s : State) : State :=
  { s.countEvent with clock := s.clock + s.cfg.tIdle }.record (.idle s.cfg.tIdle)

theorem now_of_not_due {s : State} (h : s.resetDue = false) : now s = .done s.nextTime s.readClock := by
  rw [now, perform, if_neg (by simp [h])]
  rfl

theorem idleTick_of_not_due {s : State} (h : s.resetDue = false) : idleTick s = .done () s.idled := by
  rw [idleTick, idle, perform, if_neg (by simp [h])]
  rfl

theorem checkDeadline_of_not_due {s : State} (h : s.resetDue = false) (limit : Nat) (e : Err) :
    checkDeadline limit e s =
      if s.work.t0 + limit < s.nextTime then .stop (.raised e) s.readClock else .done () s.readClock :=
  Cmd.bind_of_done (now_of_not_due h)

/-- The four ways a pass that is not finished can end. -/
theorem passEnd_apply {α : Type} (limit : Nat) (e : Err) (s : State) :
    (passEnd limit e : Cmd (Option α)) s =
      if s.resetDue then .stop .resetCut s
      else if s.work.t0 + limit < s.nextTime then .stop (.raised e) s.readClock
      else if s.readClock.resetDue then .stop .resetCut s.readClock
      else .done none s.readClock.idled := by
  unfold passEnd
  cases hd : s.resetDue
  · rw [if_neg (by decide)]
    by_cases hl : s.work.t0 + limit < s.nextTime
    · rw [if_pos hl, Cmd.next_of_stop ((checkDeadline_of_not_due hd limit e).trans (if_pos hl))]
    · rw [if_neg hl, Cmd.next_of_done ((checkDeadline_of_not_due hd limit e).trans (if_neg hl))]
      cases hd' : s.readClock.resetDue
      · rw [if_neg (by decide), Cmd.next_of_done (idleTick_of_not_due hd')]
        rfl
      · rw [if_pos rfl]
        have h : idleTick s.readClock = .stop .resetCut s.readClock := by
          rw [idleTick, idle, perform_resetDue hd']
        exact Cmd.next_of_stop h
  · rw [if_pos rfl]
    exact Cmd.next_of_stop (Cmd.bind_of_stop (perform_resetDue hd _ _))

/-! ### A pass, and the loop of passes -/

/-- What a pass of a loop with the limit `limit` and the error `e` can come to. -/
inductive Pass {α : Type} (limit : Nat) (e : Err) (s : State) : Progress (Option α) → Prop
  | stops {why : Stop} {t : State} (h : why ≠ .raised e) : Pass limit e s (.stop why t)
  | late {t : State} {t1 : Nat} (es : List Event) (h : s.work.t0 + limit < t1)
      (ht : t.trace = s.trace ++ (es ++ [.now t1])) : Pass limit e s (.stop (.raised e) t)
  | goesOn {t : State} (es : List Event) (hcfg : t.cfg = s.cfg) (ht0 : t.work.t0 = s.work.t0)
      (hlo : s.clock + s.cfg.tIdle ≤ t.clock) (hhi : t.clock ≤ s.work.t0 + limit + s.cfg.tIdle)
      (ht : t.trace = s.trace ++ es) : Pass limit e s (.done none t)
  | ends (a : α) (t : State) : Pass limit e s (.done (some a) t)

theorem pass_of_passEnd {α : Type} {limit : Nat} {e : Err} {s u : State} (h : Onward s u) :
    Pass limit e s ((passEnd limit e : Cmd (Option α)) u) := by
  obtain ⟨es, ht⟩ := h.trace
  have hn : u.clock ≤ u.nextTime := Nat.le_add_right _ _
  rw [passEnd_apply, h.t0]
  split_ifs with h1 h2 h3
  · exact .stops (by simp)
  · exact .late es h2 (by simp [State.readClock, State.record, State.dropDelay, ht])
  · exact .stops (by simp)
  · have hc : u.readClock.idled.clock = u.nextTime + s.cfg.tIdle := by rw [← h.cfg]; rfl
    refine .goesOn (es ++ [.now u.nextTime, .idle s.cfg.tIdle]) h.cfg h.t0 (by rw [hc, ← h.clock]; omega)
      (by rw [hc]; omega) ?_
    simp [State.readClock, State.idled, State.record, State.dropDelay, ht, h.cfg]

theorem averageLoop_succ (count : BitVec 16) (n : Nat) :
    averageLoop count (n + 1) = (averagePass count).bind fun r => r.elim (averageLoop count n) .pure :=
  congrArg _ (funext fun r => by cases r <;> rfl)

theorem calWaitLoop_succ (timeout n : Nat) :
    calWaitLoop timeout (n + 1) = (calWaitPass timeout).bind fun r => r.elim (calWaitLoop timeout n) .pure :=
  congrArg _ (funext fun r => by cases r <;> rfl)

/-- A loop of such passes gives up only after its deadline: pass `k` begins `k` idle waits after the first at the
earliest, so that the passes do not run out before. -/
theorem loop_gives_up {α : Type} {limit : Nat} {e : Err} {pass : Cmd (Option α)} {loop : Nat → Cmd α}
    (hpass : ∀ s, Pass limit e s (pass s))
    (hloop : ∀ n, loop (n + 1) = pass.bind fun r => r.elim (loop n) .pure) (n : Nat) :
    ∀ {s t : State}, s.clock ≤ s.work.t0 + limit + s.cfg.tIdle →
      s.work.t0 + limit + s.cfg.tIdle < s.clock + n * s.cfg.tIdle → loop n s = .stop (.raised e) t →
      ∃ t1 es, t.trace = s.trace ++ (es ++ [.now t1]) ∧ s.work.t0 + limit < t1 := by
  induction n with
  | zero => intro s t hhi hlo; omega
  | succ n ih =>
    intro s t hhi hlo h
    have hp := hpass s
    rw [hloop] at h
    cases hps : pass s with
    | stop why u =>
      rw [Cmd.bind_of_stop hps] at h
      cases h
      rw [hps] at hp
      cases hp with
      | stops h => exact absurd rfl h
      | late es hl ht => exact ⟨_, es, ht, hl⟩
    | done r u =>
      rw [Cmd.bind_of_done hps] at h
      rw [hps] at hp
      cases hp with
      | ends a => cases h
      | goesOn es hcfg ht0 hlo' hhi' ht =>
        obtain ⟨t1, es', ht', hl⟩ := ih (by rwa [hcfg, ht0]) (by rw [hcfg, ht0]; linarith) h
        exact ⟨t1, es ++ es', by rw [ht', ht]; simp, by rwa [ht0] at hl⟩

/-- The passes allowed are more than the deadline leaves room for. -/
theorem limit_lt_passes (c : Config) (limit : Nat) : limit + c.tIdle < (limit / c.tIdle + 2) * c.tIdle := by
  have h := Nat.lt_div_mul_add c.tIdle_pos (a := limit)
  rw [Nat.add_mul]
  omega

/-! ### One pass of the averaging -/

theorem reading_bounds {s t : State} {v : Word} (h : reading s = .done v t) :
    -8388608 ≤ v.toInt ∧ v.toInt ≤ 8388607 := by
  unfold reading at h
  cases hr : memReadDev s.cfg.dev.sample 3 s with
  | stop why u => rw [Cmd.bind_of_stop hr] at h; cases h
  | done bs u =>
    rw [Cmd.bind_of_done hr] at h
    cases h
    exact unpack24_bounds (bs.getD 0 0) (bs.getD 1 0) (bs.getD 2 0)

/-- The state after a sample has been added. -/
def State.addedSample (s : State) (v : Word) : State :=
  { s with work := { s.work with acc := s.work.acc + v.signExtend 64, ns := s.work.ns + 1 } }

theorem takeSample_of_reading {s t : State} {v : Word} (h : reading s = .done v t) (count : BitVec 16) :
    takeSample count s = .done ((t.addedSample v).work.ns == count) (t.addedSample v) :=
  (Cmd.bind_of_done h).trans rfl

theorem SumSoFar.add {s : State} {t0 : Nat} {samples : List Int} (h : SumSoFar s t0 samples) (v : Word) :
    SumSoFar (s.addedSample v) t0 (samples ++ [v.toInt]) := by
  obtain ⟨h0, ha, hn⟩ := h
  refine ⟨h0, ?_, ?_⟩
  · simp only [State.addedSample, ha]
    rw [List.sum_append, BitVec.ofInt_add, List.sum_singleton, BitVec.signExtend]
  · simp only [State.addedSample, hn]
    apply BitVec.eq_of_toNat_eq
    simp

/-- What a pass of the averaging has done when it comes to its end: added a sample, or found none. -/
structure Gathered (s u : State) (l : List Int) : Prop extends Onward s u where
  sum : ∀ {t0 samples}, SumSoFar s t0 samples → SumSoFar u t0 (samples ++ l)
  bounds : ∀ v ∈ l, -8388608 ≤ v ∧ v ≤ 8388607
  length : l.length ≤ 1

theorem ReadOnward.gathered {s u : State} (h : ReadOnward s u) : Gathered s u [] :=
  ⟨h.toOnward, fun ⟨h0, ha, hn⟩ => ⟨h.t0.trans h0, by simp [h.acc, ha], by simp [h.ns, hn]⟩, by simp, by simp⟩

theorem ReadOnward.gathered_add {s u : State} (h : ReadOnward s u) {v : Word}
    (hv : -8388608 ≤ v.toInt ∧ v.toInt ≤ 8388607) : Gathered s (u.addedSample v) [v.toInt] :=
  ⟨⟨h.cfg, h.clock, h.t0, h.trace⟩, fun hs => by simpa using (h.gathered.sum hs).add v, by simpa using hv, by simp⟩

/-- A pass of the averaging stops at a register access, or has gathered the last sample, or goes to its end. -/
theorem averagePass_cases (count : BitVec 16) (s : State) :
    (∃ why t, why ≠ .raised .timeout ∧ averagePass count s = .stop why t) ∨
    ∃ u l, Gathered s u l ∧
      ((l ≠ [] ∧ u.work.ns = count ∧ averagePass count s = .done (some (truncAverage u.work.acc count)) u) ∨
        ((l = [] ∨ u.work.ns ≠ count) ∧ averagePass count s = passEnd (deadline count) .timeout u)) := by
  have hna : ∀ {α : Type} {c : Cmd α} {v t : State} {why : Stop}, c.Raises readErrors → c v = .stop why t →
      why ≠ .raised .timeout := by
    rintro α c v t _ hc h rfl
    exact absurd (hc v _ _ h) (by decide)
  cases ha : available s with
  | stop why t => exact .inl ⟨why, t, hna available_raises ha, Cmd.bind_of_stop ha⟩
  | done r u =>
    have hu : ReadOnward s u := by simpa [ha, Progress.state] using available_readOnward s
    rw [averagePass, Cmd.bind_of_done ha]
    cases r with
    | false => exact .inr ⟨u, [], hu.gathered, .inr ⟨.inl rfl, rfl⟩⟩
    | true =>
      rw [if_pos rfl]
      cases hr : reading u with
      | stop why t =>
        exact .inl ⟨why, t, hna reading_raises hr, Cmd.bind_of_stop (Cmd.bind_of_stop hr)⟩
      | done v t =>
        have ht : ReadOnward u t := by simpa [hr, Progress.state] using reading_readOnward u
        refine .inr ⟨_, _, (hu.trans ht).gathered_add (reading_bounds hr), ?_⟩
        rw [Cmd.bind_of_done (takeSample_of_reading hr count)]
        by_cases hn : (t.addedSample v).work.ns = count
        · exact .inl ⟨by simp, hn, by rw [if_pos (beq_iff_eq.2 hn)]; rfl⟩
        · exact .inr ⟨.inr hn, by rw [if_neg (mt beq_iff_eq.1 hn)]; rfl⟩

/-! ### The average lies in the range of a sample (spec/41 R125) -/

/-- The mean of samples, truncated toward zero. -/
theorem truncAverage_bounds {l : List Int} (h : ∀ v ∈ l, -8388608 ≤ v ∧ v ≤ 8388607) {count : BitVec 16}
    (hl : l.length = count.toNat) (hpos : 0 < count.toNat) :
    -8388608 ≤ (truncAverage (BitVec.ofInt 64 l.sum) count).toInt ∧
      (truncAverage (BitVec.ofInt 64 l.sum) count).toInt ≤ 8388607 := by
  obtain ⟨hlo, hhi⟩ := sum_bounds l h
  rw [hl] at hlo hhi
  have hc : (0 : Int) < count.toNat := by exact_mod_cast hpos
  have hlo' := Int.tdiv_le_tdiv hc hlo
  have hhi' := Int.tdiv_le_tdiv hc hhi
  rw [Int.mul_tdiv_cancel _ hc.ne'] at hlo' hhi'
  rw [truncAverage_of_sum l h count hl, BitVec.toInt_ofInt_eq_self (by omega) (by omega) (by omega)]
  exact ⟨hlo', hhi'⟩

theorem averageLoop_bounds {count : BitVec 16} (n : Nat) : ∀ {s t : State} {a : Word} {t0 : Nat} {samples : List Int},
    SumSoFar s t0 samples → (∀ v ∈ samples, -8388608 ≤ v ∧ v ≤ 8388607) → samples.length < count.toNat →
    averageLoop count n s = .done a t → -8388608 ≤ a.toInt ∧ a.toInt ≤ 8388607 := by
  induction n with
  | zero => intro s t a t0 samples _ _ _ h; cases h
  | succ n ih =>
    intro s t a t0 samples hsum hb hlt h
    have hc := count.isLt
    rw [averageLoop] at h
    rcases averagePass_cases count s with ⟨why, u, -, hp⟩ | ⟨u, l, hg, hend⟩
    · rw [Cmd.bind_of_stop hp] at h
      cases h
    · obtain ⟨ht0, hacc, hns⟩ := hg.sum hsum
      have hb' : ∀ v ∈ samples ++ l, -8388608 ≤ v ∧ v ≤ 8388607 :=
        fun v hv => (List.mem_append.1 hv).elim (hb v) (hg.bounds v)
      have hlen : (samples ++ l).length ≤ samples.length + 1 := by
        rw [List.length_append]
        exact Nat.add_le_add_left hg.length _
      have hcount : u.work.ns.toNat = (samples ++ l).length := by
        rw [hns, BitVec.toNat_ofNat]
        omega
      rcases hend with ⟨hl, hn, hp⟩ | ⟨hl, hp⟩
      · rw [Cmd.bind_of_done hp] at h
        cases h
        rw [hacc]
        exact truncAverage_bounds hb' (hcount.symm.trans (congrArg _ hn)) (by omega)
      · rw [Cmd.bind, hp, passEnd_apply] at h
        split_ifs at h
        refine ih (s := u.readClock.idled) ⟨ht0, hacc, hns⟩ hb' ?_ h
        rcases hl with rfl | hne
        · simpa using hlt
        · have : (samples ++ l).length ≠ count.toNat := fun he => hne (BitVec.eq_of_toNat_eq (hcount.trans he))
          omega

/-! ### The beginning of both loops -/

/-- The state after `T0 <- Now()`. -/
def State.started (s : State) : State := { s.readClock with work := { s.work with t0 := s.nextTime } }

theorem startClock_of_not_due {s : State} (h : s.resetDue = false) : startClock s = .done () s.started :=
  Cmd.bind_of_done (now_of_not_due h)

theorem startClock_of_due {s : State} (h : s.resetDue = true) : startClock s = .stop .resetCut s :=
  Cmd.bind_of_stop (perform_resetDue h _ _)

/-- The state in which the averaging loop begins. -/
def State.summing (s : State) : State := { s.started with work := { s.started.work with acc := 0, ns := 0 } }

theorem average_apply (count : BitVec 16) (s : State) :
    average count s =
      if s.resetDue then .stop .resetCut s else averageLoop count (averagePasses s.cfg count) s.summing := by
  cases hd : s.resetDue
  · exact Cmd.next_of_done (startClock_of_not_due hd)
  · exact Cmd.next_of_stop (startClock_of_due hd)

/-- Settles O26: the loop's registers agree with the samples taken so far, each of which is a 24-bit number. -/
theorem averageStaysInSampleRange : Obligations.AverageStaysInSampleRange := by
  unfold Obligations.AverageStaysInSampleRange
  intro s t count a hcount h
  rw [average_apply] at h
  split_ifs at h
  have hpos : 0 < count.toNat := Nat.pos_of_ne_zero fun h0 => hcount (BitVec.eq_of_toNat_eq (by simpa using h0))
  have hsum : SumSoFar s.summing s.nextTime [] := ⟨rfl, rfl, rfl⟩
  exact averageLoop_bounds _ hsum (by simp) hpos h

/-! ### The two timeouts (spec/41 R124, R126; spec/42 R150) -/

theorem averagePass_pass (count : BitVec 16) (s : State) :
    Pass (deadline count) .timeout s (averagePass count s) := by
  rcases averagePass_cases count s with ⟨why, t, hw, hp⟩ | ⟨u, l, hg, ⟨-, -, hp⟩ | ⟨-, hp⟩⟩
  · exact hp ▸ .stops hw
  · exact hp ▸ .ends _ _
  · exact hp ▸ pass_of_passEnd hg.toOnward

theorem calWaitPass_pass {timeout : Nat} (ht : timeout ≠ 0) (s : State) :
    Pass timeout .calTimeout s (calWaitPass timeout s) := by
  rw [calWaitPass]
  cases hs : calStatus s with
  | stop why t =>
    rw [Cmd.bind_of_stop hs]
    refine .stops ?_
    rintro rfl
    exact absurd (calStatus_raises s _ _ hs) (by decide)
  | done st u =>
    have hu : ReadOnward s u := by simpa [hs, Progress.state] using calStatus_readOnward s
    rw [Cmd.bind_of_done hs]
    by_cases hst : st = .inProgress
    · rw [if_pos hst, if_neg ht]
      exact pass_of_passEnd hu.toOnward
    · rw [if_neg hst]
      exact .ends _ _

/-- The event of the first clock read stands before those of a loop that begins in `u`. -/
theorem observed_from_start {s t u : State} {t1 : Nat} {es : List Event} (hu : u.trace = s.started.trace)
    (ht : t.trace = u.trace ++ (es ++ [.now t1])) : Observed s t (.now s.nextTime :: es ++ [.now t1]) := by
  rw [Observed, ht, hu]
  simp [State.started, State.readClock, State.record, State.dropDelay]

theorem average_gives_up {s t : State} {count : BitVec 16} (h : average count s = .stop (.raised .timeout) t) :
    ∃ (t0 t1 : Nat) (es : List Event), Observed s t (.now t0 :: es ++ [.now t1]) ∧ t0 + deadline count < t1 := by
  rw [average_apply] at h
  split_ifs at h
  · cases h
  have hpasses := limit_lt_passes s.cfg (deadline count)
  obtain ⟨t1, es, ht, hl⟩ := loop_gives_up (loop := averageLoop count) (averagePass_pass count)
    (averageLoop_succ count) _ (s := s.summing)
    (show s.nextTime ≤ s.nextTime + deadline count + s.cfg.tIdle by omega)
    (show s.nextTime + deadline count + s.cfg.tIdle < s.nextTime + averagePasses s.cfg count * s.cfg.tIdle by
      rw [averagePasses]; omega) h
  exact ⟨s.nextTime, t1, es, observed_from_start rfl ht, hl⟩

theorem calWaitPass_zero_raises : (calWaitPass 0).Raises (readErrors ++ [.calFail]) :=
  .bind (calStatus_raises.mono (by simp)) fun _ =>
    .ite (.next (.pure ()) (.next idleTick_raises (.pure _))) (.pure _)

theorem calWaitLoop_zero_raises (n : Nat) : (calWaitLoop 0 n).Raises (readErrors ++ [.calFail]) := by
  induction n with
  | zero => exact .suspend
  | succ n ih =>
    refine .bind calWaitPass_zero_raises fun r => ?_
    cases r with
    | none => exact ih
    | some st => exact .pure st

/-- A wait without a timeout raises no timeout. -/
theorem calWait_zero_raises : (calWait 0).Raises (readErrors ++ [.calFail]) :=
  .next (.bind (perform_raises _ _) fun _ => .set _) fun s =>
    Cmd.Raises.bind (calWaitLoop_zero_raises (calWaitPasses s 0)) (fun st =>
      (.ite (.raise (by simp)) (.pure _) : (calWaitEnd st).Raises _)) s

theorem calWait_gives_up {s t : State} {timeout : Nat} (ht : timeout ≠ 0)
    (h : calWait timeout s = .stop (.raised .calTimeout) t) :
    ∃ (t0 t1 : Nat) (es : List Event), Observed s t (.now t0 :: es ++ [.now t1]) ∧ t0 + timeout < t1 := by
  cases hd : s.resetDue
  · rw [calWait, Cmd.next_of_done (startClock_of_not_due hd), calWaitRest] at h
    have hn : calWaitPasses s.started timeout = timeout / s.cfg.tIdle + 2 := if_neg ht
    have hpasses := limit_lt_passes s.cfg timeout
    cases hloop : calWaitLoop timeout (calWaitPasses s.started timeout) s.started with
    | done st u =>
      rw [Cmd.bind_of_done hloop, calWaitEnd] at h
      split_ifs at h <;> cases h
    | stop why u =>
      rw [Cmd.bind_of_stop hloop] at h
      cases h
      rw [hn] at hloop
      obtain ⟨t1, es, ht, hl⟩ := loop_gives_up (loop := calWaitLoop timeout) (calWaitPass_pass ht)
        (calWaitLoop_succ timeout) _ (s := s.started)
        (show s.nextTime ≤ s.nextTime + timeout + s.cfg.tIdle by omega)
        (show s.nextTime + timeout + s.cfg.tIdle < s.nextTime + (timeout / s.cfg.tIdle + 2) * s.cfg.tIdle by omega)
        hloop
      exact ⟨s.nextTime, t1, es, observed_from_start rfl ht, hl⟩
  · rw [calWait, Cmd.next_of_stop (startClock_of_due hd)] at h
    cases h

/-- Settles O25: the loops give up in the check of the deadline alone (`loop_gives_up`). -/
theorem timeoutsOnlyAfterTheDeadline : Obligations.TimeoutsOnlyAfterTheDeadline := by
  unfold Obligations.TimeoutsOnlyAfterTheDeadline
  refine ⟨fun s t count h => average_gives_up h, fun s t timeout h => ?_⟩
  have ht : timeout ≠ 0 := by
    rintro rfl
    exact absurd (calWait_zero_raises s _ _ h) (by decide)
  exact ⟨ht, calWait_gives_up ht h⟩

/-! ### A sensor that is never ready (spec/41 R126) -/

theorem State.quiet_readClock {s : State} (hq : s.quiet = true) : s.readClock.quiet = true :=
  State.quiet_of_host_eq hq (countMove_of_quiet hq)

/-- The loop while every poll reads the ready bit as 0: it times out, in as many passes as it has at most. -/
theorem averageLoop_never_ready {count : BitVec 16} {ready : BitVec 3} (n : Nat) :
    ∀ {s : State} {polls : List Byte} {ws : List BusStatus} {rs : List (List Byte)}, s.quiet = true →
      s.cfg.dev.ready.bit = ready → (∀ b ∈ polls, testBit b ready = false) → n ≤ polls.length →
      s.writeAns = List.replicate polls.length .success ++ ws → s.readAns = polls.map (fun b => [b]) ++ rs →
      ∃ t es, averageLoop count n s = .stop (.raised .timeout) t ∧ t.trace = s.trace ++ es ∧
        (es.filter Event.isBusRead).length ≤ n := by
  induction n with
  | zero => intro s _ _ _ _ _ _ _ _ _; exact ⟨s, [], rfl, by simp, by simp⟩
  | succ n ih =>
    intro s polls ws rs hq hready hpolls hn hw hr
    obtain _ | ⟨b, polls⟩ := polls
    · simp at hn
    · have ha := available_script hq hw hr
      rw [hready, hpolls b (by simp)] at ha
      generalize hu : s.ran _ _ _ _ _ _ = u at ha
      have hqu : u.quiet = true := by rw [← hu]; exact hq
      have htr : u.trace = s.trace ++ readRegEvents s.cfg s.cfg.dev.ready.reg [b] := by rw [← hu]; rfl
      have hpass : averagePass count s = passEnd (deadline count) .timeout u := Cmd.bind_of_done ha
      rw [passEnd_apply, State.resetDue_of_quiet hqu, State.resetDue_of_quiet (State.quiet_readClock hqu)] at hpass
      simp only [Bool.false_eq_true, if_false] at hpass
      rw [averageLoop]
      by_cases hl : u.work.t0 + deadline count < u.nextTime
      · rw [if_pos hl] at hpass
        refine ⟨_, readRegEvents s.cfg s.cfg.dev.ready.reg [b] ++ [.now u.nextTime], Cmd.bind_of_stop hpass, ?_, ?_⟩
        · simp [State.readClock, State.record, State.dropDelay, htr]
        · simp [readRegEvents, List.filter_cons, Event.isBusRead]
      · rw [if_neg hl] at hpass
        obtain ⟨t, es, hloop, ht, hlen⟩ := ih (s := u.readClock.idled) (polls := polls) (ws := ws) (rs := rs)
          (State.quiet_of_host_eq (State.quiet_readClock hqu) (countMove_of_quiet (State.quiet_readClock hqu)))
          (by rw [← hu]; exact hready) (fun b hb => hpolls b (by simp [hb])) (by simpa using hn)
          (by rw [← hu]; rfl) (by rw [← hu]; rfl)
        refine ⟨t, readRegEvents s.cfg s.cfg.dev.ready.reg [b] ++
          [.now u.nextTime, .idle u.readClock.cfg.tIdle] ++ es, (Cmd.bind_of_done hpass).trans hloop, ?_, ?_⟩
        · rw [ht]
          simp [State.readClock, State.idled, State.record, State.dropDelay, htr]
        · simp [readRegEvents, List.filter_cons, Event.isBusRead]
          omega

/-- Settles O24: the passes allowed end in the timeout at the latest, and each of them reads one register. -/
theorem neverReadySensorTimesOut : Obligations.NeverReadySensorTimesOut := by
  unfold Obligations.NeverReadySensorTimesOut
  intro s count polls hq _ hpolls hn hfeeds
  obtain ⟨ws, rs, ds, hw, hr, -⟩ := hfeeds.accept
  obtain ⟨t, es, hloop, ht, hlen⟩ := averageLoop_never_ready (count := count) (averagePasses s.cfg count)
    (s := s.accept.summing) (State.quiet_readClock (s := s.accept) hq) rfl hpolls hn hw hr
  have havg : average count s.accept = .stop (.raised .timeout) t := by
    rw [average_apply, State.resetDue_of_quiet (s := s.accept) hq]
    exact hloop
  obtain ⟨hqt, hframe⟩ := average_stops_frame hq havg
  refine ⟨_, runCommand_of_raised havg hqt, by simp [Failed], hframe,
    .now s.nextTime :: es, ?_, by simpa [Event.isBusRead, averagePasses] using hlen⟩
  exact ht.trans (List.append_assoc s.trace [.now s.nextTime] es)

end Sys2Proof.Machine
end
